-- ==== Sys2Proof/Word.lean ====
section
/-! DEFINITION. The word types of the HUF1 block (spec 00_scope.md rule R7: SYM_W, FREQ_W, KEY_W, TAG_W, HANDLE_W) and
the queue's policy, which the syntax of PQ_NEW names. Every value of the block is unsigned (rule R9). -/

namespace Sys2Proof

/-- A 32-bit register, command word, DMEM offset, length or frequency count (R7: FREQ_W, ADDR_W, BITCOUNT_W). -/
abbrev Word := BitVec 32

/-- A DMEM byte and a symbol (R7: SYM_W; R14 "symbol"). -/
abbrev Byte := BitVec 8

/-- A node weight and a queue key (R7: KEY_W). -/
abbrev Key := BitVec 40

/-- The tag of a queue element (R7: TAG_W). -/
abbrev Tag := BitVec 16

/-- An arena index naming a node (R7: HANDLE_W; R14 "handle"). -/
abbrev Handle := BitVec 9

/-- The queue's ordering rule (R14 "policy", R45). -/
inductive Policy where
  | min
  | max
  deriving DecidableEq, Repr

end Sys2Proof
end

