-- ==== Sys2Proof/Config.lean ====
section
/-! DEFINITION. What is fixed for one HUF1 block: the capacities of spec 00_scope.md rule R7, its OPEN parameters, and the
values the spec leaves free (93_implementation_defined.md U4, U5). The OPEN parameters and free values are opaque constants
with no body: no proof can learn a value of one. -/

namespace Sys2Proof.Config

/-- PQ_CAP: the queue's capacity in elements (R7). -/
def pqCap : Nat := 256

/-- NODE_CAP: the arena's capacity in nodes (R7). -/
def nodeCap : Nat := 511

/-- NIL: the handle that means "no node" (R7). -/
def nil : Handle := 0x1FF#9

/-- The largest bit_count, 2^32 - 1 (R7: BITCOUNT_W; R191). -/
def maxBitCount : Nat := 2 ^ 32 - 1

/-- DMEM_LAST, which is DMEM_BYTES - 1 (R42). DMEM_BYTES is an OPEN parameter, 1..2^32 (R7, 93 U9), so every 32-bit value of
DMEM_LAST is one block. The power-on state carries this value (notes/assumptions/4.md). -/
opaque dmemLast : Word

/-- DMEM_BASE: where the host sees DMEM. OPEN; no rule of the block uses it (R7, R70, 93 U10). -/
opaque dmemBase : Nat

/-- Where the host sees the register window. OPEN; no rule of the block uses it (R70, 93 U10). -/
opaque windowBase : Nat

/-- FREE VALUE: what the DMEM byte at an offset holds at power-on (R51, 93 U4: "each byte drawn freely";
notes/assumptions/2.md). -/
opaque powerOnByte : Nat → Byte

/-- FREE VALUE: what a reset that abandons a command leaves in a byte of the command's write set (R241, 93 U5). The first
argument is the number of the draw, from a counter in the state, so that two resets draw apart; the second is the offset
(notes/assumptions/3.md). -/
opaque abandonedByte : Nat → Nat → Byte

end Sys2Proof.Config
end

