-- ==== Sys2Proof/Syntax.lean ====
section
/-! DEFINITION. The seventeen commands of spec 30_encoding.md rule R84, one constructor per row of the opcode table, with the
free fields of rules R80 and R81 at their exact widths. Register operands are not part of the command word: they are read
from LARG0-LARG3 (rule R82). -/

namespace Sys2Proof

/-- One command. -/
inductive Instr where
  /-- NOP (40_host_protocol.md R110). -/
  | nop
  /-- PQ_NEW, with P (41_pq.md R128). -/
  | pqNew (p : Policy)
  /-- PQ_INSERT, with TAG (R129). -/
  | pqInsert (tag : Tag)
  /-- PQ_PEEK (R130). -/
  | pqPeek
  /-- PQ_POP (R131). -/
  | pqPop
  /-- PQ_SIZE (R132). -/
  | pqSize
  /-- FREQ_BUILD (42_freq.md R141). -/
  | freqBuild
  /-- FREQ_READ, with SYM (R142). -/
  | freqRead (sym : Byte)
  /-- FREQ_WRITE, with SYM (R143). -/
  | freqWrite (sym : Byte)
  /-- TREE_BUILD (43_tree.md R151). -/
  | treeBuild
  /-- TREE_NODE, with HANDLE (R153). -/
  | treeNode (h : Handle)
  /-- TREE_SERIALIZE (R155). -/
  | treeSerialize
  /-- TREE_LOAD (R156). -/
  | treeLoad
  /-- CODE_DERIVE (44_code.md R181). -/
  | codeDerive
  /-- CODE_READ, with SYM and WIDX (R183). -/
  | codeRead (sym : Byte) (widx : BitVec 3)
  /-- ENCODE (45_bitstream.md R191). -/
  | encode
  /-- DECODE (R192). -/
  | decode
  deriving DecidableEq, Repr

end Sys2Proof
end

