-- ==== Sys2Proof/Machine/State.lean ====
section
/-! DEFINITION. The state of the block (spec 10_state.md rule R20), as plain data, and its value at power-on (rule R53). The
host and the scheduler are agents outside the block (00_scope.md R8, 40_host_protocol.md R100): what they are about to do
stands in `inputs`, what the host's reads returned stands in `replies`. -/

namespace Sys2Proof.Machine

/-- The error codes, one name each (60_exceptions.md R211). "No other value ever appears in ERRCODE". -/
inductive ErrCode where
  | ok
  | illegalCmd
  | unknownSymbol
  | truncatedStream
  | corruptTree
  | descMalformed
  | noTree
  | noCodes
  | queueFull
  | badAddr
  | rangeOverlap
  | bitOverflow
  | badHandle
  deriving DecidableEq, Repr

/-- TREE_STATE (R33). -/
inductive TreeState where
  | invalid
  | empty
  | single
  | multi
  deriving DecidableEq, Repr

/-- KIND of an arena record (R46). -/
inductive NodeKind where
  | leaf
  | internal
  deriving DecidableEq, Repr

/-- One arena record (R46). -/
structure Node where
  kind : NodeKind
  sym : Byte
  left : Handle
  right : Handle
  weight : Key
  deriving DecidableEq, Repr

/-- One queue element (R45). -/
structure Elem where
  key : Key
  tag : Tag
  deriving DecidableEq, Repr

/-- The flags of STATUS that have a home of their own (R27-R32). The other fields of STATUS show other state (R33-R36). -/
structure StatusFlags where
  busy : Bool
  done : Bool
  err : Bool
  overrun : Bool
  errCode : ErrCode
  deriving DecidableEq, Repr

/-- The queue (R45): POLICY, and HEAP[0..SIZE-1] as a list, so that SIZE is its length. Slots at SIZE and above "hold no
value and no rule reads them", so they are not held (notes/assumptions/5.md). -/
structure Queue where
  policy : Policy
  heap : List Elem
  deriving DecidableEq, Repr

/-- SIZE (R45), shown as STATUS.PQ_SIZE (R36). -/
def Queue.size (q : Queue) : Nat := q.heap.length

/-- The tree (R46, R47, R33): NODE[0..NODE_COUNT-1] as a list, so that NODE_COUNT is its length, with ROOT and TREE_STATE.
Records at NODE_COUNT and above "hold no value and no rule reads them", so they are not held (notes/assumptions/5.md). -/
structure Tree where
  nodes : List Node
  root : Handle
  state : TreeState
  deriving DecidableEq, Repr

/-- NODE_COUNT (R47). -/
def Tree.nodeCount (t : Tree) : Nat := t.nodes.length

/-- The code table (R49) and CODES_VALID (R34). -/
structure CodeTable where
  valid : Bool
  len : Vector (BitVec 8) 256
  val : Vector (BitVec 256) 256
  deriving DecidableEq, Repr

/-- DMEM (R51): the bytes that something has written, by rising offset. An offset that is not listed has no recorded value. -/
abbrev Memory := List Host.Cell

/-- One thing the environment does: a step of the host or of the engine (40_host_protocol.md R100), the hardware reset
(70_reset_and_hazards.md R240), or a host program's own decision (30_encoding.md R90): to read STATUS again until BUSY = 0, and
to stop at an error. `waitIdle later` is that loop, in a schedule in which, from the first read that shows BUSY = 1, the host
reads `later` times more before the engine's turn. A register access carries its width in bytes, so that the accesses of
20_memory.md R68 that have no meaning can be written down. -/
inductive Input where
  | regRead (off bytes : Nat)
  | regWrite (off bytes : Nat) (v : Word)
  | dmemRead (a : Nat)
  | dmemWrite (a : Nat) (b : Byte)
  | engine
  | reset
  | waitIdle (later : Nat)
  | stopOnError
  deriving DecidableEq, Repr

/-- What a host read returned. -/
inductive Reply where
  | reg (off : Nat) (v : Word)
  | byte (a : Nat) (b : Byte)
  deriving DecidableEq, Repr

/-- Why a run ends in a fault. -/
inductive Fault where
  /-- HOST_RACE: raised by a host DMEM access while BUSY = 1 (20_memory.md R72, 60_exceptions.md R217). Safe: the hardware
  goes on with unspecified results, the model stops. -/
  | hostRace
  deriving DecidableEq, Repr

/-- Why a step has no meaning. -/
inductive Refusal where
  /-- Raised by `exec` for a command that has no meaning yet. Safe. No arm raises it. -/
  | notModelled (mnemonic : String)
  /-- Raised by a host register access that is not an aligned 32-bit access inside the window (20_memory.md R68, 93 U7).
  Safe: "a model refuses it". -/
  | registerAccessUndefined
  /-- Raised by a host DMEM access at an offset at or above DMEM_BYTES (40_host_protocol.md R111, 93 U8). Safe: "a model
  refuses it". -/
  | dmemOffsetOutside
  deriving DecidableEq, Repr

/-- The state of the block (R20), the parameter DMEM_LAST it was made with, and the model's own fields `inputs`, `replies`
and `draws`. -/
structure State where
  /-- ARG0-ARG3 (R21). -/
  arg : Vector Word 4
  /-- RES0-RES3 (R22). -/
  res : Vector Word 4
  /-- ERR_INFO0 (R23). -/
  errInfo0 : Word
  /-- ERR_INFO1 (R23). -/
  errInfo1 : Word
  /-- LAST_CMD, which a read of CMD returns (R24). -/
  lastCmd : Word
  /-- BUSY, DONE, ERR, OVERRUN and ERRCODE (R27-R32). -/
  status : StatusFlags
  /-- IRQ_EN: bit 0 DONE_IE, bit 1 ERR_IE, bit 2 OVR_IE (R40). -/
  irqEn : BitVec 3
  /-- LCMD (R25). -/
  lcmd : Word
  /-- LARG0-LARG3 (R25). -/
  larg : Vector Word 4
  /-- FREQ[0..255] (R44). -/
  freq : Vector Word 256
  /-- POLICY, SIZE and HEAP (R45). -/
  queue : Queue
  /-- NODE, NODE_COUNT, ROOT and TREE_STATE (R46, R47, R33). -/
  tree : Tree
  /-- LEN, VAL and CODES_VALID (R49, R34). -/
  codes : CodeTable
  /-- DMEM (R51). -/
  dmem : Memory
  /-- The block's parameter DMEM_LAST = DMEM_BYTES - 1 (R42, R7). No step changes it. -/
  dmemLast : Word
  /-- The model's own: what the environment does next, first first. -/
  inputs : List Input
  /-- The model's own: what the host's reads returned, last first. -/
  replies : List Reply
  /-- The model's own: the number of the next draw of `Config.abandonedByte`, advanced by every reset (R241). -/
  draws : Nat
  deriving DecidableEq, Repr

/-- DMEM_BYTES (R7, R42). -/
def State.dmemBytes (s : State) : Nat := s.dmemLast.toNat + 1

/-- The queue at reset (R53). -/
def Queue.reset : Queue := { policy := .min, heap := [] }

/-- The tree at reset (R53). -/
def Tree.reset : Tree := { nodes := [], root := Config.nil, state := .invalid }

/-- The code table at reset (R53). LEN and VAL are "unspecified, unobservable" there; zero is the model's choice
(notes/assumptions/6.md, DESIGN CHOICE). -/
def CodeTable.reset : CodeTable :=
  { valid := false, len := Vector.replicate 256 0#8, val := Vector.replicate 256 0#256 }

/-- The flags at reset (R53). -/
def StatusFlags.reset : StatusFlags :=
  { busy := false, done := false, err := false, overrun := false, errCode := .ok }

/-- The machine right after power-on reset (R53): nothing in DMEM is listed (R51), and the environment has nothing pending. -/
def State.reset : State where
  arg := Vector.replicate 4 0#32
  res := Vector.replicate 4 0#32
  errInfo0 := 0#32
  errInfo1 := 0#32
  lastCmd := 0#32
  status := StatusFlags.reset
  irqEn := 0#3
  lcmd := 0#32
  larg := Vector.replicate 4 0#32
  freq := Vector.replicate 256 0#32
  queue := Queue.reset
  tree := Tree.reset
  codes := CodeTable.reset
  dmem := []
  dmemLast := Config.dmemLast
  inputs := []
  replies := []
  draws := 0

end Sys2Proof.Machine
end

