-- ==== Sys2Proof/Machine/Ops.lean ====
section
/-! DEFINITION. The operations the commands share: DMEM (spec 20_memory.md R60-R65), ranges (R62, R63), the acceptance of a
command (40_host_protocol.md R105), its successful completion (R109), and the one error completion (60_exceptions.md R213),
which is this block's form of taking an exception. There is no return from an error: "transfers control nowhere" (R210,
R221); the next acceptance clears DONE, ERR and ERRCODE. -/

namespace Sys2Proof.Machine

/-! ### DMEM -/

/-- The recorded byte at an offset; none where nothing has written it. -/
def Memory.get? : Memory → Nat → Option Byte
  | [], _ => none
  | (k, b) :: m, a => if k = a then some b else Memory.get? m a

/-- Record a byte at an offset, keeping the offsets rising. -/
def Memory.put : Memory → Nat → Byte → Memory
  | [], a, v => [(a, v)]
  | (k, b) :: m, a, v =>
    if a < k then (a, v) :: (k, b) :: m
    else if a = k then (a, v) :: m
    else (k, b) :: Memory.put m a v

/-- Record bytes at successive offsets, in ascending order. -/
def Memory.putBytes : Memory → Nat → List Byte → Memory
  | m, _, [] => m
  | m, a, b :: bs => Memory.putBytes (m.put a b) (a + 1) bs

/-- The canonical form: the offsets rise strictly and every one is below DMEM_BYTES. An unlisted offset has no recorded value,
so no entry can repeat it (notes/assumptions/2.md). -/
def Memory.wf (dmemBytes : Nat) (m : Memory) : Bool :=
  decide (m.Pairwise fun c d => c.1 < d.1) && m.all fun c => decide (c.1 < dmemBytes)

/-- `MemRead(a, 1)` (R12, R61). A byte nothing has written since power-on reads as a free value (R51, 93 U4). -/
def State.memRead (s : State) (a : Nat) : Byte :=
  (s.dmem.get? a).getD (Config.powerOnByte a)

/-- The bytes a command stores, with the offset of the first (20_memory.md R61: "the commands that write DMEM"). -/
structure Store where
  base : Nat
  bytes : List Byte
  deriving DecidableEq, Repr

/-- `MemWrite(base + i, 1, bytes[i])` for every i (R12, R61). -/
def State.memWrite (s : State) (st : Store) : State :=
  { s with dmem := s.dmem.putBytes st.base st.bytes }

/-! ### Ranges -/

/-- `valid(a, n)` (R62): "n = 0 or a + n <= DMEM_BYTES, where a + n is computed without wrap-around". -/
def State.validRange (s : State) (a n : Nat) : Bool :=
  n == 0 || decide (a + n ≤ s.dmemBytes)

/-- [a, a+n) and [b, b+m) overlap (R63). -/
def rangesOverlap (a n b m : Nat) : Bool :=
  decide (0 < n) && decide (0 < m) && decide (a < b + m) && decide (b < a + n)

/-! ### Errors and completions -/

/-- `raise E(i0, i1)` (R12, R212). -/
structure Raise where
  code : ErrCode
  info0 : Word
  info1 : Word
  deriving DecidableEq, Repr

/-- The rule of a command, evaluated: its writes, or the error it raises (R109, R13). -/
abbrev Result (α : Type) := Except Raise α

/-- `raise BAD_ADDR(a, n)` unless the range is valid (R62). -/
def State.checkRange (s : State) (a n : Nat) : Result Unit :=
  if s.validRange a n then .ok ()
  else .error { code := .badAddr, info0 := BitVec.ofNat 32 a, info1 := BitVec.ofNat 32 n }

/-- `raise RANGE_OVERLAP(src, dst)` when the read range and the write range share a byte (R63, R191, R192). -/
def checkOverlap (src n dst m : Nat) : Result Unit :=
  if rangesOverlap src n dst m then
    .error { code := .rangeOverlap, info0 := BitVec.ofNat 32 src, info1 := BitVec.ofNat 32 dst }
  else .ok ()

/-- The error completion (R213): "exactly these writes ... Nothing else changes". -/
def State.fail (s : State) (r : Raise) : State :=
  { s with
    errInfo0 := r.info0
    errInfo1 := r.info1
    status := { s.status with errCode := r.code, err := true, busy := false, done := true } }

/-- The successful completion (R109): ERRCODE <- 0x00, BUSY <- 0, DONE <- 1; ERR and ERR_INFO are not written. -/
def State.complete (s : State) : State :=
  { s with status := { s.status with errCode := .ok, busy := false, done := true } }

/-- The acceptance of a command word (R105). OVERRUN is unchanged. -/
def State.accept (s : State) (w : Word) : State :=
  { s with
    lastCmd := w
    lcmd := w
    larg := s.arg
    status := { s.status with busy := true, done := false, err := false, errCode := .ok } }

/-- One Engine step, given the evaluated rule of the command (R109, R213): `s` is the state before it. -/
def finish (s : State) (r : Result State) : Host.Outcome State Fault Refusal :=
  match r with
  | .ok t => .next t.complete
  | .error e => .next (s.fail e)

/-- `ILLEGAL_CMD(LCMD, 0)`: what a word that no row selects raises (R85, R86, R212). -/
def illegalCommand (s : State) : Host.Outcome State Fault Refusal :=
  finish s (.error { code := .illegalCmd, info0 := s.lcmd, info1 := 0#32 })

/-! ### Named updates -/

/-- `RES[i] <- v` (R12). -/
def State.setRes (s : State) (i : Fin 4) (v : Word) : State := { s with res := s.res.set i v }

/-- Write the queue (R45). -/
def State.setQueue (s : State) (q : Queue) : State := { s with queue := q }

/-- Write the frequency table (R44). -/
def State.setFreq (s : State) (f : Vector Word 256) : State := { s with freq := f }

/-- Write the tree: the arena, NODE_COUNT, ROOT and TREE_STATE, with CODES_VALID <- 0 (R151, R156, R34). LEN and VAL then hold
no value (R50). -/
def State.setTree (s : State) (t : Tree) : State :=
  { s with tree := t, codes := { s.codes with valid := false } }

/-- Write the code table (R181). -/
def State.setCodes (s : State) (c : CodeTable) : State := { s with codes := c }

/-- Replace what the environment does next. -/
def State.withInputs (s : State) (l : List Input) : State := { s with inputs := l }

/-- Hand a host read its value. -/
def State.reply (s : State) (r : Reply) : State := { s with replies := r :: s.replies }

end Sys2Proof.Machine
end

