-- ==== Sys2Proof/Machine/Operands.lean ====
section
/-! DEFINITION. Operand and result forms: the register operands of spec 30_encoding.md R82 and R83, the bit order of packed
streams (20_memory.md R65, 45_bitstream.md R190), codes as bit strings and as LEN/VAL entries (10_state.md R49, 44_code.md
R180), and the packing of result registers (43_tree.md R153). A bit string is a list of Booleans, first bit first (R11). -/

namespace Sys2Proof.Machine

/-! ### Register operands (R82): read from the latched copies -/

/-- The PQ_INSERT key, `LARG1[7:0] ++ LARG0[31:0]` (R83). -/
def State.keyOperand (s : State) : Key := s.larg[1].extractLsb' 0 8 ++ s.larg[0]

/-- LARG0 as the src offset of FREQ_BUILD, TREE_LOAD, ENCODE and DECODE (R82). -/
def State.srcOperand (s : State) : Nat := s.larg[0].toNat

/-- LARG1 as the length, descriptor length or bit_count of FREQ_BUILD, TREE_LOAD, ENCODE and DECODE (R82). -/
def State.lengthOperand (s : State) : Nat := s.larg[1].toNat

/-- LARG2 as the dst offset of ENCODE and DECODE (R82). -/
def State.dstOperand (s : State) : Nat := s.larg[2].toNat

/-- LARG0 as the dst offset of TREE_SERIALIZE (R82). -/
def State.serializeDstOperand (s : State) : Nat := s.larg[0].toNat

/-- LARG0 as the count of FREQ_WRITE (R82). -/
def State.countOperand (s : State) : Word := s.larg[0]

/-! ### Packed bitstreams -/

/-- `ceil(n / 8)` (R9, R65): the bytes a stream of n bits occupies. -/
def bytesForBits (n : Nat) : Nat := (n + 7) / 8

/-- `StreamBit(base, k)` (R65): bit 7 - (k mod 8) of the byte at base + (k div 8). -/
def State.streamBit (s : State) (base k : Nat) : Bool :=
  (s.memRead (base + k / 8)).getLsbD (7 - k % 8)

/-- Byte q of a packed stream (R191): the sum over j in 0..7 with 8q+j < T of S_{8q+j} << (7 - j). Pad bits are 0 (D13). -/
def packByte (bits : List Bool) (q : Nat) : Byte :=
  (List.range 8).foldl
    (fun acc j => if bits.getD (8 * q + j) false then acc ||| BitVec.twoPow 8 (7 - j) else acc) 0#8

/-- A bit string packed into ceil(T/8) bytes (R190, R191). -/
def packBits (bits : List Bool) : List Byte :=
  (List.range (bytesForBits bits.length)).map (packByte bits)

/-! ### Codes -/

/-- VAL's form of a bit string (R49, R180): bit 255 - j is the string's bit j, every other bit 0. -/
def codeValue (c : List Bool) : BitVec 256 :=
  (List.range 256).foldl
    (fun acc j => if c.getD j false then acc ||| BitVec.twoPow 256 (255 - j) else acc) 0#256

/-- `code(s)`: the bit string of LEN[s] and VAL[s] (R49). -/
def CodeTable.code (c : CodeTable) (sym : Byte) : List Bool :=
  (List.range c.len[sym.toNat].toNat).map fun j => c.val[sym.toNat].getLsbD (255 - j)

/-- `assign(s, c)` (R180). -/
def CodeTable.assign (t : CodeTable) (sym : Byte) (c : List Bool) : CodeTable :=
  { t with
    len := t.len.set sym.toNat (BitVec.ofNat 8 c.length)
    val := t.val.set sym.toNat (codeValue c) }

/-- `VAL[SYM][255 - 32*WIDX : 224 - 32*WIDX]` (R183). -/
def CodeTable.codeWord (t : CodeTable) (sym : Byte) (widx : BitVec 3) : Word :=
  t.val[sym.toNat].extractLsb' (224 - 32 * widx.toNat) 32

/-! ### Result registers -/

/-- A queue element, or its absence, in RES0-RES3 (41_pq.md R130, R131): RES3 is the "present" flag. -/
def elemResults : Option Elem → Vector Word 4
  | none => #v[0#32, 0#32, 0#32, 0#32]
  | some e => #v[e.key.extractLsb' 0 32, (e.key.extractLsb' 32 8).setWidth 32, e.tag.setWidth 32, 1#32]

/-- KIND as a bit (10_state.md R46: 0 leaf, 1 internal). -/
def NodeKind.bit : NodeKind → Word
  | .leaf => 0#32
  | .internal => 1#32

/-- An arena record in RES0-RES3 (43_tree.md R153). -/
def nodeResults (n : Node) : Vector Word 4 :=
  #v[n.kind.bit ||| (n.sym.setWidth 32 <<< 8),
     n.left.setWidth 32 ||| (n.right.setWidth 32 <<< 16),
     n.weight.extractLsb' 0 32,
     (n.weight.extractLsb' 32 8).setWidth 32]

/-- Byte j of a register on a byte-addressed host bus (20_memory.md R66): register bits [8j+7:8j], little-endian. Only whole
32-bit accesses are defined (R68), so no step uses it. -/
def registerByte (v : Word) (j : Fin 4) : Byte := v.extractLsb' (8 * j.val) 8

end Sys2Proof.Machine
end

