-- ==== Sys2Proof/Machine/Heap.lean ====
section
/-! DEFINITION. The heap primitives of spec 41_pq.md R120-R127, on HEAP[0..SIZE-1] as a list. The commands of 41_pq.md and
TREE_BUILD (43_tree.md R151) use the same ones. -/

namespace Sys2Proof.Machine

/-- `prefers(a, b)` (R121): a is strictly better than b. The key alone is compared (R120). -/
def prefers (p : Policy) (a b : Elem) : Bool :=
  match p with
  | .min => decide (a.key < b.key)
  | .max => decide (b.key < a.key)

/-- `swap HEAP[i], HEAP[j]` (R124, R125). -/
def swapAt (h : List Elem) (i j : Nat) : List Elem :=
  match h[i]?, h[j]? with
  | some a, some b => (h.set i b).set j a
  | _, _ => h

/-- `prefers(HEAP[i], HEAP[j])`; an absent slot is not preferred. -/
def prefersAt (p : Policy) (h : List Elem) (i j : Nat) : Bool :=
  match h[i]?, h[j]? with
  | some a, some b => prefers p a b
  | _, _ => false

/-- `percolate_up(i)` (R124). Each turn at least halves i, so i turns are enough. -/
def percolateUp (p : Policy) : (turns : Nat) → (i : Nat) → List Elem → List Elem
  | 0, _, h => h
  | turns + 1, i, h =>
    if 0 < i then
      let parent := (i - 1) / 2
      if prefersAt p h i parent then percolateUp p turns parent (swapAt h i parent) else h
    else h

/-- The child that percolate-down compares with slot i (R125): the right one only if it is present and strictly preferred over
the left one (D6). The left one is present. -/
def preferredChild (p : Policy) (h : List Elem) (i : Nat) : Nat :=
  if prefersAt p h (2 * i + 2) (2 * i + 1) then 2 * i + 2 else 2 * i + 1

/-- `percolate_down(i)` (R125). Each turn moves to a larger index, so SIZE turns are enough. -/
def percolateDown (p : Policy) : (turns : Nat) → (i : Nat) → List Elem → List Elem
  | 0, _, h => h
  | turns + 1, i, h =>
    if 2 * i + 1 < h.length then
      let c := preferredChild p h i
      if prefersAt p h c i then percolateDown p turns c (swapAt h i c) else h
    else h

/-- `heap_insert(e)` (R126): append, then percolate up from the new slot. -/
def heapInsert (p : Policy) (h : List Elem) (e : Elem) : List Elem :=
  percolateUp p h.length h.length (h ++ [e])

/-- `heap_pop()` (R127): the former root, and the heap left. None on an empty heap, where the primitive is not used. -/
def heapPop (p : Policy) : List Elem → Option (Elem × List Elem)
  | [] => none
  | top :: rest =>
    match rest.getLast? with
    | none => some (top, [])
    | some last => some (top, percolateDown p rest.length 0 (last :: rest.dropLast))

end Sys2Proof.Machine
end

