-- ==== Sys2Proof/Machine/Arena.lean ====
section
/-! DEFINITION. The node arena: allocation (spec 43_tree.md R150), the loop of TREE_BUILD (R151), the tree descriptor (R154),
its parser (R156), and the walk that gives each leaf its path (44_code.md R181). A walk of the tree carries a count of turns;
NODE_COUNT turns are enough for every tree of 10_state.md R48, and no run leaves that rule (notes/assumptions/7.md). -/

namespace Sys2Proof.Machine

/-- A new leaf record (R150). -/
def leafNode (sym : Byte) (w : Key) : Node :=
  { kind := .leaf, sym := sym, left := Config.nil, right := Config.nil, weight := w }

/-- A new internal record (R150). -/
def internalNode (l r : Handle) (w : Key) : Node :=
  { kind := .internal, sym := 0#8, left := l, right := r, weight := w }

/-- The record at a handle, if the handle is below NODE_COUNT. -/
def Tree.node? (t : Tree) (h : Handle) : Option Node := t.nodes[h.toNat]?

/-! ### TREE_BUILD -/

/-- The symbols with a nonzero count, in ascending order (R151 `Lst`, D7). -/
def presentSymbols (freq : Vector Word 256) : List Byte :=
  ((List.range 256).map (BitVec.ofNat 8)).filter fun sym => freq[sym.toNat] != 0#32

/-- The leaves TREE_BUILD allocates, leaf j at handle j (R151). -/
def initialLeaves (freq : Vector Word 256) (symbols : List Byte) : List Node :=
  symbols.map fun sym => leafNode sym (freq[sym.toNat].setWidth 40)

/-- The queue after every leaf has been inserted in handle order (R151). -/
def initialHeap (leaves : List Node) : List Elem :=
  leaves.zipIdx.foldl (fun h (n, j) => heapInsert .min h { key := n.weight, tag := BitVec.ofNat 16 j }) []

/-- One turn of `while SIZE > 1` (R151): the first popped is the left child. -/
def pairOnce (nodes : List Node) (heap : List Elem) : Option (List Node × List Elem) :=
  match heapPop .min heap with
  | none => none
  | some (l, heap₁) =>
    match heapPop .min heap₁ with
    | none => none
    | some (r, heap₂) =>
      let w := l.key + r.key
      some (nodes ++ [internalNode (l.tag.setWidth 9) (r.tag.setWidth 9) w],
        heapInsert .min heap₂ { key := w, tag := BitVec.ofNat 16 nodes.length })

/-- `while SIZE > 1` (R151). Each turn makes the queue one shorter, so as many turns as it holds elements are enough. -/
def pairAll : (turns : Nat) → List Node → List Elem → List Node × List Elem
  | 0, nodes, heap => (nodes, heap)
  | turns + 1, nodes, heap =>
    if 1 < heap.length then
      match pairOnce nodes heap with
      | none => (nodes, heap)
      | some (nodes', heap') => pairAll turns nodes' heap'
    else (nodes, heap)

/-- The tree and the queue's elements that TREE_BUILD leaves (R151). -/
def buildTree (freq : Vector Word 256) : Tree × List Elem :=
  let symbols := presentSymbols freq
  let leaves := initialLeaves freq symbols
  match symbols.length with
  | 0 => ({ nodes := [], root := Config.nil, state := .empty }, [])
  | 1 => ({ nodes := leaves, root := 0#9, state := .single }, [])
  | n =>
    let (nodes, heap) := pairAll n leaves (initialHeap leaves)
    match heapPop .min heap with
    | none => ({ nodes := nodes, root := Config.nil, state := .multi }, heap)
    | some (top, rest) => ({ nodes := nodes, root := top.tag.setWidth 9, state := .multi }, rest)

/-! ### The descriptor -/

/-- `desc(h)` (R154). -/
def describe (nodes : List Node) : (turns : Nat) → Handle → List Byte
  | 0, _ => []
  | turns + 1, h =>
    match nodes[h.toNat]? with
    | none => []
    | some n =>
      match n.kind with
      | .leaf => [0x01#8, n.sym]
      | .internal => 0x00#8 :: (describe nodes turns n.left ++ describe nodes turns n.right)

/-- `Descriptor` (R154). TREE_SERIALIZE, its only user, has raised NO_TREE where there is no tree. -/
def Tree.descriptor (t : Tree) : List Byte :=
  match t.state with
  | .invalid => []
  | .empty => []
  | .single => describe t.nodes t.nodeCount t.root
  | .multi => describe t.nodes t.nodeCount t.root

/-- What `parse` threads through (R156): the position, the staged arena, and the symbols seen, one per leaf. -/
structure ParseState where
  pos : Nat
  nodes : List Node
  seen : List Byte
  deriving DecidableEq, Repr

/-- `DESC_MALFORMED(pos, sub)` (R156, R212). -/
def descMalformed (pos sub : Nat) : Raise :=
  { code := .descMalformed, info0 := BitVec.ofNat 32 pos, info1 := BitVec.ofNat 32 sub }

/-- `parse()` (R156), reading descriptor byte i as `d i` of m bytes. The checks stand in the order of 60_exceptions.md R216.
Every enclosing call has allocated a node, so at NODE_CAP the fifth check ends the descent, and NODE_CAP + 1 turns are
enough. -/
def parseNode (d : Nat → Byte) (m : Nat) : (turns : Nat) → ParseState → Result (Handle × ParseState)
  | 0, st => .error (descMalformed st.pos 5)
  | turns + 1, st =>
    if m ≤ st.pos then .error (descMalformed st.pos 1)
    else if Config.nodeCap ≤ st.nodes.length then .error (descMalformed st.pos 5)
    else if d st.pos = 0x00#8 then
      let h := st.nodes.length
      match parseNode d m turns
          { pos := st.pos + 1, nodes := st.nodes ++ [internalNode Config.nil Config.nil 0#40], seen := st.seen } with
      | .error e => .error e
      | .ok (l, st₁) =>
        match parseNode d m turns st₁ with
        | .error e => .error e
        | .ok (r, st₂) =>
          .ok (BitVec.ofNat 9 h, { st₂ with nodes := st₂.nodes.set h (internalNode l r 0#40) })
    else if d st.pos = 0x01#8 then
      if m ≤ st.pos + 1 then .error (descMalformed (st.pos + 1) 1)
      else
        let sym := d (st.pos + 1)
        if sym ∈ st.seen then .error (descMalformed (st.pos + 1) 3)
        else
          .ok (BitVec.ofNat 9 st.nodes.length,
            { pos := st.pos + 2, nodes := st.nodes ++ [leafNode sym 0#40], seen := sym :: st.seen })
    else .error (descMalformed st.pos 2)

/-- The tree state of a root (R156): SINGLE if it is a leaf, else MULTI. -/
def rootState (nodes : List Node) (root : Handle) : TreeState :=
  match nodes[root.toNat]?.map Node.kind with
  | some .leaf => .single
  | some .internal => .multi
  | none => .multi

/-- The tree a descriptor of m bytes stands for, and its leaf count (R156). -/
def loadTree (d : Nat → Byte) (m : Nat) : Result (Tree × Nat) :=
  if m = 0 then .ok ({ nodes := [], root := Config.nil, state := .empty }, 0)
  else
    match parseNode d m (Config.nodeCap + 1) { pos := 0, nodes := [], seen := [] } with
    | .error e => .error e
    | .ok (root, st) =>
      if st.pos < m then .error (descMalformed st.pos 4)
      else .ok ({ nodes := st.nodes, root := root, state := rootState st.nodes root }, st.seen.length)

/-! ### Paths -/

/-- `walk(h, p)` (44_code.md R181): every leaf below h with its path, left before right. -/
def leafPaths (nodes : List Node) : (turns : Nat) → Handle → List Bool → List (Byte × List Bool)
  | 0, _, _ => []
  | turns + 1, h, path =>
    match nodes[h.toNat]? with
    | none => []
    | some n =>
      match n.kind with
      | .leaf => [(n.sym, path)]
      | .internal => leafPaths nodes turns n.left (path ++ [false]) ++ leafPaths nodes turns n.right (path ++ [true])

/-- The symbols of the tree with their codes (R181): a lone leaf gets "0". -/
def Tree.assignments (t : Tree) : List (Byte × List Bool) :=
  match t.state with
  | .invalid => []
  | .empty => []
  | .single => ((t.node? t.root).map fun n => (n.sym, [false])).toList
  | .multi => leafPaths t.nodes t.nodeCount t.root []

end Sys2Proof.Machine
end

