-- ==== Sys2Proof/Machine/TreeCommands.lean ====
section
/-! DEFINITION. The tree commands (spec 43_tree.md R151, R153, R155, R156). -/

namespace Sys2Proof.Machine

/-- RES0 root handle, RES1 node count, RES2 leaf count, as TREE_BUILD and TREE_LOAD leave them (D45). -/
def State.setTreeResults (s : State) (t : Tree) (leaves : Nat) : State :=
  ((s.setRes 0 (t.root.setWidth 32)).setRes 1 (BitVec.ofNat 32 t.nodeCount)).setRes 2 (BitVec.ofNat 32 leaves)

/-- `raise NO_TREE(0, 0)` when TREE_STATE = INVALID (R155, R181, R192, D16). -/
def State.requireTree (s : State) : Result Unit :=
  match s.tree.state with
  | .invalid => .error { code := .noTree, info0 := 0#32, info1 := 0#32 }
  | .empty => .ok ()
  | .single => .ok ()
  | .multi => .ok ()

/-- TREE_BUILD (R151). The queue becomes Min, with what the construction leaves in it. -/
def execTreeBuild (s : State) : Host.Outcome State Fault Refusal :=
  let built := buildTree s.freq
  finish s
    (.ok (((s.setQueue { policy := .min, heap := built.2 }).setTree built.1).setTreeResults built.1
      (presentSymbols s.freq).length))

/-- TREE_NODE (R153): BAD_HANDLE(h, NODE_COUNT) for a handle at or above NODE_COUNT, else the record in RES0-RES3. -/
def execTreeNode (h : Handle) (s : State) : Host.Outcome State Fault Refusal :=
  finish s
    (match s.tree.node? h with
    | none => .error { code := .badHandle, info0 := h.setWidth 32, info1 := BitVec.ofNat 32 s.tree.nodeCount }
    | some n => .ok { s with res := nodeResults n })

/-- What TREE_SERIALIZE stores (R155). -/
def State.serializeStore (s : State) : Result Store :=
  match s.requireTree with
  | .error e => .error e
  | .ok () =>
    let d := s.tree.descriptor
    match s.checkRange s.serializeDstOperand d.length with
    | .error e => .error e
    | .ok () => .ok { base := s.serializeDstOperand, bytes := d }

/-- TREE_SERIALIZE (R155): store the descriptor; RES0 is its length. -/
def execTreeSerialize (s : State) : Host.Outcome State Fault Refusal :=
  finish s
    (match s.serializeStore with
    | .error e => .error e
    | .ok st => .ok ((s.memWrite st).setRes 0 (BitVec.ofNat 32 st.bytes.length)))

/-- TREE_LOAD (R156). The queue and FREQ are not touched. -/
def execTreeLoad (s : State) : Host.Outcome State Fault Refusal :=
  finish s
    (match s.checkRange s.srcOperand s.lengthOperand with
    | .error e => .error e
    | .ok () =>
      match loadTree (fun i => s.memRead (s.srcOperand + i)) s.lengthOperand with
      | .error e => .error e
      | .ok (t, leaves) => .ok ((s.setTree t).setTreeResults t leaves))

end Sys2Proof.Machine
end

