-- ==== Sys2Proof/Machine/Code.lean ====
section
/-! DEFINITION. The code table commands (spec 44_code.md R180-R183). -/

namespace Sys2Proof.Machine

/-- The table of a tree (R181): each symbol of the tree gets its path, every other symbol length 0. -/
def deriveCodes (t : Tree) : CodeTable :=
  t.assignments.foldl (fun c (sym, path) => c.assign sym path)
    { valid := true, len := Vector.replicate 256 0#8, val := Vector.replicate 256 0#256 }

/-- The number of symbols with a code (R181 RES0). -/
def codedCount (c : CodeTable) : Nat := c.len.toList.countP (· != 0#8)

/-- The longest code length, 0 when no symbol has a code (R181 RES1). -/
def maxCodeLength (c : CodeTable) : Nat := c.len.toList.foldl (fun m l => max m l.toNat) 0

/-- `raise NO_CODES(0, 0)` when CODES_VALID = 0 (R183, R191, D16). -/
def State.requireCodes (s : State) : Result Unit :=
  if s.codes.valid then .ok () else .error { code := .noCodes, info0 := 0#32, info1 := 0#32 }

/-- CODE_DERIVE (R181). -/
def execCodeDerive (s : State) : Host.Outcome State Fault Refusal :=
  finish s
    (match s.requireTree with
    | .error e => .error e
    | .ok () =>
      let c := deriveCodes s.tree
      .ok (((s.setCodes c).setRes 0 (BitVec.ofNat 32 (codedCount c))).setRes 1 (BitVec.ofNat 32 (maxCodeLength c))))

/-- CODE_READ (R183): RES0 <- LEN[SYM], RES1 <- word WIDX of VAL[SYM]. -/
def execCodeRead (sym : Byte) (widx : BitVec 3) (s : State) : Host.Outcome State Fault Refusal :=
  finish s
    (match s.requireCodes with
    | .error e => .error e
    | .ok () => .ok ((s.setRes 0 (s.codes.len[sym.toNat].setWidth 32)).setRes 1 (s.codes.codeWord sym widx)))

end Sys2Proof.Machine
end

