-- ==== Sys2Proof/Machine/Bitstream.lean ====
section
/-! DEFINITION. ENCODE and DECODE (spec 45_bitstream.md R190-R192). Each is evaluated to what it would store before anything
is written, so an error writes no byte (00_scope.md R13). -/

namespace Sys2Proof.Machine

/-- The scan of ENCODE (R191), from input position `i` with `total` bits so far: the codes of the next `count` bytes, in input
order. At one position UNKNOWN_SYMBOL comes before BIT_OVERFLOW. -/
def encodeScan (c : CodeTable) (input : Nat → Byte) : (count : Nat) → (i total : Nat) → Result (List Bool)
  | 0, _, _ => .ok []
  | count + 1, i, total =>
    let sym := input i
    let n := c.len[sym.toNat].toNat
    if n = 0 then .error { code := .unknownSymbol, info0 := BitVec.ofNat 32 i, info1 := sym.setWidth 32 }
    else if Config.maxBitCount < total + n then
      .error { code := .bitOverflow, info0 := BitVec.ofNat 32 i, info1 := 0#32 }
    else
      match encodeScan c input count (i + 1) (total + n) with
      | .error e => .error e
      | .ok rest => .ok (c.code sym ++ rest)

/-- What ENCODE stores, with the bit_count (R191), its checks in order. -/
def State.encodeStore (s : State) : Result (Nat × Store) :=
  match s.requireCodes with
  | .error e => .error e
  | .ok () =>
    match s.checkRange s.srcOperand s.lengthOperand with
    | .error e => .error e
    | .ok () =>
      match encodeScan s.codes (fun i => s.memRead (s.srcOperand + i)) s.lengthOperand 0 0 with
      | .error e => .error e
      | .ok bits =>
        let packed := packBits bits
        match s.checkRange s.dstOperand packed.length with
        | .error e => .error e
        | .ok () =>
          match checkOverlap s.srcOperand s.lengthOperand s.dstOperand packed.length with
          | .error e => .error e
          | .ok () => .ok (bits.length, { base := s.dstOperand, bytes := packed })

/-- ENCODE (R191): store the packed bits; RES0 is the bit_count, RES1 the bytes written. -/
def execEncode (s : State) : Host.Outcome State Fault Refusal :=
  finish s
    (match s.encodeStore with
    | .error e => .error e
    | .ok (total, st) =>
      .ok (((s.memWrite st).setRes 0 (BitVec.ofNat 32 total)).setRes 1 (BitVec.ofNat 32 st.bytes.length)))

/-- Where DECODE stands between two bits (R192): the node reached, the bit at which the current code began, and the symbols
emitted. -/
structure DecodeWalk where
  at_ : Handle
  start : Nat
  out : List Byte
  deriving DecidableEq, Repr

/-- `CORRUPT_TREE(k, |out|)` (R192, R212). -/
def corruptTree (k : Nat) (out : List Byte) : Raise :=
  { code := .corruptTree, info0 := BitVec.ofNat 32 k, info1 := BitVec.ofNat 32 out.length }

/-- The node a bit leads to (R192): none for NIL or a handle at or above NODE_COUNT. -/
def Tree.descend (t : Tree) (h : Handle) (b : Bool) : Option (Handle × Node) :=
  match t.node? h with
  | none => none
  | some n =>
    let next := if b then n.right else n.left
    if next = Config.nil then none else (t.node? next).map fun n' => (next, n')

/-- One bit of DECODE (R192), bit k having value b. -/
def decodeBit (t : Tree) (k : Nat) (b : Bool) (w : DecodeWalk) : Result DecodeWalk :=
  match t.state with
  | .invalid => .error (corruptTree k w.out)
  | .empty => .error (corruptTree k w.out)
  | .single =>
    match b, t.node? t.root with
    | false, some n => .ok { w with start := k + 1, out := w.out ++ [n.sym] }
    | _, _ => .error (corruptTree k w.out)
  | .multi =>
    match t.descend w.at_ b with
    | none => .error (corruptTree k w.out)
    | some (h, n) =>
      match n.kind with
      | .leaf => .ok { at_ := t.root, start := k + 1, out := w.out ++ [n.sym] }
      | .internal => .ok { w with at_ := h }

/-- The scan of DECODE (R192): the next `count` bits of a stream, from bit k. -/
def decodeScan (t : Tree) (stream : Nat → Bool) : (count : Nat) → (k : Nat) → DecodeWalk → Result DecodeWalk
  | 0, _, w => .ok w
  | count + 1, k, w =>
    match decodeBit t k (stream k) w with
    | .error e => .error e
    | .ok w' => decodeScan t stream count (k + 1) w'

/-- The symbols a stream of bc bits decodes to (R192): TRUNCATED_STREAM when the bits end inside a code. -/
def decodeSymbols (t : Tree) (stream : Nat → Bool) (bc : Nat) : Result (List Byte) :=
  match decodeScan t stream bc 0 { at_ := t.root, start := 0, out := [] } with
  | .error e => .error e
  | .ok w =>
    if t.state = .multi ∧ w.at_ ≠ t.root then
      .error { code := .truncatedStream, info0 := BitVec.ofNat 32 w.start, info1 := BitVec.ofNat 32 w.out.length }
    else .ok w.out

/-- What DECODE stores (R192), its checks in order. -/
def State.decodeStore (s : State) : Result Store :=
  match s.requireTree with
  | .error e => .error e
  | .ok () =>
    match s.checkRange s.srcOperand (bytesForBits s.lengthOperand) with
    | .error e => .error e
    | .ok () =>
      match decodeSymbols s.tree (s.streamBit s.srcOperand) s.lengthOperand with
      | .error e => .error e
      | .ok out =>
        match s.checkRange s.dstOperand out.length with
        | .error e => .error e
        | .ok () =>
          match checkOverlap s.srcOperand (bytesForBits s.lengthOperand) s.dstOperand out.length with
          | .error e => .error e
          | .ok () => .ok { base := s.dstOperand, bytes := out }

/-- DECODE (R192): store the symbols; RES0 is their number. -/
def execDecode (s : State) : Host.Outcome State Fault Refusal :=
  finish s
    (match s.decodeStore with
    | .error e => .error e
    | .ok st => .ok ((s.memWrite st).setRes 0 (BitVec.ofNat 32 st.bytes.length)))

end Sys2Proof.Machine
end

