-- ==== Sys2Proof/Machine/Control.lean ====
section
/-! DEFINITION. NOP (spec 40_host_protocol.md R110). -/

namespace Sys2Proof.Machine

/-- NOP (R110): nothing but the completion. -/
def execNop (s : State) : Host.Outcome State Fault Refusal := finish s (.ok s)

end Sys2Proof.Machine
end

