-- ==== Sys2Proof/Machine/Freq.lean ====
section
/-! DEFINITION. The frequency table commands (spec 42_freq.md R140-R143). They invalidate nothing (D35). -/

namespace Sys2Proof.Machine

/-- `distinct(FREQ)` (R140). -/
def distinctCount (f : Vector Word 256) : Nat := f.toList.countP (· != 0#32)

/-- One more occurrence of a symbol (R141). No count can pass 2^32 - 1, since a range has at most 2^32 - 1 bytes. -/
def countSymbol (f : Vector Word 256) (sym : Byte) : Vector Word 256 := f.set sym.toNat (f[sym.toNat] + 1#32)

/-- The counts of the n bytes from src (R141). -/
def State.countBytes (s : State) (src n : Nat) : Vector Word 256 :=
  (List.range n).foldl (fun f i => countSymbol f (s.memRead (src + i))) (Vector.replicate 256 0#32)

/-- FREQ_BUILD (R141). -/
def execFreqBuild (s : State) : Host.Outcome State Fault Refusal :=
  finish s
    (match s.checkRange s.srcOperand s.lengthOperand with
    | .error e => .error e
    | .ok () =>
      let f := s.countBytes s.srcOperand s.lengthOperand
      .ok ((s.setFreq f).setRes 0 (BitVec.ofNat 32 (distinctCount f))))

/-- FREQ_READ (R142): `RES0 <- FREQ[SYM]`. -/
def execFreqRead (sym : Byte) (s : State) : Host.Outcome State Fault Refusal :=
  finish s (.ok (s.setRes 0 s.freq[sym.toNat]))

/-- FREQ_WRITE (R143): `FREQ[SYM] <- LARG0`. -/
def execFreqWrite (sym : Byte) (s : State) : Host.Outcome State Fault Refusal :=
  finish s (.ok (s.setFreq (s.freq.set sym.toNat s.countOperand)))

end Sys2Proof.Machine
end

