-- ==== Sys2Proof/Machine/Pq.lean ====
section
/-! DEFINITION. The priority queue commands (spec 41_pq.md R128-R132). -/

namespace Sys2Proof.Machine

/-- PQ_NEW (R128): `POLICY <- P ; SIZE <- 0`. -/
def execPqNew (p : Policy) (s : State) : Host.Outcome State Fault Refusal :=
  finish s (.ok (s.setQueue { policy := p, heap := [] }))

/-- PQ_INSERT (R129): QUEUE_FULL(PQ_CAP, 0) at capacity, else `heap_insert((key, TAG))`. -/
def execPqInsert (tag : Tag) (s : State) : Host.Outcome State Fault Refusal :=
  finish s
    (if Config.pqCap ≤ s.queue.size then
      .error { code := .queueFull, info0 := BitVec.ofNat 32 Config.pqCap, info1 := 0#32 }
    else
      .ok (s.setQueue
        { s.queue with heap := heapInsert s.queue.policy s.queue.heap { key := s.keyOperand, tag := tag } }))

/-- PQ_PEEK (R130): the root, or its absence, in RES0-RES3. -/
def execPqPeek (s : State) : Host.Outcome State Fault Refusal :=
  finish s (.ok { s with res := elemResults s.queue.heap.head? })

/-- PQ_POP (R131): remove the root and put it, or its absence, in RES0-RES3. -/
def execPqPop (s : State) : Host.Outcome State Fault Refusal :=
  finish s
    (match heapPop s.queue.policy s.queue.heap with
    | none => .ok { s with res := elemResults none }
    | some (top, rest) => .ok { s.setQueue { s.queue with heap := rest } with res := elemResults (some top) })

/-- PQ_SIZE (R132): `RES0 <- zext_32(SIZE)`. -/
def execPqSize (s : State) : Host.Outcome State Fault Refusal :=
  finish s (.ok (s.setRes 0 (BitVec.ofNat 32 s.queue.size)))

end Sys2Proof.Machine
end

