-- ==== Sys2Proof/Machine/Dispatch.lean ====
section
/-! DEFINITION. The meaning of each command: one arm per constructor of `Instr`, in the order of the opcode table
(spec 30_encoding.md R84). -/

namespace Sys2Proof.Machine

def exec (i : Instr) (s : State) : Host.Outcome State Fault Refusal :=
  match i with
  | .nop => Sys2Proof.Machine.execNop s
  | .pqNew p => Sys2Proof.Machine.execPqNew p s
  | .pqInsert tag => Sys2Proof.Machine.execPqInsert tag s
  | .pqPeek => Sys2Proof.Machine.execPqPeek s
  | .pqPop => Sys2Proof.Machine.execPqPop s
  | .pqSize => Sys2Proof.Machine.execPqSize s
  | .freqBuild => Sys2Proof.Machine.execFreqBuild s
  | .freqRead sym => Sys2Proof.Machine.execFreqRead sym s
  | .freqWrite sym => Sys2Proof.Machine.execFreqWrite sym s
  | .treeBuild => Sys2Proof.Machine.execTreeBuild s
  | .treeNode h => Sys2Proof.Machine.execTreeNode h s
  | .treeSerialize => Sys2Proof.Machine.execTreeSerialize s
  | .treeLoad => Sys2Proof.Machine.execTreeLoad s
  | .codeDerive => Sys2Proof.Machine.execCodeDerive s
  | .codeRead sym widx => Sys2Proof.Machine.execCodeRead sym widx s
  | .encode => Sys2Proof.Machine.execEncode s
  | .decode => Sys2Proof.Machine.execDecode s

end Sys2Proof.Machine
end

