-- ==== Sys2Proof/Machine/Flags.lean ====
section
/-! DEFINITION. STATUS: the values of its fields, its assembly (spec 10_state.md R27, R33-R37), what a host write clears
(40_host_protocol.md R104), and the interrupt output, which is a function of the state (60_exceptions.md R218). -/

namespace Sys2Proof.Machine

/-- The value of ERRCODE for an error (60_exceptions.md R211). -/
def ErrCode.value : ErrCode → BitVec 8
  | .ok => 0x00#8
  | .illegalCmd => 0x01#8
  | .unknownSymbol => 0x02#8
  | .truncatedStream => 0x03#8
  | .corruptTree => 0x04#8
  | .descMalformed => 0x05#8
  | .noTree => 0x06#8
  | .noCodes => 0x07#8
  | .queueFull => 0x08#8
  | .badAddr => 0x09#8
  | .rangeOverlap => 0x0A#8
  | .bitOverflow => 0x0B#8
  | .badHandle => 0x0C#8

/-- The value of TREE_STATE (R33). -/
def TreeState.value : TreeState → BitVec 2
  | .invalid => 0#2
  | .empty => 1#2
  | .single => 2#2
  | .multi => 3#2

/-- The value of PQ_POLICY (R35). -/
def policyValue : Policy → BitVec 1
  | .min => 0#1
  | .max => 1#1

/-- STATUS as the host reads it (R27): [31:25] 0, PQ_SIZE, PQ_POLICY, CODES_VALID, TREE_STATE, ERRCODE, OVERRUN, ERR, DONE,
BUSY. -/
def State.statusWord (s : State) : Word :=
  0#7 ++ BitVec.ofNat 9 s.queue.size ++ policyValue s.queue.policy ++ BitVec.ofBool s.codes.valid ++ s.tree.state.value ++
    s.status.errCode.value ++ BitVec.ofBool s.status.overrun ++ BitVec.ofBool s.status.err ++ BitVec.ofBool s.status.done ++
    BitVec.ofBool s.status.busy

/-- A host write of STATUS (R104): a 1 in bit 1, 2 or 3 clears DONE, ERR or OVERRUN; every other bit is ignored. -/
def State.writeStatus (s : State) (v : Word) : State :=
  { s with
    status :=
      { s.status with
        done := s.status.done && !v.getLsbD 1
        err := s.status.err && !v.getLsbD 2
        overrun := s.status.overrun && !v.getLsbD 3 } }

/-- A CMD write while BUSY = 1 (R106): OVERRUN <- 1 and nothing else. -/
def State.overrun (s : State) : State := { s with status := { s.status with overrun := true } }

/-- The interrupt output (R218). -/
def State.irq (s : State) : Bool :=
  (s.status.done && s.irqEn.getLsbD 0) || (s.status.err && s.irqEn.getLsbD 1) || (s.status.overrun && s.irqEn.getLsbD 2)

end Sys2Proof.Machine
end

