-- ==== Sys2Proof/Decode.lean ====
section
/-! DEFINITION. The command word: spec 30_encoding.md rules R80-R88. `opcodeTable` is rule R84's table, row for row; decoding
compares the word with every row (R85) and answers none for a word no row selects, which the engine reports as ILLEGAL_CMD
(R86). `encode` is written from the same rows' patterns. -/

namespace Sys2Proof

/-- A policy bit as a policy (R80: 0 Min, 1 Max). -/
def Policy.ofBit : Bool → Policy
  | false => .min
  | true => .max

/-- A policy as its bit (R80: 0 Min, 1 Max). -/
def Policy.bit : Policy → BitVec 1
  | .min => 0#1
  | .max => 1#1

/-- P, word bit 8 (R80). -/
def policyField (w : Word) : Policy := Policy.ofBit (w.getLsbD 8)

/-- TAG, word bits [31:16] (R81). -/
def tagField (w : Word) : Tag := w.extractLsb' 16 16

/-- SYM, word bits [23:16] (R81). -/
def symField (w : Word) : Byte := w.extractLsb' 16 8

/-- HANDLE, word bits [24:16] (R81). -/
def handleField (w : Word) : Handle := w.extractLsb' 16 9

/-- WIDX, word bits [26:24] (R81). -/
def widxField (w : Word) : BitVec 3 := w.extractLsb' 24 3

/-- One row of the opcode table: the bits it fixes, their values, and the command it stands for. -/
structure OpcodeRow where
  mask : Word
  pattern : Word
  build : Word → Instr

/-- A row selects a word iff (word AND mask) = match (R84). -/
def OpcodeRow.selects (r : OpcodeRow) (w : Word) : Bool := w &&& r.mask == r.pattern

/-- The opcode map (R84), in the table's order. -/
def opcodeTable : List OpcodeRow :=
  [ ⟨0xFFFFFFFF#32, 0x00000000#32, fun _ => .nop⟩,
    ⟨0xFFFFFEFF#32, 0x00000001#32, fun w => .pqNew (policyField w)⟩,
    ⟨0x0000FFFF#32, 0x00000002#32, fun w => .pqInsert (tagField w)⟩,
    ⟨0xFFFFFFFF#32, 0x00000003#32, fun _ => .pqPeek⟩,
    ⟨0xFFFFFFFF#32, 0x00000004#32, fun _ => .pqPop⟩,
    ⟨0xFFFFFFFF#32, 0x00000005#32, fun _ => .pqSize⟩,
    ⟨0xFFFFFFFF#32, 0x00000010#32, fun _ => .freqBuild⟩,
    ⟨0xFF00FFFF#32, 0x00000011#32, fun w => .freqRead (symField w)⟩,
    ⟨0xFF00FFFF#32, 0x00000012#32, fun w => .freqWrite (symField w)⟩,
    ⟨0xFFFFFFFF#32, 0x00000020#32, fun _ => .treeBuild⟩,
    ⟨0xFE00FFFF#32, 0x00000021#32, fun w => .treeNode (handleField w)⟩,
    ⟨0xFFFFFFFF#32, 0x00000022#32, fun _ => .treeSerialize⟩,
    ⟨0xFFFFFFFF#32, 0x00000023#32, fun _ => .treeLoad⟩,
    ⟨0xFFFFFFFF#32, 0x00000030#32, fun _ => .codeDerive⟩,
    ⟨0xF800FFFF#32, 0x00000031#32, fun w => .codeRead (symField w) (widxField w)⟩,
    ⟨0xFFFFFFFF#32, 0x00000040#32, fun _ => .encode⟩,
    ⟨0xFFFFFFFF#32, 0x00000041#32, fun _ => .decode⟩ ]

/-- Decoding (R85): the command of the row that selects the word; none is an illegal word (R86). -/
def decode (w : Word) : Option Instr :=
  (opcodeTable.find? (·.selects w)).map (·.build w)

/-- The command word of a command (R84's patterns; R80 and R81 for the fields). -/
def encode : Instr → Word
  | .nop => 0x00000000#32
  | .pqNew p => 0#23 ++ p.bit ++ 0x01#8
  | .pqInsert tag => tag ++ 0x0002#16
  | .pqPeek => 0x00000003#32
  | .pqPop => 0x00000004#32
  | .pqSize => 0x00000005#32
  | .freqBuild => 0x00000010#32
  | .freqRead sym => 0#8 ++ sym ++ 0x0011#16
  | .freqWrite sym => 0#8 ++ sym ++ 0x0012#16
  | .treeBuild => 0x00000020#32
  | .treeNode h => 0#7 ++ h ++ 0x0021#16
  | .treeSerialize => 0x00000022#32
  | .treeLoad => 0x00000023#32
  | .codeDerive => 0x00000030#32
  | .codeRead sym widx => 0#5 ++ widx ++ sym ++ 0x0031#16
  | .encode => 0x00000040#32
  | .decode => 0x00000041#32

/-- The 32-bit command word whose lowest `nbits` bits are `w`'s, the bits above them zero. -/
def tableWord (nbits w : Nat) : Word := BitVec.ofNat 32 (w % 2 ^ nbits)

/-- The command this decoder reads from a table row's word. Every command word is exactly 32 bits (R88), so a longer one is
no command. -/
def decodeTableWord (nbits w : Nat) : Option Instr :=
  if nbits ≤ 32 then decode (tableWord nbits w) else none

end Sys2Proof
end

