-- ==== Sys2Proof/Machine/Reset.lean ====
section
/-! DEFINITION. Reset (spec 70_reset_and_hazards.md R240-R242): the hardware reset input and CTRL.SOFT_RESET have the same
effect. -/

namespace Sys2Proof.Machine

/-- What a command would store if it ran to its end in this state (R241: its write set "under 43_tree.md rule R155 or
45_bitstream.md rules R191-R192"); none if it would fail or writes no DMEM. -/
def State.storeOf (s : State) : Instr → Option Store
  | .nop => none
  | .pqNew _ => none
  | .pqInsert _ => none
  | .pqPeek => none
  | .pqPop => none
  | .pqSize => none
  | .freqBuild => none
  | .freqRead _ => none
  | .freqWrite _ => none
  | .treeBuild => none
  | .treeNode _ => none
  | .treeSerialize => s.serializeStore.toOption
  | .treeLoad => none
  | .codeDerive => none
  | .codeRead _ _ => none
  | .encode => s.encodeStore.toOption.map Prod.snd
  | .decode => s.decodeStore.toOption

/-- What the command in progress, if there is one, would have stored (R241, R28). -/
def State.pendingStore (s : State) : Option Store :=
  if s.status.busy then (decode s.lcmd).bind s.storeOf else none

/-- The write set of an abandoned command with the bytes of one draw: "its old value or any other byte" (R241). -/
def Store.drawn (st : Store) (draw : Nat) : Store :=
  { st with bytes := (List.range st.bytes.length).map fun i => Config.abandonedByte draw (st.base + i) }

/-- DMEM after a reset: as it was (R51, R53), but for the write set of an abandoned command (R241). -/
def State.dmemAfterReset (s : State) : Memory :=
  match s.pendingStore with
  | none => s.dmem
  | some st => s.dmem.putBytes st.base (st.drawn s.draws).bytes

/-- A reset (R240): every piece of the block's state takes its reset value (10_state.md R53); DMEM is not reset; the command
in progress is abandoned. The environment's fields go on. -/
def State.resetBlock (s : State) : State :=
  { State.reset with
    dmem := s.dmemAfterReset
    dmemLast := s.dmemLast
    inputs := s.inputs
    replies := s.replies
    draws := s.draws + 1 }

end Sys2Proof.Machine
end

