-- ==== Sys2Proof/Machine/HostPort.lean ====
section
/-! DEFINITION. What the host can do to the block: register reads and writes (spec 10_state.md R21-R43, 40_host_protocol.md
R101-R108) and DMEM byte accesses (R111). -/

namespace Sys2Proof.Machine

/-- A register of the window (R43). -/
inductive Reg where
  | id
  | ctrl
  | status
  | irqEn
  | cmd
  | arg (n : Fin 4)
  | res (n : Fin 4)
  | errInfo0
  | errInfo1
  | params
  | dmemLast
  /-- An aligned offset inside the window with no register (0x44-0x7C): "reads 0, writes ignored". -/
  | unmapped
  deriving DecidableEq, Repr

/-- The register an access reaches (R43): none where the access has no meaning, because it is not 32 bits wide, not aligned,
or outside the window (R68). -/
def registerAt (off bytes : Nat) : Option Reg :=
  if bytes ≠ 4 then none
  else
    match off with
    | 0x00 => some .id
    | 0x04 => some .ctrl
    | 0x08 => some .status
    | 0x0C => some .irqEn
    | 0x10 => some .cmd
    | 0x14 => some (.arg 0)
    | 0x18 => some (.arg 1)
    | 0x1C => some (.arg 2)
    | 0x20 => some (.arg 3)
    | 0x24 => some (.res 0)
    | 0x28 => some (.res 1)
    | 0x2C => some (.res 2)
    | 0x30 => some (.res 3)
    | 0x34 => some .errInfo0
    | 0x38 => some .errInfo1
    | 0x3C => some .params
    | 0x40 => some .dmemLast
    | o => if o % 4 = 0 ∧ o < 0x80 then some .unmapped else none

/-- ID (R38). -/
def idValue : Word := 0x48554631#32

/-- PARAMS (R41): NODE_CAP in [31:16], PQ_CAP in [15:0]. -/
def paramsValue : Word := BitVec.ofNat 16 Config.nodeCap ++ BitVec.ofNat 16 Config.pqCap

/-- `RegRead` (R101). -/
def State.readReg (s : State) : Reg → Word
  | .id => idValue
  | .ctrl => 0#32
  | .status => s.statusWord
  | .irqEn => s.irqEn.setWidth 32
  | .cmd => s.lastCmd
  | .arg n => s.arg[n]
  | .res n => s.res[n]
  | .errInfo0 => s.errInfo0
  | .errInfo1 => s.errInfo1
  | .params => paramsValue
  | .dmemLast => s.dmemLast
  | .unmapped => 0#32

/-- `RegWrite(CMD, v)` (R105, R106). -/
def State.writeCmd (s : State) (v : Word) : State :=
  if s.status.busy then s.overrun else s.accept v

/-- `RegWrite(CTRL, v)` (R107, R39). -/
def State.writeCtrl (s : State) (v : Word) : State :=
  if v.getLsbD 0 then s.resetBlock else s

/-- `RegWrite` (R102-R108). -/
def State.writeReg (s : State) (v : Word) : Reg → State
  | .id => s
  | .ctrl => s.writeCtrl v
  | .status => s.writeStatus v
  | .irqEn => { s with irqEn := v.extractLsb' 0 3 }
  | .cmd => s.writeCmd v
  | .arg n => { s with arg := s.arg.set n v }
  | .res _ => s
  | .errInfo0 => s
  | .errInfo1 => s
  | .params => s
  | .dmemLast => s
  | .unmapped => s

/-- A host register read: the value goes to the host, nothing else changes (R101). -/
def hostRegRead (off bytes : Nat) (s : State) : Host.Outcome State Fault Refusal :=
  match registerAt off bytes with
  | none => .refused .registerAccessUndefined
  | some r => .next (s.reply (.reg off (s.readReg r)))

/-- A host register write. -/
def hostRegWrite (off bytes : Nat) (v : Word) (s : State) : Host.Outcome State Fault Refusal :=
  match registerAt off bytes with
  | none => .refused .registerAccessUndefined
  | some r => .next (s.writeReg v r)

/-- The checks on a host DMEM access: outside the block there is no such step (R100, R111), and inside it the access races
while BUSY = 1 (20_memory.md R72). -/
def hostDmemAccess (a : Nat) (s t : State) : Host.Outcome State Fault Refusal :=
  if s.dmemBytes ≤ a then .refused .dmemOffsetOutside
  else if s.status.busy then .fault .hostRace
  else .next t

/-- `DmemRead(a)` (R111). -/
def hostDmemRead (a : Nat) (s : State) : Host.Outcome State Fault Refusal :=
  hostDmemAccess a s (s.reply (.byte a (s.memRead a)))

/-- `DmemWrite(a, b)` (R111). -/
def hostDmemWrite (a : Nat) (b : Byte) (s : State) : Host.Outcome State Fault Refusal :=
  hostDmemAccess a s (s.memWrite { base := a, bytes := [b] })

/-- What the environment does after a STATUS read of `wait` (30_encoding.md R90): with BUSY = 0 the loop has ended; with
BUSY = 1 the host reads again, the engine taking its turn first when the schedule says so (notes/assumptions/11.md). -/
def waitInputs (later : Nat) (s : State) : List Input :=
  if s.status.busy then
    match later with
    | 0 => .engine :: .waitIdle 0 :: s.inputs
    | later + 1 => .waitIdle later :: s.inputs
  else s.inputs

/-- One turn of `wait` (R90): a read of STATUS (R101), and again until it shows BUSY = 0. -/
def hostWait (later : Nat) (s : State) : Host.Outcome State Fault Refusal :=
  .next ((s.reply (.reg 0x08 (s.readReg .status))).withInputs (waitInputs later s))

/-- The host's last register read was a STATUS read that showed ERR = 1. -/
def State.sawError (s : State) : Bool :=
  match s.replies with
  | .reg 0x08 v :: _ => v.getLsbD 2
  | _ => false

/-- The host stops "at the first `wait` whose final STATUS read shows ERR = 1" (30_encoding.md R90): it does nothing more. -/
def hostStopOnError (s : State) : Host.Outcome State Fault Refusal :=
  .next (if s.sawError then s.withInputs [] else s)

end Sys2Proof.Machine
end

