-- ==== Sys2Proof/Machine/Engine.lean ====
section
/-! DEFINITION. The steps of the block (spec 40_host_protocol.md R100): the Engine's `Execute` (R109), and whichever step the
environment takes next. -/

namespace Sys2Proof.Machine

/-- `Execute`, decode included (R85, R109). It is enabled iff BUSY = 1; with BUSY = 0 the engine "does nothing until a command
is accepted" (70_reset_and_hazards.md R242). -/
def engineTurn (s : State) : Host.Outcome State Fault Refusal :=
  if s.status.busy then
    match decode s.lcmd with
    | some i => exec i s
    | none => illegalCommand s
  else .next s

/-- The next step (R100). The environment's next input says whose it is; when the host has nothing more to do the engine takes
its turn, so an accepted command is always completed in the end (R251: weak fairness; notes/assumptions/1.md). -/
def takeTurn (s : State) : Host.Outcome State Fault Refusal :=
  match s.inputs with
  | [] => engineTurn s
  | .regRead off bytes :: rest => hostRegRead off bytes (s.withInputs rest)
  | .regWrite off bytes v :: rest => hostRegWrite off bytes v (s.withInputs rest)
  | .dmemRead a :: rest => hostDmemRead a (s.withInputs rest)
  | .dmemWrite a b :: rest => hostDmemWrite a b (s.withInputs rest)
  | .engine :: rest => engineTurn (s.withInputs rest)
  | .reset :: rest => .next (s.withInputs rest).resetBlock
  | .waitIdle later :: rest => hostWait later (s.withInputs rest)
  | .stopOnError :: rest => hostStopOnError (s.withInputs rest)

/-- The state in which the host has just had this command word accepted (R105) and the engine's turn is next. -/
def State.issue (s : State) (w : Word) : State :=
  (s.accept w).withInputs (.engine :: s.inputs)

end Sys2Proof.Machine
end

