-- ==== Sys2Proof/Machine/Step.lean ====
section
/-! DEFINITION. One step of the block with its environment (spec 40_host_protocol.md R100), and how a command word is placed
to be the next one executed. The block has no program counter and fetches nothing from memory (10_state.md R26, 20_memory.md
R77): the word is fetched from LCMD. -/

namespace Sys2Proof.Machine

/-- One step: next state, fault or refusal. -/
def step (s : State) : Host.Outcome State Fault Refusal := takeTurn s

/-- `s` with a command word accepted and the engine's turn next, so that the very next step executes it. It stands for a host
write of CMD (R105; notes/assumptions/9.md). -/
def State.withFetchWord (s : State) (nbits w : Nat) : State := s.issue (tableWord nbits w)

end Sys2Proof.Machine
end

