-- ==== Sys2Proof/Machine/HostProgram.lean ====
section
/-! DEFINITION. Host programs (spec 30_encoding.md R89, R90): the lines of a program and the host steps they stand for. The
engine's turn on a pending command is placed inside the `wait` that follows it; how many of that loop's reads come before it is
the command's latency, which the spec leaves free (70_reset_and_hazards.md R251), so each waiting line carries it as `polls`. -/

namespace Sys2Proof.Machine

/-- The offset of a register (10_state.md R43). `unmapped` stands for the whole of 0x44-0x7C; this is its first offset. -/
def Reg.offset : Reg → Nat
  | .id => 0x00
  | .ctrl => 0x04
  | .status => 0x08
  | .irqEn => 0x0C
  | .cmd => 0x10
  | .arg n => 0x14 + 4 * n.val
  | .res n => 0x24 + 4 * n.val
  | .errInfo0 => 0x34
  | .errInfo1 => 0x38
  | .params => 0x3C
  | .dmemLast => 0x40
  | .unmapped => 0x44

/-- One line of a host program: the operations of R89, then the pseudo-instructions of R90. -/
inductive Line where
  | wr (r : Reg) (v : Word)
  | rd (r : Reg)
  | mw (a : Nat) (bytes : List Byte)
  | mr (a n : Nat)
  | cmd (i : Instr)
  | wait (polls : Nat)
  | run (i : Instr) (polls : Nat)
  | setargs (values : List Word)
  | pqPush (key : Key) (tag : Tag) (polls : Nat)
  | compress (src len ddst bdst : Word) (polls : List Nat)
  | decompress (dsrc dlen bsrc bcount dst : Word) (polls : List Nat)
  deriving DecidableEq, Repr

/-- `wr REG, v` (R89). -/
def lineWr (r : Reg) (v : Word) : List Input := [.regWrite r.offset 4 v]

/-- `rd REG` (R89). -/
def lineRd (r : Reg) : List Input := [.regRead r.offset 4]

/-- `cmd MNEMONIC [fields]` (R89): a write of the command word to CMD. -/
def lineCmd (i : Instr) : List Input := lineWr .cmd (encode i)

/-- `wait` (R90): reads of STATUS until BUSY = 0. A command that is pending gets the engine's turn after `polls` of them; with
BUSY = 0 the first read is the last, whatever `polls` is. -/
def lineWait : (polls : Nat) → List Input
  | 0 => [.engine, .waitIdle 0]
  | polls + 1 => [.waitIdle polls]

/-- `run MNEMONIC [fields]` (R90). -/
def lineRun (i : Instr) (polls : Nat) : List Input := lineCmd i ++ lineWait polls

/-- `setargs a0[, a1[, a2[, a3]]]` (R90). -/
def lineSetargs (values : List Word) : List Input :=
  (List.range 4).flatMap fun n => (values[n]?.map fun v => lineWr (.arg (Fin.ofNat 4 n)) v).getD []

/-- `run` inside `compress` and `decompress` (R90): the host stops at the first error. -/
def lineRunOrStop (i : Instr) (polls : Nat) : List Input := lineRun i polls ++ [.stopOnError]

/-- `compress src, len, ddst, bdst` (R90). -/
def lineCompress (src len ddst bdst : Word) (polls : List Nat) : List Input :=
  lineSetargs [src, len] ++ lineRunOrStop .freqBuild (polls.getD 0 0) ++ lineRunOrStop .treeBuild (polls.getD 1 0) ++
    lineRunOrStop .codeDerive (polls.getD 2 0) ++ lineSetargs [ddst] ++ lineRunOrStop .treeSerialize (polls.getD 3 0) ++
    lineRd (.res 0) ++ lineSetargs [src, len, bdst] ++ lineRunOrStop .encode (polls.getD 4 0) ++ lineRd (.res 0) ++
    lineRd (.res 1)

/-- `decompress dsrc, dlen, bsrc, bcount, dst` (R90). -/
def lineDecompress (dsrc dlen bsrc bcount dst : Word) (polls : List Nat) : List Input :=
  lineSetargs [dsrc, dlen] ++ lineRunOrStop .treeLoad (polls.getD 0 0) ++ lineSetargs [bsrc, bcount, dst] ++
    lineRunOrStop .decode (polls.getD 1 0) ++ lineRd (.res 0)

/-- The host and engine steps a line stands for (R89, R90). -/
def Line.steps : Line → List Input
  | .wr r v => lineWr r v
  | .rd r => lineRd r
  | .mw a bytes => bytes.zipIdx.map fun (b, i) => .dmemWrite (a + i) b
  | .mr a n => (List.range n).map fun i => .dmemRead (a + i)
  | .cmd i => lineCmd i
  | .wait polls => lineWait polls
  | .run i polls => lineRun i polls
  | .setargs values => lineSetargs values
  | .pqPush key tag polls =>
    lineSetargs [key.extractLsb' 0 32, (key.extractLsb' 32 8).setWidth 32] ++ lineRun (.pqInsert tag) polls
  | .compress src len ddst bdst polls => lineCompress src len ddst bdst polls
  | .decompress dsrc dlen bsrc bcount dst polls => lineDecompress dsrc dlen bsrc bcount dst polls

/-- The block with a host program still to be run. -/
def State.withProgram (s : State) (program : List Line) : State := s.withInputs (program.flatMap Line.steps)

end Sys2Proof.Machine
end

