-- ==== Sys2Proof/Safety.lean ====
section
/-! DEFINITION. What counts as a safe run, and the terms the statements use: what a completion leaves unchanged, which bytes
of DMEM an access leaves alone, the invariants the spec states of the block's state, and trees as shapes. -/

namespace Sys2Proof.Machine

/-! ### Runs -/

/-- A run has ended (spec 40_host_protocol.md R112): the host has performed its last operation and BUSY = 0. -/
def State.Finished (s : State) : Prop := s.inputs = [] ∧ s.status.busy = false

/-- The next step is no fault. The one fault is HOST_RACE (20_memory.md R72). -/
def State.SafeStep (s : State) : Prop := ∀ f, step s ≠ .fault f

/-! ### Frames -/

/-- What every successful completion does and leaves alone (R109), apart from RES, FREQ, the queue, the tree, the code table
and DMEM, of which each command's rule says what it writes. -/
structure Completed (s t : State) : Prop where
  status : t.status = { s.status with errCode := .ok, busy := false, done := true }
  errInfo0 : t.errInfo0 = s.errInfo0
  errInfo1 : t.errInfo1 = s.errInfo1
  arg : t.arg = s.arg
  lastCmd : t.lastCmd = s.lastCmd
  lcmd : t.lcmd = s.lcmd
  larg : t.larg = s.larg
  irqEn : t.irqEn = s.irqEn
  dmemLast : t.dmemLast = s.dmemLast
  inputs : t.inputs = s.inputs
  replies : t.replies = s.replies
  draws : t.draws = s.draws

/-- The error completion (60_exceptions.md R213): exactly these writes, nothing else changes. -/
structure Failed (s t : State) (e : Raise) : Prop where
  errInfo0 : t.errInfo0 = e.info0
  errInfo1 : t.errInfo1 = e.info1
  status : t.status = { s.status with errCode := e.code, err := true, busy := false, done := true }
  arg : t.arg = s.arg
  res : t.res = s.res
  lastCmd : t.lastCmd = s.lastCmd
  lcmd : t.lcmd = s.lcmd
  larg : t.larg = s.larg
  irqEn : t.irqEn = s.irqEn
  freq : t.freq = s.freq
  queue : t.queue = s.queue
  tree : t.tree = s.tree
  codes : t.codes = s.codes
  dmem : t.dmem = s.dmem
  dmemLast : t.dmemLast = s.dmemLast
  inputs : t.inputs = s.inputs
  replies : t.replies = s.replies
  draws : t.draws = s.draws

/-- Every byte of DMEM reads as before. -/
def SameBytes (s t : State) : Prop := ∀ a, t.memRead a = s.memRead a

/-- Every byte of DMEM outside [base, base+n) reads as before. -/
def SameBytesOutside (s t : State) (base n : Nat) : Prop :=
  ∀ a, a < base ∨ base + n ≤ a → t.memRead a = s.memRead a

/-- DMEM[base + i] reads as `bytes[i]` for every i. -/
def HoldsBytes (t : State) (base : Nat) (bytes : List Byte) : Prop :=
  ∀ (i : Nat) (h : i < bytes.length), t.memRead (base + i) = bytes[i]

/-- [a, a+n) is a valid range (20_memory.md R62). -/
def State.RangeOk (s : State) (a n : Nat) : Prop := n = 0 ∨ a + n ≤ s.dmemBytes

/-- [a, a+n) and [b, b+m) share no byte (R63). -/
def RangesApart (a n b m : Nat) : Prop := n = 0 ∨ m = 0 ∨ b + m ≤ a ∨ a + n ≤ b

/-- The n bytes at `base`, in order. -/
def State.bytesAt (s : State) (base n : Nat) : List Byte := (List.range n).map fun i => s.memRead (base + i)

/-- A part of the state that a command's rule may write. -/
inductive Part where
  | res (n : Fin 4)
  | freq
  | queue
  | tree
  | codes
  | dmem
  deriving DecidableEq, Repr

/-- A part is as it was. -/
def Keeps (s t : State) : Part → Prop
  | .res n => t.res[n] = s.res[n]
  | .freq => t.freq = s.freq
  | .queue => t.queue = s.queue
  | .tree => t.tree = s.tree
  | .codes => t.codes = s.codes
  | .dmem => SameBytes s t

/-- A successful completion that writes no part outside this list. -/
structure ChangesOnly (s t : State) (parts : List Part) : Prop where
  completed : Completed s t
  others : ∀ p, p ∉ parts → Keeps s t p

/-- The command ends in the error completion of this error (60_exceptions.md R213). -/
def FailsWith (i : Instr) (s : State) (code : ErrCode) (info0 info1 : Word) : Prop :=
  ∃ t, exec i s = .next t ∧ Failed s t { code := code, info0 := info0, info1 := info1 }

/-- The state with these words latched in LARG0-LARG2, as a host that wrote them to ARG0-ARG2 has them latched when its command
is accepted (40_host_protocol.md R105). -/
def State.withArgs (s : State) (a₀ a₁ a₂ : Word) : State := { s with larg := #v[a₀, a₁, a₂, s.larg[3]] }

/-! ### Trees as shapes -/

/-- The shape of a tree with its leaf symbols: what a descriptor stands for (43_tree.md R154). -/
inductive Shape where
  | leaf (sym : Byte)
  | node (l r : Shape)
  deriving DecidableEq, Repr

/-- `desc` (R154). -/
def Shape.descriptor : Shape → List Byte
  | .leaf sym => [0x01#8, sym]
  | .node l r => 0x00#8 :: (l.descriptor ++ r.descriptor)

/-- The leaf symbols, left to right. -/
def Shape.symbols : Shape → List Byte
  | .leaf sym => [sym]
  | .node l r => l.symbols ++ r.symbols

/-- The path from the root to each leaf: 0 on descending left, 1 on descending right (00_scope.md R11, 44_code.md R181). -/
def Shape.paths : Shape → List (Byte × List Bool)
  | .leaf sym => [(sym, [])]
  | .node l r => (l.paths.map fun p => (p.1, false :: p.2)) ++ (r.paths.map fun p => (p.1, true :: p.2))

/-- The codes of a tree (R181): the paths, but "0" for a lone leaf. -/
def Shape.codes : Shape → List (Byte × List Bool)
  | .leaf sym => [(sym, [false])]
  | .node l r => (Shape.node l r).paths

/-- Following children from a handle gives this shape, visiting these handles in pre-order. -/
def Spans (nodes : List Node) : Shape → Handle → List Nat → Prop
  | .leaf sym, h, hs => hs = [h.toNat] ∧ ∃ n, nodes[h.toNat]? = some n ∧ n.kind = .leaf ∧ n.sym = sym
  | .node l r, h, hs =>
    ∃ n ls rs, nodes[h.toNat]? = some n ∧ n.kind = .internal ∧ hs = h.toNat :: (ls ++ rs) ∧
      Spans nodes l n.left ls ∧ Spans nodes r n.right rs

/-- The tree has this shape; `none` is the EMPTY tree. -/
def Tree.HasShape (t : Tree) : Option Shape → Prop
  | none => t.state = .empty
  | some (.leaf sym) => t.state = .single ∧ ∃ hs, Spans t.nodes (.leaf sym) t.root hs
  | some (.node l r) => t.state = .multi ∧ ∃ hs, Spans t.nodes (.node l r) t.root hs

/-- The handles of a record's children: none for a leaf. -/
def Node.children (n : Node) : List Nat :=
  match n.kind with
  | .leaf => []
  | .internal => [n.left.toNat, n.right.toNat]

/-- The record at handle `a` has `b` as a child: one step of following children (10_state.md R48). -/
def ChildOf (nodes : List Node) (a b : Nat) : Prop := ∃ n, nodes[a]? = some n ∧ b ∈ n.children

/-- The symbols of the leaves of an arena, by handle. -/
def leafSymbols (nodes : List Node) : List Byte := (nodes.filter fun n => n.kind = .leaf).map Node.sym

/-! ### Invariants -/

/-- DMEM is in its canonical form, inside the block. -/
def State.MemoryOk (s : State) : Prop := Memory.wf s.dmemBytes s.dmem = true

/-- While a command runs, DONE, ERR and ERRCODE are as its acceptance left them (10_state.md R28-R32); an ERR of 1 comes with
an error code (R30, R32). -/
def State.StatusOk (s : State) : Prop :=
  (s.status.busy = true → s.status.done = false ∧ s.status.err = false ∧ s.status.errCode = .ok) ∧
    (s.status.err = true → s.status.errCode ≠ .ok)

/-- The heap invariant (41_pq.md R123). -/
def HeapOrdered (p : Policy) (h : List Elem) : Prop :=
  ∀ (i : Nat) (hi : i < h.length), 0 < i → prefers p h[i] (h[(i - 1) / 2]'(by omega)) = false

/-- The queue holds at most PQ_CAP elements (10_state.md R45) in heap order (R123). -/
def State.QueueOk (s : State) : Prop :=
  s.queue.size ≤ Config.pqCap ∧ HeapOrdered s.queue.policy s.queue.heap

/-- A record is as 10_state.md R46 says: a leaf's children are NIL, an internal node's SYM is 0. -/
def Node.Ok (n : Node) : Prop :=
  match n.kind with
  | .leaf => n.left = Config.nil ∧ n.right = Config.nil
  | .internal => n.sym = 0#8

/-- A strict binary tree (10_state.md R48): following children from the root visits every handle below NODE_COUNT exactly once
(so no node is shared, none returns to itself, none is out of range, and none is left out), and no two leaves hold one symbol. -/
def StrictTree (nodes : List Node) (root : Handle) : Prop :=
  ∃ sh hs, Spans nodes sh root hs ∧ hs.Perm (List.range nodes.length) ∧ sh.symbols.Nodup

/-- The tree is as 10_state.md R46-R48 say, for each TREE_STATE. -/
def Tree.Ok (t : Tree) : Prop :=
  t.nodeCount ≤ Config.nodeCap ∧ (∀ n ∈ t.nodes, n.Ok) ∧
    match t.state with
    | .invalid => t.nodes = [] ∧ t.root = Config.nil
    | .empty => t.nodes = [] ∧ t.root = Config.nil
    | .single => StrictTree t.nodes t.root ∧ t.root = 0#9 ∧ ∃ n, t.nodes = [n] ∧ n.kind = .leaf
    | .multi => StrictTree t.nodes t.root ∧ ∃ n, t.node? t.root = some n ∧ n.kind = .internal

/-- When CODES_VALID = 1 the code table is the one derived from the current tree (10_state.md R34). -/
def State.CodesOk (s : State) : Prop :=
  s.codes.valid = true → s.tree.state ≠ .invalid ∧ s.codes = deriveCodes s.tree

/-- The invariants together. -/
structure State.Inv (s : State) : Prop where
  memory : s.MemoryOk
  status : s.StatusOk
  queue : s.QueueOk
  tree : s.tree.Ok
  codes : s.CodesOk

/-! ### The spec's loops, as relations -/

/-- `prefers(a, b)` (41_pq.md R121). -/
def Better : Policy → Elem → Elem → Prop
  | .min, a, b => a.key.toNat < b.key.toNat
  | .max, a, b => b.key.toNat < a.key.toNat

/-- `percolate_up(i)` takes the first heap to the second (R124). -/
inductive PercolatesUp (p : Policy) : Nat → List Elem → List Elem → Prop where
  | root (h : List Elem) : PercolatesUp p 0 h h
  | stop {i : Nat} {h : List Elem} {a b : Elem} (i0 : 0 < i) (ha : h[i]? = some a) (hb : h[(i - 1) / 2]? = some b)
      (hn : ¬Better p a b) : PercolatesUp p i h h
  | swap {i : Nat} {h h' : List Elem} {a b : Elem} (i0 : 0 < i) (ha : h[i]? = some a) (hb : h[(i - 1) / 2]? = some b)
      (hp : Better p a b) (next : PercolatesUp p ((i - 1) / 2) ((h.set i b).set ((i - 1) / 2) a) h') :
      PercolatesUp p i h h'

/-- The child c, holding e, that percolate-down compares with slot i (R125, D6). -/
inductive ChosenChild (p : Policy) (h : List Elem) (i : Nat) : Nat → Elem → Prop where
  | onlyLeft {l : Elem} (hl : h[2 * i + 1]? = some l) (hr : h[2 * i + 2]? = none) : ChosenChild p h i (2 * i + 1) l
  | right {l r : Elem} (hl : h[2 * i + 1]? = some l) (hr : h[2 * i + 2]? = some r) (hp : Better p r l) :
      ChosenChild p h i (2 * i + 2) r
  | left {l r : Elem} (hl : h[2 * i + 1]? = some l) (hr : h[2 * i + 2]? = some r) (hn : ¬Better p r l) :
      ChosenChild p h i (2 * i + 1) l

/-- `percolate_down(i)` takes the first heap to the second (R125). -/
inductive PercolatesDown (p : Policy) : Nat → List Elem → List Elem → Prop where
  | leaf {i : Nat} {h : List Elem} (hl : h[2 * i + 1]? = none) : PercolatesDown p i h h
  | stop {i c : Nat} {h : List Elem} {a e : Elem} (hc : ChosenChild p h i c e) (ha : h[i]? = some a)
      (hn : ¬Better p e a) : PercolatesDown p i h h
  | swap {i c : Nat} {h h' : List Elem} {a e : Elem} (hc : ChosenChild p h i c e) (ha : h[i]? = some a)
      (hp : Better p e a) (next : PercolatesDown p c ((h.set i e).set c a) h') : PercolatesDown p i h h'

/-- `heap_pop` takes the first heap to the second and returns `top` (R127). -/
inductive Pops (p : Policy) : List Elem → Elem → List Elem → Prop where
  | one (top : Elem) : Pops p [top] top []
  | more {top last : Elem} {init h' : List Elem} (down : PercolatesDown p 0 (last :: init) h') :
      Pops p (top :: (init ++ [last])) top h'

/-- `heap_insert(e)` takes the first heap to the second (R126). -/
def Inserts (p : Policy) (h : List Elem) (e : Elem) (h' : List Elem) : Prop := PercolatesUp p h.length (h ++ [e]) h'

/-- The inserts that start TREE_BUILD, leaf j with tag j (43_tree.md R151), from leaf j on. -/
inductive InsertsLeaves : Nat → List Node → List Elem → List Elem → Prop where
  | done (j : Nat) (h : List Elem) : InsertsLeaves j [] h h
  | leaf {j : Nat} {n : Node} {ns : List Node} {h h₁ h' : List Elem}
      (ins : Inserts .min h { key := n.weight, tag := BitVec.ofNat 16 j } h₁) (next : InsertsLeaves (j + 1) ns h₁ h') :
      InsertsLeaves j (n :: ns) h h'

/-- `while SIZE > 1` of TREE_BUILD (R151) takes the first arena and heap to the second. -/
inductive PairsUp : List Node → List Elem → List Node → List Elem → Prop where
  | done {nodes : List Node} {h : List Elem} (one : h.length ≤ 1) : PairsUp nodes h nodes h
  | turn {nodes nodes' : List Node} {h h₁ h₂ h₃ h' : List Elem} {l r : Elem} (more : 1 < h.length)
      (popl : Pops .min h l h₁) (popr : Pops .min h₁ r h₂)
      (ins : Inserts .min h₂ { key := l.key + r.key, tag := BitVec.ofNat 16 nodes.length } h₃)
      (next : PairsUp
        (nodes ++
          [{ kind := .internal, sym := 0#8, left := l.tag.setWidth 9, right := r.tag.setWidth 9, weight := l.key + r.key }])
        h₃ nodes' h') :
      PairsUp nodes h nodes' h'

/-- PQ_POP executed again and again, with the result registers each time. -/
inductive PopRun : State → List (Vector Word 4) → State → Prop where
  | done (s : State) : PopRun s [] s
  | pop {s t u : State} {l : List (Vector Word 4)} (run : exec .pqPop s = .next t) (next : PopRun t l u) :
      PopRun s (t.res :: l) u

/-- The key and tag that RES0-RES2 show (R131), as numbers. -/
def shownElem (res : Vector Word 4) : Nat × Nat := (res[1].toNat * 2 ^ 32 + res[0].toNat, res[2].toNat)

/-- A key that does not come before another under the policy. -/
def NotBefore : Policy → Nat × Nat → Nat × Nat → Prop
  | .min, a, b => a.1 ≤ b.1
  | .max, a, b => b.1 ≤ a.1

/-- The first failing check of a descriptor of m bytes read left to right: its offset and sub-code (R156, R216). `need` is how
many subtrees are still to come, `count` the nodes so far. Each turn but the last makes a node, so NODE_CAP + 2 turns are
enough. -/
def descriptorFault (d : Nat → Byte) (m : Nat) : (turns need pos count : Nat) → (seen : List Byte) → Option (Nat × Nat)
  | 0, _, _, _, _ => none
  | turns + 1, need, pos, count, seen =>
    if need = 0 then (if pos < m then some (pos, 4) else none)
    else if m ≤ pos then some (pos, 1)
    else if count = Config.nodeCap then some (pos, 5)
    else if d pos = 0x00#8 then descriptorFault d m turns (need + 1) (pos + 1) (count + 1) seen
    else if d pos = 0x01#8 then
      if m ≤ pos + 1 then some (pos + 1, 1)
      else if d (pos + 1) ∈ seen then some (pos + 1, 3)
      else descriptorFault d m turns (need - 1) (pos + 2) (count + 1) (d (pos + 1) :: seen)
    else some (pos, 2)

/-! ### Codes and streams -/

/-- The table holds this bit string for a symbol, the empty one for a symbol without a code (10_state.md R49). -/
def CodeTable.Has (c : CodeTable) (sym : Byte) (bits : List Bool) : Prop :=
  bits.length = c.len[sym.toNat].toNat ∧
    ∀ (j : Nat) (h : j < bits.length), bits[j] = c.val[sym.toNat].getLsbD (255 - j)

/-- A bit string stored at `base` (45_bitstream.md R190): S_k is bit 7 - (k mod 8) of byte base + (k div 8). -/
def HoldsBits (s : State) (base : Nat) (bits : List Bool) : Prop :=
  ∀ (k : Nat) (h : k < bits.length), (s.memRead (base + k / 8)).getLsbD (7 - k % 8) = bits[k]

end Sys2Proof.Machine
end

