-- ==== Sys2Proof/Certificates/Slice0/Obligations.lean ====
section
/-! DEFINITION. The statements for the provers, in the order of spec/. Each docstring names the rules it formalises; where a
clause is the model's own choice it names the log entry. -/

open Sys2Proof Sys2Proof.Machine

/-! ### Encoding (30_encoding.md) -/

/-- R84, R85: decoding the word of a command gives the command back, with every field at every value it can take. -/
def Obligations.DecodeEncode : Prop := ∀ i : Instr, decode (encode i) = some i

/-- R84, R88: one word for one command. A word that decodes is the word of the command it decodes to. -/
def Obligations.DecodedWordIsEncoding : Prop := ∀ (w : Word) (i : Instr), decode w = some i → encode i = w

/-- R85: "at most one row selects any word". -/
def Obligations.OneRowSelects : Prop :=
  ∀ (w : Word) (j k : Fin opcodeTable.length), opcodeTable[j].selects w = true → opcodeTable[k].selects w = true → j = k

/-- R86: the illegal words are those with an OPC outside R84, with P = 1 and OPC other than 0x01, with a reserved bit, or with
an IMM16 bit that the command's row does not free. -/
def Obligations.IllegalWords : Prop :=
  ∀ w : Word,
    let opc := w.extractLsb' 0 8
    decode w = none ↔
      opc ∉ [0x00#8, 0x01#8, 0x02#8, 0x03#8, 0x04#8, 0x05#8, 0x10#8, 0x11#8, 0x12#8, 0x20#8, 0x21#8, 0x22#8, 0x23#8, 0x30#8,
          0x31#8, 0x40#8, 0x41#8] ∨
        (w.getLsbD 8 = true ∧ opc ≠ 0x01#8) ∨ w.extractLsb' 9 7 ≠ 0#7 ∨
        ∃ b, 16 ≤ b ∧ b < 32 ∧ w.getLsbD b = true ∧
          ¬(opc = 0x02#8 ∨ ((opc = 0x11#8 ∨ opc = 0x12#8) ∧ b < 24) ∨ (opc = 0x21#8 ∧ b < 25) ∨ (opc = 0x31#8 ∧ b < 27))

/-- R84, 95_test_vectors.md section 2.1 (X1-X15): words written out from the patterns. -/
def Obligations.PatternWords : Prop :=
  decode 0b00000000000000000000000000000000#32 = some .nop ∧
    decode 0b00000000000000000000000100000001#32 = some (.pqNew .max) ∧
    decode 0b11111111111111110000000000000010#32 = some (.pqInsert 0xFFFF#16) ∧
    decode 0b00000000111111110000000000010001#32 = some (.freqRead 0xFF#8) ∧
    decode 0b00000001111111110000000000100001#32 = some (.treeNode 0x1FF#9) ∧
    decode 0b00000111111111110000000000110001#32 = some (.codeRead 0xFF#8 7#3) ∧
    decode 0b00000000000000000000000001000001#32 = some .decode ∧
    decode 0x00000006#32 = none ∧ decode 0x000000FF#32 = none ∧ decode 0x00000104#32 = none ∧
    decode 0x00000200#32 = none ∧ decode 0x00010003#32 = none ∧ decode 0x01000011#32 = none ∧
    decode 0x02000021#32 = none ∧ decode 0x08000031#32 = none ∧ decode 0x00008002#32 = none ∧
    decode 0xFFFFFFFF#32 = none

/-! ### Steps (40_host_protocol.md) -/

/-- R85, R109: the engine's turn executes the command that the latched word decodes to, on the state as it is; R86, R212, R213:
a latched word that no row selects ends there in ILLEGAL_CMD(LCMD, 0) and changes nothing else. The turn comes when the environment
schedules it or when it has nothing else to do (notes/assumptions/1.md, the model's choice). -/
def Obligations.StepRunsLatchedCommand : Prop :=
  ∀ s : State, s.status.busy = true →
    (∀ i, decode s.lcmd = some i →
      (s.inputs = [] → step s = exec i s) ∧
        ∀ rest, s.inputs = .engine :: rest → step s = exec i { s with inputs := rest }) ∧
      (decode s.lcmd = none →
        (s.inputs = [] → ∃ t, step s = .next t ∧ Failed s t { code := .illegalCmd, info0 := s.lcmd, info1 := 0#32 }) ∧
          ∀ rest, s.inputs = .engine :: rest →
            ∃ t, step s = .next t ∧
              Failed { s with inputs := rest } t { code := .illegalCmd, info0 := s.lcmd, info1 := 0#32 })

/-- How a command word is placed (notes/assumptions/9.md): the step after `withFetchWord` executes the word, from the state that
the acceptance of R105 leaves. -/
def Obligations.PlacedWordRunsNext : Prop :=
  ∀ (s : State) (nbits w : Nat) (i : Instr), decodeTableWord nbits w = some i →
    step (s.withFetchWord nbits w) = exec i (s.accept (tableWord nbits w))

/-- R28, R251: an accepted command whose turn it is completes: BUSY falls and DONE rises. R100, R242: with BUSY = 0 the engine
does nothing. The engine's turn comes when the environment schedules it, which uses the entry up, or when the environment has
nothing else to do (notes/assumptions/1.md, the model's choice). -/
def Obligations.AcceptedCommandCompletes : Prop :=
  ∀ s : State,
    (s.inputs = [] →
      (s.status.busy = true → ∃ t, step s = .next t ∧ t.status.busy = false ∧ t.status.done = true ∧ t.inputs = []) ∧
        (s.status.busy = false → step s = .next s)) ∧
      ∀ rest, s.inputs = .engine :: rest →
        (s.status.busy = true → ∃ t, step s = .next t ∧ t.status.busy = false ∧ t.status.done = true ∧ t.inputs = rest) ∧
          (s.status.busy = false → step s = .next { s with inputs := rest })

/-- R13, R109, R213: every command ends at once, in the success completion or in the error completion with an error code. -/
def Obligations.EveryCommandCompletes : Prop :=
  ∀ (i : Instr) (s : State),
    ∃ t, exec i s = .next t ∧ (Completed s t ∨ ∃ e : Raise, e.code ≠ .ok ∧ Failed s t e)

/-- R22, R33, R34, R44, R45, R61: which commands write which part of the state. -/
def Obligations.OnlyTheseCommandsWrite : Prop :=
  ∀ (i : Instr) (s t : State), exec i s = .next t →
    ((∀ b, i ≠ .freqWrite b) → i ≠ .freqBuild → t.freq = s.freq) ∧
      ((∀ p, i ≠ .pqNew p) → (∀ tag, i ≠ .pqInsert tag) → i ≠ .pqPop → i ≠ .treeBuild → t.queue = s.queue) ∧
      (i ≠ .treeBuild → i ≠ .treeLoad → t.tree = s.tree ∧ (i ≠ .codeDerive → t.codes = s.codes)) ∧
      (i ≠ .treeSerialize → i ≠ .encode → i ≠ .decode → SameBytes s t) ∧
      (t.status.errCode ≠ .ok → t.res = s.res)

/-- R33: only a successful TREE_BUILD or TREE_LOAD and a reset change TREE_STATE. -/
def Obligations.OnlyTheseChangeTreeState : Prop :=
  ∀ s t : State, step s = .next t → t.tree.state ≠ s.tree.state →
    (∃ rest, s.inputs = .reset :: rest) ∨
      (∃ v rest, s.inputs = .regWrite 0x04 4 v :: rest ∧ v.getLsbD 0 = true) ∨
      ((s.inputs = [] ∨ ∃ rest, s.inputs = .engine :: rest) ∧ s.status.busy = true ∧ t.status.errCode = .ok ∧
        (decode s.lcmd = some .treeBuild ∨ decode s.lcmd = some .treeLoad))

/-- R31: OVERRUN is set only by a CMD write while BUSY = 1, and cleared only by a host write of 1 to STATUS bit 3 or a
reset. -/
def Obligations.OverrunIsSticky : Prop :=
  ∀ s t : State, step s = .next t →
    (s.status.overrun = false → t.status.overrun = true →
        s.status.busy = true ∧ ∃ v rest, s.inputs = .regWrite 0x10 4 v :: rest) ∧
      (s.status.overrun = true → t.status.overrun = false →
        (∃ v rest, s.inputs = .regWrite 0x08 4 v :: rest ∧ v.getLsbD 3 = true) ∨ (∃ rest, s.inputs = .reset :: rest) ∨
          ∃ v rest, s.inputs = .regWrite 0x04 4 v :: rest ∧ v.getLsbD 0 = true)

/-- R28: BUSY is set by the acceptance of a command and cleared by its completion, or by a reset (R240). -/
def Obligations.BusyFollowsLifecycle : Prop :=
  ∀ s t : State, step s = .next t →
    (s.status.busy = false → t.status.busy = true →
        ∃ v rest, s.inputs = .regWrite 0x10 4 v :: rest ∧ t.lcmd = v ∧ t.larg = s.arg) ∧
      (s.status.busy = true → t.status.busy = false →
        ((s.inputs = [] ∨ ∃ rest, s.inputs = .engine :: rest) ∧ t.status.done = true) ∨
          (∃ rest, s.inputs = .reset :: rest) ∨ ∃ v rest, s.inputs = .regWrite 0x04 4 v :: rest ∧ v.getLsbD 0 = true)

/-- R25, R77, R102, R246: no host step but a reset disturbs the command in progress or the state it works on. -/
def Obligations.RunningCommandUndisturbed : Prop :=
  ∀ (s t : State) (x : Input) (rest : List Input), s.status.busy = true → s.inputs = x :: rest → x ≠ .engine → x ≠ .reset →
    (∀ v, x = .regWrite 0x04 4 v → v.getLsbD 0 = false) → step s = .next t →
    t.status.busy = true ∧ t.lcmd = s.lcmd ∧ t.larg = s.larg ∧ t.lastCmd = s.lastCmd ∧ t.res = s.res ∧
      t.errInfo0 = s.errInfo0 ∧ t.errInfo1 = s.errInfo1 ∧ t.freq = s.freq ∧ t.queue = s.queue ∧ t.tree = s.tree ∧
      t.codes = s.codes ∧ SameBytes s t

/-! ### Host accesses -/

/-- R101, R43, R20: what every register of the window reads as; a read changes nothing. -/
def Obligations.RegisterReads : Prop :=
  ∀ (s : State) (rest : List Input) (off : Nat),
    let readsAs (v : Word) : Prop :=
      s.inputs = .regRead off 4 :: rest → step s = .next { s with inputs := rest, replies := .reg off v :: s.replies }
    (off = 0x00 → readsAs 0x48554631#32) ∧ (off = 0x04 → readsAs 0#32) ∧ (off = 0x08 → readsAs s.statusWord) ∧
      (off = 0x0C → readsAs (s.irqEn.setWidth 32)) ∧ (off = 0x10 → readsAs s.lastCmd) ∧
      (∀ n : Fin 4, off = 0x14 + 4 * n.val → readsAs s.arg[n]) ∧ (∀ n : Fin 4, off = 0x24 + 4 * n.val → readsAs s.res[n]) ∧
      (off = 0x34 → readsAs s.errInfo0) ∧ (off = 0x38 → readsAs s.errInfo1) ∧ (off = 0x3C → readsAs 0x01FF0100#32) ∧
      (off = 0x40 → readsAs (BitVec.ofNat 32 (s.dmemBytes - 1))) ∧
      (0x44 ≤ off → off < 0x80 → off % 4 = 0 → readsAs 0#32)

/-- R27, R33, R35, R36, R37: the fields of STATUS at their places, as a sum of their values; and R211: the error codes. -/
def Obligations.StatusLayout : Prop :=
  (∀ s : State, s.queue.size ≤ 256 →
      s.statusWord.toNat =
        s.status.busy.toNat + 2 * s.status.done.toNat + 4 * s.status.err.toNat + 8 * s.status.overrun.toNat +
          16 * s.status.errCode.value.toNat +
          4096 * (match s.tree.state with | .invalid => 0 | .empty => 1 | .single => 2 | .multi => 3) +
          16384 * s.codes.valid.toNat + 32768 * (match s.queue.policy with | .min => 0 | .max => 1) +
          65536 * s.queue.size) ∧
    [ErrCode.ok, .illegalCmd, .unknownSymbol, .truncatedStream, .corruptTree, .descMalformed, .noTree, .noCodes, .queueFull,
        .badAddr, .rangeOverlap, .bitOverflow, .badHandle].map (fun c => c.value.toNat) =
      List.range 13

/-- R102, R103: a write of ARGn sets it, whether or not BUSY = 1, and nothing else; a write of IRQ_EN sets its bits [2:0] and
nothing else. -/
def Obligations.ArgAndIrqEnWrite : Prop :=
  ∀ (s : State) (v : Word) (rest : List Input),
    (∀ n : Fin 4, s.inputs = .regWrite (0x14 + 4 * n.val) 4 v :: rest →
      ∃ t, step s = .next t ∧ t.arg[n] = v ∧ (∀ m : Fin 4, m ≠ n → t.arg[m] = s.arg[m]) ∧
        t = { s with inputs := rest, arg := t.arg }) ∧
      (s.inputs = .regWrite 0x0C 4 v :: rest →
        ∃ t, step s = .next t ∧ (∀ b : Nat, t.irqEn.getLsbD b = (decide (b < 3) && v.getLsbD b)) ∧
          t = { s with inputs := rest, irqEn := t.irqEn })

/-- R104: a write of STATUS clears DONE, ERR and OVERRUN where bits 1, 2 and 3 are 1, and does nothing else. -/
def Obligations.StatusWrite : Prop :=
  ∀ (s : State) (v : Word) (rest : List Input), s.inputs = .regWrite 0x08 4 v :: rest →
    step s =
      .next
        { s with
          inputs := rest
          status :=
            { s.status with
              done := if v.getLsbD 1 then false else s.status.done
              err := if v.getLsbD 2 then false else s.status.err
              overrun := if v.getLsbD 3 then false else s.status.overrun } }

/-- R105, R106: with BUSY = 0 a CMD write accepts the word, whatever it is, and latches the arguments; with BUSY = 1 it is
discarded: OVERRUN <- 1 and nothing else changes. -/
def Obligations.CmdWrite : Prop :=
  ∀ (s : State) (v : Word) (rest : List Input), s.inputs = .regWrite 0x10 4 v :: rest →
    (s.status.busy = false →
      step s =
        .next
          { s with
            inputs := rest
            lastCmd := v
            lcmd := v
            larg := s.arg
            status := { busy := true, done := false, err := false, overrun := s.status.overrun, errCode := .ok } }) ∧
      (s.status.busy = true → step s = .next { s with inputs := rest, status := { s.status with overrun := true } })

/-- R107, R108: a write of CTRL with bit 0 clear, and a write of a read-only register or an unmapped offset, do nothing. -/
def Obligations.IgnoredWrites : Prop :=
  ∀ (s : State) (off : Nat) (v : Word) (rest : List Input), s.inputs = .regWrite off 4 v :: rest →
    (off = 0x04 ∧ v.getLsbD 0 = false) ∨ off = 0x00 ∨ (0x24 ≤ off ∧ off < 0x80 ∧ off % 4 = 0) →
    step s = .next { s with inputs := rest }

/-- R68: a register access that is not 32 bits wide, not aligned or outside the window has no meaning; every other one has. -/
def Obligations.RegisterAccessRefused : Prop :=
  ∀ (s : State) (off bytes : Nat) (v : Word) (rest : List Input) (x : Input),
    x = .regRead off bytes ∨ x = .regWrite off bytes v → s.inputs = x :: rest →
    (¬(bytes = 4 ∧ off % 4 = 0 ∧ off < 0x80) → step s = .refused .registerAccessUndefined) ∧
      (bytes = 4 ∧ off % 4 = 0 ∧ off < 0x80 → ∃ t, step s = .next t)

/-- R72, R217: HOST_RACE is the only fault, raised by a host DMEM access while BUSY = 1 and by nothing else. R72, R100, R111: inside
DMEM with BUSY = 0 a read returns the byte and a write sets it; with BUSY = 1 they race; outside DMEM they have no meaning. (That an
access outside DMEM is refused whatever BUSY is, is the model's reading of R100: notes/assumptions/8.md.) -/
def Obligations.HostDmemAccess : Prop :=
  (∀ (s : State) (f : Fault), step s = .fault f →
      f = .hostRace ∧ s.status.busy = true ∧
        ∃ a rest, a < s.dmemBytes ∧ (s.inputs = .dmemRead a :: rest ∨ ∃ b, s.inputs = .dmemWrite a b :: rest)) ∧
  ∀ (s : State) (a : Nat) (b : Byte) (rest : List Input),
    (a < s.dmemBytes → s.status.busy = false →
      (s.inputs = .dmemRead a :: rest →
        step s = .next { s with inputs := rest, replies := .byte a (s.memRead a) :: s.replies }) ∧
      (s.inputs = .dmemWrite a b :: rest →
        ∃ t, step s = .next t ∧ t.memRead a = b ∧ SameBytesOutside s t a 1 ∧
          t = { s with inputs := rest, dmem := t.dmem })) ∧
      (a < s.dmemBytes → s.status.busy = true →
        s.inputs = .dmemRead a :: rest ∨ s.inputs = .dmemWrite a b :: rest → step s = .fault .hostRace) ∧
      (s.dmemBytes ≤ a → s.inputs = .dmemRead a :: rest ∨ s.inputs = .dmemWrite a b :: rest →
        step s = .refused .dmemOffsetOutside)

/-- R218: the interrupt output, from STATUS bits 1-3 and IRQ_EN bits 0-2. -/
def Obligations.InterruptOutput : Prop :=
  ∀ s : State,
    s.irq = true ↔
      (s.status.done = true ∧ s.irqEn.getLsbD 0 = true) ∨ (s.status.err = true ∧ s.irqEn.getLsbD 1 = true) ∨
        (s.status.overrun = true ∧ s.irqEn.getLsbD 2 = true)

/-! ### Reset (70_reset_and_hazards.md, 10_state.md R53) -/

/-- R53, R107, R240: every state that the reset input, or a CTRL write with bit 0 set, leaves has the values of R53. The rows the spec leaves unspecified (HEAP, NODE, LEN, VAL,
DMEM at power-on) are not in it. -/
def Obligations.ResetValues : Prop :=
  ∀ t : State,
    (t = State.reset ∨
        ∃ s rest, step s = .next t ∧
          (s.inputs = Input.reset :: rest ∨ ∃ v : Word, v.getLsbD 0 = true ∧ s.inputs = Input.regWrite 0x04 4 v :: rest)) →
    (∀ n : Fin 4, t.arg[n] = 0#32 ∧ t.res[n] = 0#32 ∧ t.larg[n] = 0#32) ∧ t.errInfo0 = 0#32 ∧ t.errInfo1 = 0#32 ∧
      t.lastCmd = 0#32 ∧ t.lcmd = 0#32 ∧ t.statusWord = 0#32 ∧ t.status.errCode = .ok ∧ t.irqEn = 0#3 ∧
      (∀ sym : Byte, t.freq[sym.toNat] = 0#32) ∧ t.queue.policy = .min ∧ t.queue.size = 0 ∧ t.tree.nodeCount = 0 ∧
      t.tree.root = 0x1FF#9 ∧ t.tree.state = .invalid ∧ t.codes.valid = false ∧ t.irq = false

/-- R51, R53, R240, R241: a reset, by the input or by a CTRL write with bit 0 set, keeps every byte of DMEM but those the abandoned command would have written; what happens to these
is not said. The environment's own fields go on (notes/assumptions/14.md, the model's choice). -/
def Obligations.ResetKeepsDmem : Prop :=
  ∀ (s : State) (rest : List Input),
    (s.inputs = .reset :: rest ∨ ∃ v : Word, v.getLsbD 0 = true ∧ s.inputs = .regWrite 0x04 4 v :: rest) →
    ∃ t, step s = .next t ∧ t.inputs = rest ∧ t.replies = s.replies ∧ t.dmemLast = s.dmemLast ∧
      (s.status.busy = false → SameBytes s t) ∧
      (s.status.busy = true →
        (decode s.lcmd = none → SameBytes s t) ∧
          ∀ i, decode s.lcmd = some i →
            (s.storeOf i = none → SameBytes s t) ∧
              ∀ st, s.storeOf i = some st → SameBytesOutside s t st.base st.bytes.length)

/-- R241: what `storeOf` gives as a command's write set is what the command stores when it completes. -/
def Obligations.WriteSetIsWhatIsStored : Prop :=
  ∀ (i : Instr) (s : State),
    (∀ st, s.storeOf i = some st →
      ∃ t, exec i s = .next t ∧ Completed s t ∧ HoldsBytes t st.base st.bytes ∧
        SameBytesOutside s t st.base st.bytes.length) ∧
      (s.storeOf i = none → ∃ t, exec i s = .next t ∧ SameBytes s t)

/-- The reset state meets the invariants below. -/
def Obligations.ResetHasInvariants : Prop := State.reset.Inv

/-- DMEM stays inside the block, in its canonical form (R51, R61, R62), and the parameter DMEM_BYTES never changes (R7,
R42). -/
def Obligations.MemoryOkKept : Prop :=
  ∀ s t : State, step s = .next t → t.dmemBytes = s.dmemBytes ∧ (s.MemoryOk → t.MemoryOk)

/-- R29, R30, R32: while a command runs DONE, ERR and ERRCODE are 0, and ERR = 1 comes with an error code. -/
def Obligations.StatusOkKept : Prop := ∀ s t : State, s.StatusOk → step s = .next t → t.StatusOk

/-- R123, R45: every step keeps the heap invariant and the queue's capacity. -/
def Obligations.HeapInvariantKept : Prop := ∀ s t : State, s.QueueOk → step s = .next t → t.QueueOk

/-- R46-R48: every step keeps the tree a strict binary tree of well-formed records, as TREE_STATE says. -/
def Obligations.TreeOkKept : Prop := ∀ s t : State, s.tree.Ok → step s = .next t → t.tree.Ok

/-- R34: while CODES_VALID = 1 the code table is the one derived from the current tree. -/
def Obligations.CodesOkKept : Prop := ∀ s t : State, s.CodesOk → step s = .next t → t.CodesOk

/-- R48, in its own words, of every tree that is as `Tree.Ok` says; "following children never returns to a node" is the clause
over `ChildOf`. And following children from the root reaches every handle. -/
def Obligations.StrictBinaryTree : Prop :=
  ∀ t : Tree, t.Ok →
    (t.state = .invalid ∨ t.state = .empty → t.nodeCount = 0) ∧
      (t.state = .single → t.nodeCount = 1 ∧ t.root = 0#9 ∧ ∃ n, t.node? 0#9 = some n ∧ n.kind = .leaf) ∧
      (t.state = .multi → ∃ n, t.node? t.root = some n ∧ n.kind = .internal) ∧
      (t.state = .single ∨ t.state = .multi →
        t.root.toNat < t.nodeCount ∧
          (∀ n ∈ t.nodes, n.kind = .internal → n.left.toNat < t.nodeCount ∧ n.right.toNat < t.nodeCount) ∧
          (∀ h, h < t.nodeCount → h ≠ t.root.toNat → (t.nodes.flatMap Node.children).count h = 1) ∧
          (t.nodes.flatMap Node.children).count t.root.toNat = 0 ∧ (leafSymbols t.nodes).Nodup ∧
          (∀ h, ¬Relation.TransGen (ChildOf t.nodes) h h) ∧
          (∀ h, h < t.nodeCount → Relation.ReflTransGen (ChildOf t.nodes) t.root.toNat h) ∧
          t.nodeCount + 1 = 2 * (leafSymbols t.nodes).length)

/-! ### NOP and the queue (40_host_protocol.md R110, 41_pq.md) -/

/-- R110: NOP completes and writes nothing; its word is 0x00000000, written while BUSY = 1 it is discarded, and any other word
with OPC 0x00 is illegal; from reset it leaves STATUS = 0x00000002. -/
def Obligations.NopWritesNothing : Prop :=
  decode 0x00000000#32 = some .nop ∧ (∀ w : Word, w.extractLsb' 0 8 = 0x00#8 → w ≠ 0#32 → decode w = none) ∧
    (∀ s : State, ∃ t, exec .nop s = .next t ∧ ChangesOnly s t []) ∧
    (∀ (s : State) (rest : List Input), s.status.busy = true → s.inputs = .regWrite 0x10 4 0#32 :: rest →
      step s = .next { s with inputs := rest, status := { s.status with overrun := true } }) ∧
    ∃ t, exec .nop (State.reset.accept 0#32) = .next t ∧ t.statusWord = 0x00000002#32

/-- R128: PQ_NEW makes the queue empty with policy P, and STATUS shows it. -/
def Obligations.PqNewEmptiesQueue : Prop :=
  decode 0x00000001#32 = some (.pqNew .min) ∧ decode 0x00000101#32 = some (.pqNew .max) ∧
    ∀ (p : Policy) (s : State),
      ∃ t, exec (.pqNew p) s = .next t ∧ ChangesOnly s t [.queue] ∧ t.queue.policy = p ∧ t.queue.size = 0 ∧
        t.statusWord.getLsbD 15 = (match p with | .min => false | .max => true) ∧ t.statusWord.extractLsb' 16 9 = 0#9

/-- R124, R126, R129: PQ_INSERT appends the element and percolates it up; a full queue is QUEUE_FULL. -/
def Obligations.PqInsertAppendsAndPercolates : Prop :=
  ∀ (tag : Tag) (s : State),
    encode (.pqInsert tag) = 0x00000002#32 ||| (tag.setWidth 32 <<< 16) ∧
    (s.queue.size < 256 →
      ∃ t key, exec (.pqInsert tag) s = .next t ∧ ChangesOnly s t [.queue] ∧ t.queue.policy = s.queue.policy ∧
        t.queue.size = s.queue.size + 1 ∧ key.toNat = s.larg[1].toNat % 256 * 2 ^ 32 + s.larg[0].toNat ∧
        Inserts s.queue.policy s.queue.heap { key := key, tag := tag } t.queue.heap) ∧
      (256 ≤ s.queue.size → FailsWith (.pqInsert tag) s .queueFull 256#32 0#32)

/-- R130: PQ_PEEK shows the root, or zeros for an empty queue. -/
def Obligations.PqPeekShowsRoot : Prop :=
  decode 0x00000003#32 = some .pqPeek ∧ ∀ s : State,
    ∃ t, exec .pqPeek s = .next t ∧ ChangesOnly s t [.res 0, .res 1, .res 2, .res 3] ∧
      (s.queue.heap = [] → ∀ n : Fin 4, t.res[n] = 0#32) ∧
      ∀ e rest, s.queue.heap = e :: rest →
        t.res[0].toNat = e.key.toNat % 2 ^ 32 ∧ t.res[1].toNat = e.key.toNat / 2 ^ 32 ∧ t.res[2].toNat = e.tag.toNat ∧
          t.res[3] = 1#32

/-- R125, R127, R131: PQ_POP removes the root by R127 and shows it, or zeros for an empty queue. -/
def Obligations.PqPopRemovesRoot : Prop :=
  decode 0x00000004#32 = some .pqPop ∧ ∀ s : State,
    ∃ t, exec .pqPop s = .next t ∧ ChangesOnly s t [.queue, .res 0, .res 1, .res 2, .res 3] ∧
      t.queue.policy = s.queue.policy ∧
      (s.queue.heap = [] → t.queue.heap = [] ∧ ∀ n : Fin 4, t.res[n] = 0#32) ∧
      (s.queue.heap ≠ [] →
        ∃ e, Pops s.queue.policy s.queue.heap e t.queue.heap ∧ s.queue.heap.Perm (e :: t.queue.heap) ∧
          t.queue.size + 1 = s.queue.size ∧
          t.res[0].toNat = e.key.toNat % 2 ^ 32 ∧ t.res[1].toNat = e.key.toNat / 2 ^ 32 ∧ t.res[2].toNat = e.tag.toNat ∧
          t.res[3] = 1#32)

/-- R132: PQ_SIZE shows SIZE, the same number that STATUS shows. -/
def Obligations.PqSizeShowsSize : Prop :=
  decode 0x00000005#32 = some .pqSize ∧
    ∀ s : State, s.queue.size ≤ 256 →
      ∃ t, exec .pqSize s = .next t ∧ ChangesOnly s t [.res 0] ∧ t.res[0].toNat = s.queue.size ∧
        t.res[0].toNat = (t.statusWord.extractLsb' 16 9).toNat

/-- R133: (1) PQ_PEEK shows a policy-extremal key of those stored; (2) popping a queue of N elements N times shows every
element once, in the order of the policy, and empties it; (3) elements a, b, c of equal key, inserted in that order into an empty
Min queue, come out as a, c, b. -/
def Obligations.QueueOrder : Prop :=
  (∀ (s : State) (a b c : Tag), s.queue = { policy := .min, heap := [] } → s.larg[0] = 5#32 → s.larg[1] = 0#32 →
    ∃ s₁ s₂ s₃ u l, exec (.pqInsert a) s = .next s₁ ∧ exec (.pqInsert b) s₁ = .next s₂ ∧ exec (.pqInsert c) s₂ = .next s₃ ∧
      PopRun s₃ l u ∧ l.map shownElem = [(5, a.toNat), (5, c.toNat), (5, b.toNat)]) ∧
  ∀ s : State, s.QueueOk →
    (∀ t, exec .pqPeek s = .next t →
      ∀ e ∈ s.queue.heap, NotBefore s.queue.policy (shownElem t.res) (e.key.toNat, e.tag.toNat)) ∧
      ∃ l t, PopRun s l t ∧ l.length = s.queue.size ∧ t.queue.heap = [] ∧ (∀ r ∈ l, r[3] = 1#32) ∧
        (l.map shownElem).Perm (s.queue.heap.map fun e => (e.key.toNat, e.tag.toNat)) ∧
        (l.map shownElem).Pairwise (NotBefore s.queue.policy)

/-! ### The frequency table (42_freq.md) -/

/-- R141: FREQ_BUILD counts the bytes of the range; an invalid range is BAD_ADDR. -/
def Obligations.FreqBuildCountsBytes : Prop :=
  decode 0x00000010#32 = some .freqBuild ∧ ∀ s : State,
    let src := s.larg[0].toNat
    let n := s.larg[1].toNat
    (s.RangeOk src n →
      ∃ t, exec .freqBuild s = .next t ∧ ChangesOnly s t [.freq, .res 0] ∧
        (∀ sym : Byte, t.freq[sym.toNat].toNat = (s.bytesAt src n).count sym) ∧
        t.res[0].toNat = (s.bytesAt src n).dedup.length) ∧
      (¬s.RangeOk src n → FailsWith .freqBuild s .badAddr s.larg[0] s.larg[1])

/-- R142: FREQ_READ shows one count. -/
def Obligations.FreqReadShowsCount : Prop :=
  decode 0x00620011#32 = some (.freqRead 0x62#8) ∧
    ∀ (sym : Byte) (s : State),
      encode (.freqRead sym) = 0x00000011#32 ||| (sym.setWidth 32 <<< 16) ∧
        ∃ t, exec (.freqRead sym) s = .next t ∧ ChangesOnly s t [.res 0] ∧ t.res[0] = s.freq[sym.toNat]

/-- R143: FREQ_WRITE sets one count, and no other. -/
def Obligations.FreqWriteSetsCount : Prop :=
  decode 0x007A0012#32 = some (.freqWrite 0x7A#8) ∧
    ∀ (sym : Byte) (s : State),
      encode (.freqWrite sym) = 0x00000012#32 ||| (sym.setWidth 32 <<< 16) ∧
        ∃ t, exec (.freqWrite sym) s = .next t ∧ ChangesOnly s t [.freq] ∧ t.freq[sym.toNat] = s.larg[0] ∧
          ∀ other : Byte, other ≠ sym → t.freq[other.toNat] = s.freq[other.toNat]

/-! ### The tree (43_tree.md) -/

/-- R151, R152: TREE_BUILD. `symbols` is R151's `Lst`. The arena after the leaves, and the root, come from the loop of R151,
which `PairsUp` states. -/
def Obligations.TreeBuildPairsLowest : Prop :=
  decode 0x00000020#32 = some .treeBuild ∧ ∀ (s : State) (symbols : List Byte), symbols.Pairwise (fun a b => a.toNat < b.toNat) →
    (∀ sym : Byte, sym ∈ symbols ↔ s.freq[sym.toNat] ≠ 0#32) →
    let leaves : List Node := symbols.map fun sym =>
      { kind := .leaf, sym := sym, left := 0x1FF#9, right := 0x1FF#9, weight := s.freq[sym.toNat].setWidth 40 }
    ∃ t, exec .treeBuild s = .next t ∧ ChangesOnly s t [.queue, .tree, .codes, .res 0, .res 1, .res 2] ∧
      t.queue = { policy := .min, heap := [] } ∧ t.codes.valid = false ∧ t.res[0].toNat = t.tree.root.toNat ∧
      t.res[1].toNat = t.tree.nodeCount ∧ t.res[2].toNat = symbols.length ∧
      (symbols.length = 0 → t.tree = { nodes := [], root := 0x1FF#9, state := .empty }) ∧
      (symbols.length = 1 → t.tree = { nodes := leaves, root := 0#9, state := .single }) ∧
      (2 ≤ symbols.length →
        t.tree.state = .multi ∧
          ∃ heap e, InsertsLeaves 0 leaves [] heap ∧ PairsUp leaves heap t.tree.nodes [e] ∧ t.tree.root = e.tag.setWidth 9)

/-- R152: the numbers of a built tree, with n symbols present. -/
def Obligations.BuiltTreeNumbers : Prop :=
  ∀ (s t : State) (symbols : List Byte), symbols.Nodup → (∀ sym : Byte, sym ∈ symbols ↔ s.freq[sym.toNat] ≠ 0#32) →
    exec .treeBuild s = .next t →
    (1 ≤ symbols.length → t.tree.nodeCount + 1 = 2 * symbols.length) ∧
      (2 ≤ symbols.length → t.tree.root.toNat + 2 = 2 * symbols.length) ∧
      (∀ x ∈ t.tree.nodes, x.kind = .internal → ∃ l r, t.tree.node? x.left = some l ∧ t.tree.node? x.right = some r ∧
        x.weight.toNat = l.weight.toNat + r.weight.toNat) ∧
      (∀ x, t.tree.node? t.tree.root = some x →
        x.weight.toNat = (symbols.map fun sym => s.freq[sym.toNat].toNat).sum ∧ x.weight.toNat ≤ 256 * (2 ^ 32 - 1)) ∧
      ∀ sh, t.tree.HasShape (some sh) → sh.symbols.Perm symbols ∧
        ∀ p ∈ sh.paths, p.2.length + 1 ≤ symbols.length ∧ p.2.length ≤ 255

/-- R153: TREE_NODE shows one record; a handle at or above NODE_COUNT is BAD_HANDLE. -/
def Obligations.TreeNodeShowsRecord : Prop :=
  ∀ (h : Handle) (s : State), s.tree.nodeCount ≤ 511 →
    encode (.treeNode h) = 0x00000021#32 ||| (h.setWidth 32 <<< 16) ∧
      (∀ n, s.tree.nodes[h.toNat]? = some n →
        ∃ t, exec (.treeNode h) s = .next t ∧ ChangesOnly s t [.res 0, .res 1, .res 2, .res 3] ∧
          t.res[0].toNat = (match n.kind with | .leaf => 0 | .internal => 1) + 2 ^ 8 * n.sym.toNat ∧
          t.res[1].toNat = n.left.toNat + 2 ^ 16 * n.right.toNat ∧ t.res[2].toNat = n.weight.toNat % 2 ^ 32 ∧
          t.res[3].toNat = n.weight.toNat / 2 ^ 32) ∧
      (s.tree.nodeCount ≤ h.toNat →
        FailsWith (.treeNode h) s .badHandle (BitVec.ofNat 32 h.toNat) (BitVec.ofNat 32 s.tree.nodeCount)) ∧
      (h = 0x1FF#9 → s.tree.nodeCount ≤ h.toNat)

/-- R154, R155: TREE_SERIALIZE stores the descriptor of the tree's shape at LARG0; with L leaves it has 3L - 1 bytes, at most
767. -/
def Obligations.TreeSerializeStoresDescriptor : Prop :=
  decode 0x00000022#32 = some .treeSerialize ∧ ∀ s : State, s.tree.Ok →
    let dst := s.larg[0].toNat
    (s.tree.state = .invalid → FailsWith .treeSerialize s .noTree 0#32 0#32) ∧
      ∀ sh : Option Shape, s.tree.HasShape sh →
        let d := (sh.map Shape.descriptor).getD []
        s.tree.descriptor = d ∧ (∀ x, sh = some x → d.length + 1 = 3 * x.symbols.length) ∧ d.length ≤ 767 ∧
        (s.RangeOk dst d.length →
          ∃ t, exec .treeSerialize s = .next t ∧ ChangesOnly s t [.dmem, .res 0] ∧ HoldsBytes t dst d ∧
            SameBytesOutside s t dst d.length ∧ t.res[0].toNat = d.length) ∧
          (¬s.RangeOk dst d.length →
            FailsWith .treeSerialize s .badAddr s.larg[0] (BitVec.ofNat 32 d.length))

/-- R156: TREE_LOAD accepts the descriptor of every tree with distinct symbols and gives the tree it stands for: handles in
pre-order from 0, weights 0. -/
def Obligations.TreeLoadRebuildsTree : Prop :=
  ∀ s : State,
    let src := s.larg[0].toNat
    let m := s.larg[1].toNat
    (¬s.RangeOk src m → FailsWith .treeLoad s .badAddr s.larg[0] s.larg[1]) ∧
      (m = 0 →
        ∃ t, exec .treeLoad s = .next t ∧ ChangesOnly s t [.tree, .codes, .res 0, .res 1, .res 2] ∧ t.codes.valid = false ∧
          t.tree = { nodes := [], root := 0x1FF#9, state := .empty } ∧ t.res[0] = 0x1FF#32 ∧ t.res[1] = 0#32 ∧
          t.res[2] = 0#32) ∧
      ∀ sh : Shape, s.RangeOk src m → s.bytesAt src m = sh.descriptor → sh.symbols.Nodup →
        ∃ t, exec .treeLoad s = .next t ∧ ChangesOnly s t [.tree, .codes, .res 0, .res 1, .res 2] ∧ t.codes.valid = false ∧
          t.tree.HasShape (some sh) ∧ Spans t.tree.nodes sh 0#9 (List.range t.tree.nodeCount) ∧ t.tree.root = 0#9 ∧
          t.tree.nodeCount + 1 = 2 * sh.symbols.length ∧ (∀ n ∈ t.tree.nodes, n.weight = 0#40 ∧ n.Ok) ∧ t.res[0] = 0#32 ∧
          t.res[1].toNat = t.tree.nodeCount ∧ t.res[2].toNat = sh.symbols.length

/-- R156, R212, R216: TREE_LOAD of a valid nonempty range fails exactly where reading the descriptor left to right finds a
failing check, with its offset and sub-code, and succeeds where it finds none. -/
def Obligations.TreeLoadFindsFirstFault : Prop :=
  ∀ s : State,
    let src := s.larg[0].toNat
    let m := s.larg[1].toNat
    s.RangeOk src m → 0 < m →
    (∀ pos sub, descriptorFault (fun i => s.memRead (src + i)) m 513 1 0 0 [] = some (pos, sub) →
      FailsWith .treeLoad s .descMalformed (BitVec.ofNat 32 pos) (BitVec.ofNat 32 sub)) ∧
      (descriptorFault (fun i => s.memRead (src + i)) m 513 1 0 0 [] = none → ∃ t, exec .treeLoad s = .next t ∧ Completed s t)

/-- R157: serialising a tree and loading the bytes written gives a tree with the same shape, order and symbols, hence the same
codes; handles are renumbered in pre-order and weights become 0. The state between is any state that has the bytes, and LARG0 and
LARG1 naming them. -/
def Obligations.DescriptorRoundTrip : Prop :=
  ∀ s t u : State, s.tree.Ok → s.tree.state ≠ .invalid → exec .treeSerialize s = .next t → t.status.err = false →
    u.larg[0] = s.larg[0] → u.larg[1] = t.res[0] → (∀ a, u.memRead a = t.memRead a) → u.dmemLast = t.dmemLast →
    ∃ v, exec .treeLoad u = .next v ∧ Completed u v ∧ v.tree.descriptor = s.tree.descriptor ∧
      (∀ sh, s.tree.HasShape sh → v.tree.HasShape sh) ∧ (∀ n ∈ v.tree.nodes, n.weight = 0#40) ∧
      (∀ sh, s.tree.HasShape (some sh) → Spans v.tree.nodes sh 0#9 (List.range v.tree.nodeCount)) ∧ deriveCodes v.tree = deriveCodes s.tree

/-! ### Codes (44_code.md) -/

/-- R180, R181, R49: CODE_DERIVE gives every leaf symbol its path ("0" for a lone leaf), every other symbol no code, with the
bits of VAL past a code 0. -/
def Obligations.CodeDeriveGivesPaths : Prop :=
  decode 0x00000030#32 = some .codeDerive ∧ ∀ s : State, s.tree.Ok →
    (s.tree.state = .invalid → FailsWith .codeDerive s .noTree 0#32 0#32) ∧
      ∀ sh : Option Shape, s.tree.HasShape sh →
        let codes := (sh.map Shape.codes).getD []
        ∃ t, exec .codeDerive s = .next t ∧ ChangesOnly s t [.codes, .res 0, .res 1] ∧ t.codes.valid = true ∧
          (∀ p ∈ codes, t.codes.Has p.1 p.2 ∧ 1 ≤ p.2.length ∧ p.2.length ≤ 255) ∧
          (∀ sym, (∀ p ∈ codes, p.1 ≠ sym) → t.codes.Has sym [] ∧ t.codes.val[sym.toNat] = 0#256) ∧
          (∀ p ∈ codes, ∀ b, b < 256 - p.2.length → t.codes.val[p.1.toNat].getLsbD b = false) ∧
          t.res[0].toNat = codes.length ∧ t.res[1].toNat = codes.foldr (fun p m => max p.2.length m) 0

/-- R182: the codes of two symbols of one derived table are never one a prefix of the other, and for a MULTI tree the lengths
fill the Kraft sum. -/
def Obligations.CodesArePrefixFree : Prop :=
  ∀ s t : State, s.tree.Ok → s.tree.state ≠ .invalid → exec .codeDerive s = .next t →
    (∀ a b : Byte, ∀ c d : List Bool, t.codes.Has a c → t.codes.Has b d → a ≠ b → c ≠ [] → d ≠ [] → ¬c <+: d) ∧
      (s.tree.state = .multi →
        (((List.range 256).map (BitVec.ofNat 8)).map fun sym =>
          if t.codes.len[sym.toNat] = 0#8 then 0 else 2 ^ (255 - t.codes.len[sym.toNat].toNat)).sum = 2 ^ 255)

/-- R183: CODE_READ shows LEN[SYM] and one word of the code, bits past its end 0; without a valid table it is NO_CODES. -/
def Obligations.CodeReadShowsCode : Prop :=
  ∀ (sym : Byte) (widx : BitVec 3) (s : State),
    encode (.codeRead sym widx) = 0x00000031#32 ||| (sym.setWidth 32 <<< 16) ||| (widx.setWidth 32 <<< 24) ∧
      (s.codes.valid = false → FailsWith (.codeRead sym widx) s .noCodes 0#32 0#32) ∧
      (s.codes.valid = true → s.tree.Ok → s.CodesOk → ∀ bits, s.codes.Has sym bits →
        ∃ t, exec (.codeRead sym widx) s = .next t ∧ ChangesOnly s t [.res 0, .res 1] ∧ t.res[0].toNat = bits.length ∧
          ∀ i, i < 32 → t.res[1].getLsbD (31 - i) = bits.getD (32 * widx.toNat + i) false)

/-! ### Streams (45_bitstream.md) -/

/-- R191, R190, R65: ENCODE of a range whose bytes all have codes stores their codes in order, packed, pad bits 0. -/
def Obligations.EncodeStoresCodes : Prop :=
  ∀ (s : State) (code : Byte → List Bool), s.codes.valid = true → (∀ sym, s.codes.Has sym (code sym)) →
    let src := s.larg[0].toNat
    let n := s.larg[1].toNat
    let dst := s.larg[2].toNat
    let bits := (s.bytesAt src n).flatMap code
    let nb := (bits.length + 7) / 8
    s.RangeOk src n → (∀ b ∈ s.bytesAt src n, code b ≠ []) → bits.length ≤ 2 ^ 32 - 1 → s.RangeOk dst nb →
    RangesApart src n dst nb →
    ∃ t, exec .encode s = .next t ∧ ChangesOnly s t [.dmem, .res 0, .res 1] ∧ HoldsBits t dst bits ∧
      (∀ k, bits.length ≤ k → k < 8 * nb → (t.memRead (dst + k / 8)).getLsbD (7 - k % 8) = false) ∧
      SameBytesOutside s t dst nb ∧ t.res[0].toNat = bits.length ∧ t.res[1].toNat = nb

/-- R191, R216: the errors of ENCODE, in check order. -/
def Obligations.EncodeErrors : Prop :=
  ∀ (s : State) (code : Byte → List Bool), (∀ sym, s.codes.Has sym (code sym)) →
    let src := s.larg[0].toNat
    let n := s.larg[1].toNat
    let dst := s.larg[2].toNat
    let bits (k : Nat) := (s.bytesAt src k).flatMap code
    let nb := ((bits n).length + 7) / 8
    (s.codes.valid = false → FailsWith .encode s .noCodes 0#32 0#32) ∧
      (s.codes.valid = true →
        (¬s.RangeOk src n → FailsWith .encode s .badAddr s.larg[0] s.larg[1]) ∧
          (s.RangeOk src n →
            (∀ i, i < n → (∀ b ∈ s.bytesAt src i, code b ≠ []) → (bits i).length ≤ 2 ^ 32 - 1 →
              code (s.memRead (src + i)) = [] →
              FailsWith .encode s .unknownSymbol (BitVec.ofNat 32 i) ((s.memRead (src + i)).setWidth 32)) ∧
            (∀ i, i < n → (∀ b ∈ s.bytesAt src (i + 1), code b ≠ []) → (bits i).length ≤ 2 ^ 32 - 1 →
              2 ^ 32 - 1 < (bits (i + 1)).length → FailsWith .encode s .bitOverflow (BitVec.ofNat 32 i) 0#32) ∧
            ((∀ b ∈ s.bytesAt src n, code b ≠ []) → (bits n).length ≤ 2 ^ 32 - 1 →
              (¬s.RangeOk dst nb → FailsWith .encode s .badAddr s.larg[2] (BitVec.ofNat 32 nb)) ∧
                (s.RangeOk dst nb → ¬RangesApart src n dst nb →
                  FailsWith .encode s .rangeOverlap s.larg[0] s.larg[2]))))

/-- R192, R65: DECODE of a stream that is the codes of `out` in order stores `out`; of no bits it stores nothing, whatever
tree there is. -/
def Obligations.DecodeStoresSymbols : Prop :=
  ∀ s : State, s.tree.Ok → s.tree.state ≠ .invalid →
    let src := s.larg[0].toNat
    let bc := s.larg[1].toNat
    let dst := s.larg[2].toNat
    let nb := (bc + 7) / 8
    s.RangeOk src nb →
    (bc = 0 → ∃ t, exec .decode s = .next t ∧ ChangesOnly s t [.res 0] ∧ t.res[0] = 0#32) ∧
      ∀ (sh : Shape) (code : Byte → List Bool) (out : List Byte), s.tree.HasShape (some sh) →
        (∀ sym ∈ out, (sym, code sym) ∈ sh.codes) → HoldsBits s src (out.flatMap code) → (out.flatMap code).length = bc →
        s.RangeOk dst out.length → RangesApart src nb dst out.length →
        ∃ t, exec .decode s = .next t ∧ ChangesOnly s t [.dmem, .res 0] ∧ HoldsBytes t dst out ∧
          SameBytesOutside s t dst out.length ∧ t.res[0].toNat = out.length

/-- R192, R216: the errors of DECODE, in check order; and "with a MULTI tree the CORRUPT_TREE check never fires". -/
def Obligations.DecodeErrors : Prop :=
  ∀ s : State, s.tree.Ok →
    let src := s.larg[0].toNat
    let bc := s.larg[1].toNat
    let dst := s.larg[2].toNat
    let nb := (bc + 7) / 8
    (s.tree.state = .invalid → FailsWith .decode s .noTree 0#32 0#32) ∧
      (s.tree.state = .multi → ∀ t, exec .decode s = .next t → t.status.errCode ≠ .corruptTree) ∧
      (s.tree.state ≠ .invalid →
        (¬s.RangeOk src nb → FailsWith .decode s .badAddr s.larg[0] (BitVec.ofNat 32 nb)) ∧
          (s.RangeOk src nb →
            (s.tree.state = .empty → 0 < bc → FailsWith .decode s .corruptTree 0#32 0#32) ∧
            (s.tree.state = .single → ∀ k, k < bc → (∀ j, j < k → s.streamBit src j = false) → s.streamBit src k = true →
              FailsWith .decode s .corruptTree (BitVec.ofNat 32 k) (BitVec.ofNat 32 k)) ∧
            ∀ (sh : Shape) (code : Byte → List Bool) (out : List Byte), s.tree.HasShape (some sh) →
              (∀ sym ∈ out, (sym, code sym) ∈ sh.codes) → HoldsBits s src (out.flatMap code) →
              (∀ part : List Bool, part ≠ [] → HoldsBits s src (out.flatMap code ++ part) →
                (out.flatMap code ++ part).length = bc → (∃ sym c, (sym, c) ∈ sh.codes ∧ part <+: c ∧ part ≠ c) →
                FailsWith .decode s .truncatedStream (BitVec.ofNat 32 (out.flatMap code).length)
                  (BitVec.ofNat 32 out.length)) ∧
              ((out.flatMap code).length = bc →
                (¬s.RangeOk dst out.length → FailsWith .decode s .badAddr s.larg[2] (BitVec.ofNat 32 out.length)) ∧
                  (s.RangeOk dst out.length → ¬RangesApart src nb dst out.length →
                    FailsWith .decode s .rangeOverlap s.larg[0] s.larg[2]))))

/-- R191, R192, R193: decoding what ENCODE stored, with the tree the codes were derived from, gives the input back. The state
between is any state that has the stored bytes and that tree, and whose LARG0-LARG2 name them, RES0's bit_count and a free
output range. -/
def Obligations.EncodeDecodeRoundTrip : Prop :=
  ∀ s t u : State, s.tree.Ok → s.CodesOk → exec .encode s = .next t → Completed s t → u.tree.Ok →
    (∀ sh, s.tree.HasShape sh → u.tree.HasShape sh) → (∀ a, u.memRead a = t.memRead a) → u.dmemLast = t.dmemLast →
    u.larg[0] = s.larg[2] → u.larg[1] = t.res[0] →
    let n := s.larg[1].toNat
    let dst := u.larg[2].toNat
    u.RangeOk dst n → RangesApart s.larg[2].toNat ((t.res[0].toNat + 7) / 8) dst n →
    ∃ v, exec .decode u = .next v ∧ ChangesOnly u v [.dmem, .res 0] ∧ v.bytesAt dst n = s.bytesAt s.larg[0].toNat n ∧
      SameBytesOutside u v dst n ∧ v.res[0].toNat = n

/-- R193: the whole run. From any state, FREQ_BUILD, TREE_BUILD, CODE_DERIVE, TREE_SERIALIZE, ENCODE, TREE_LOAD and DECODE, each
with its operands latched, give the n bytes at `src` back at `r`. The ranges are those R193 asks for. ENCODE is taken to have
completed: an input of 2^29 bytes or more can end in BIT_OVERFLOW (95_test_vectors.md N16), which R193 does not mention; it
never ends in UNKNOWN_SYMBOL. -/
def Obligations.CompressThenDecompress : Prop :=
  ∀ (s₀ : State) (src n d e r : Word), s₀.RangeOk src.toNat n.toNat →
    ∃ s₁ s₂ s₃ : State, exec .freqBuild (s₀.withArgs src n 0#32) = .next s₁ ∧ exec .treeBuild s₁ = .next s₂ ∧
      exec .codeDerive s₂ = .next s₃ ∧ s₃.status.errCode = .ok ∧
      ∀ m : Word, m.toNat = s₃.tree.descriptor.length → s₀.RangeOk d.toNat m.toNat →
        RangesApart src.toNat n.toNat d.toNat m.toNat →
        ∃ s₄ : State, exec .treeSerialize (s₃.withArgs d 0#32 0#32) = .next s₄ ∧ s₄.status.errCode = .ok ∧ s₄.res[0] = m ∧
          ∀ s₅ : State, exec .encode (s₄.withArgs src n e) = .next s₅ →
            s₅.status.errCode ≠ .unknownSymbol ∧
              (s₅.status.errCode = .ok →
                RangesApart d.toNat m.toNat e.toNat ((s₅.res[0].toNat + 7) / 8) → s₀.RangeOk r.toNat n.toNat →
                RangesApart e.toNat ((s₅.res[0].toNat + 7) / 8) r.toNat n.toNat →
                ∃ s₆ s₇ : State, exec .treeLoad (s₅.withArgs d m 0#32) = .next s₆ ∧ s₆.status.errCode = .ok ∧
                  exec .decode (s₆.withArgs e s₅.res[0] r) = .next s₇ ∧ s₇.status.errCode = .ok ∧
                  s₇.bytesAt r.toNat n.toNat = s₀.bytesAt src.toNat n.toNat ∧ s₇.res[0] = n)

/-! ### Host programs (30_encoding.md section 6) -/

/-- R90: `wait` reads STATUS until it shows BUSY = 0, and its last read is the completion status. With BUSY = 0 it reads once;
with BUSY = 1 it reads `later + 1` times, then the engine has its turn, and then it reads the last time (how many reads come
before the engine's turn is the schedule's: notes/assumptions/11.md, the model's choice). -/
def Obligations.WaitReadsUntilIdle : Prop :=
  ∀ (s : State) (later : Nat) (rest : List Input), s.inputs = .waitIdle later :: rest →
    (s.status.busy = false →
      step s = .next { s with inputs := rest, replies := .reg 0x08 s.statusWord :: s.replies }) ∧
      (s.status.busy = true →
        ∃ t, Sys2Proof.core.run (later + 3) s = .next t ∧ t.inputs = rest ∧ t.status.busy = false ∧ t.status.done = true ∧
          t.replies =
            .reg 0x08 t.statusWord :: (List.replicate (later + 1) (.reg 0x08 s.statusWord) ++ s.replies))
end

