-- ==== Sys2Proof/Laws/Arena.lean ====
section
/-! SUPPORT. Walks of the arena on a handle that spans a shape: the descriptor, the paths, and the parser, which answers ok
exactly on a descriptor (spec 43_tree.md R154, R156; 44_code.md R181). -/

namespace Sys2Proof.Machine

/-! ### Shapes -/

/-- The number of nodes of a shape. -/
def Shape.size : Shape → Nat
  | .leaf _ => 1
  | .node l r => 1 + (l.size + r.size)

theorem Shape.size_eq (sh : Shape) : sh.size + 1 = 2 * sh.symbols.length := by
  induction sh with
  | leaf => rfl
  | node l r ihl ihr => simp only [Shape.size, Shape.symbols, List.length_append]; omega

theorem Shape.symbols_pos (sh : Shape) : 0 < sh.symbols.length := by
  have := sh.size_eq; omega

/-- A tree with L leaves has a descriptor of 3L - 1 bytes (R154). -/
theorem Shape.length_descriptor (sh : Shape) : sh.descriptor.length + 1 = 3 * sh.symbols.length := by
  induction sh with
  | leaf => rfl
  | node l r ihl ihr =>
    simp only [Shape.descriptor, Shape.symbols, List.length_append, List.length_cons]; omega

theorem Shape.paths_symbols (sh : Shape) : sh.paths.map Prod.fst = sh.symbols := by
  induction sh with
  | leaf => rfl
  | node l r ihl ihr => simp [Shape.paths, Shape.symbols, ← ihl, ← ihr, Function.comp_def]

theorem Shape.codes_symbols (sh : Shape) : sh.codes.map Prod.fst = sh.symbols := by
  cases sh with
  | leaf => rfl
  | node l r => exact Shape.paths_symbols _

/-- Every leaf lies at a depth below the number of leaves (R152). -/
theorem Shape.length_path_lt (sh : Shape) : ∀ p ∈ sh.paths, p.2.length < sh.symbols.length := by
  induction sh with
  | leaf => simp [Shape.paths, Shape.symbols]
  | node l r ihl ihr =>
    have hl := l.symbols_pos
    have hr := r.symbols_pos
    intro p hp
    simp only [Shape.paths, List.mem_append, List.mem_map] at hp
    simp only [Shape.symbols, List.length_append]
    rcases hp with ⟨q, hq, rfl⟩ | ⟨q, hq, rfl⟩
    · have := ihl q hq; simp only [List.length_cons]; omega
    · have := ihr q hq; simp only [List.length_cons]; omega

/-! ### Spans -/

theorem Spans.length_eq {nodes : List Node} {sh : Shape} {h : Handle} {hs : List Nat} (s : Spans nodes sh h hs) :
    hs.length = sh.size := by
  induction sh generalizing h hs with
  | leaf => obtain ⟨rfl, _⟩ := s; rfl
  | node l r ihl ihr =>
    obtain ⟨n, ls, rs, _, _, rfl, hl, hr⟩ := s
    simp only [List.length_cons, List.length_append, ihl hl, ihr hr, Shape.size]
    omega

theorem Spans.head_mem {nodes : List Node} {sh : Shape} {h : Handle} {hs : List Nat} (s : Spans nodes sh h hs) :
    h.toNat ∈ hs := by
  cases sh with
  | leaf => obtain ⟨rfl, _⟩ := s; simp
  | node l r => obtain ⟨n, ls, rs, _, _, rfl, _⟩ := s; simp

theorem Spans.lt_length {nodes : List Node} {sh : Shape} {h : Handle} {hs : List Nat} (s : Spans nodes sh h hs) :
    ∀ i ∈ hs, i < nodes.length := by
  induction sh generalizing h hs with
  | leaf =>
    obtain ⟨rfl, n, hn, _⟩ := s
    simpa using (List.getElem?_eq_some_iff.1 hn).1
  | node l r ihl ihr =>
    obtain ⟨n, ls, rs, hn, _, rfl, hl, hr⟩ := s
    intro i hi
    simp only [List.mem_cons, List.mem_append] at hi
    rcases hi with rfl | hi | hi
    · exact (List.getElem?_eq_some_iff.1 hn).1
    · exact ihl hl i hi
    · exact ihr hr i hi

/-- A span reads only the records at its handles. -/
theorem Spans.congr {nodes nodes' : List Node} {sh : Shape} {h : Handle} {hs : List Nat} (s : Spans nodes sh h hs)
    (e : ∀ i ∈ hs, nodes'[i]? = nodes[i]?) : Spans nodes' sh h hs := by
  induction sh generalizing h hs with
  | leaf =>
    obtain ⟨rfl, n, hn, hk⟩ := s
    exact ⟨rfl, n, by rw [e _ (by simp), hn], hk⟩
  | node l r ihl ihr =>
    obtain ⟨n, ls, rs, hn, hk, rfl, hl, hr⟩ := s
    exact ⟨n, ls, rs, by rw [e _ (by simp), hn], hk, rfl, ihl hl fun i hi => e i (by simp [hi]),
      ihr hr fun i hi => e i (by simp [hi])⟩

/-- A span stays where records are added after it. -/
theorem Spans.append {nodes : List Node} {sh : Shape} {h : Handle} {hs : List Nat} (s : Spans nodes sh h hs)
    (more : List Node) : Spans (nodes ++ more) sh h hs :=
  s.congr fun i hi => List.getElem?_append_left (s.lt_length i hi)

/-- One shape at one handle. -/
theorem Spans.unique {nodes : List Node} {sh sh' : Shape} {h : Handle} {hs hs' : List Nat} (s : Spans nodes sh h hs)
    (s' : Spans nodes sh' h hs') : sh = sh' ∧ hs = hs' := by
  induction sh generalizing sh' h hs hs' with
  | leaf sym =>
    obtain ⟨rfl, n, hn, hk, rfl⟩ := s
    cases sh' with
    | leaf sym' =>
      obtain ⟨rfl, n', hn', _, rfl⟩ := s'
      rw [hn, Option.some.injEq] at hn'
      exact ⟨by rw [hn'], rfl⟩
    | node l r =>
      obtain ⟨n', ls, rs, hn', hk', _⟩ := s'
      rw [hn, Option.some.injEq] at hn'
      rw [← hn', hk] at hk'
      simp at hk'
  | node l r ihl ihr =>
    obtain ⟨n, ls, rs, hn, hk, rfl, hl, hr⟩ := s
    cases sh' with
    | leaf sym' =>
      obtain ⟨_, n', hn', hk', _⟩ := s'
      rw [hn, Option.some.injEq] at hn'
      rw [← hn', hk] at hk'
      simp at hk'
    | node l' r' =>
      obtain ⟨n', ls', rs', hn', _, rfl, hl', hr'⟩ := s'
      rw [hn, Option.some.injEq] at hn'
      subst hn'
      obtain ⟨rfl, rfl⟩ := ihl hl hl'
      obtain ⟨rfl, rfl⟩ := ihr hr hr'
      exact ⟨rfl, rfl⟩

/-! ### The descriptor and the paths -/

/-- R154 on a span: as many turns as the shape has nodes are enough. -/
theorem describe_of_spans {nodes : List Node} {sh : Shape} {h : Handle} {hs : List Nat} (s : Spans nodes sh h hs)
    {turns : Nat} (ht : sh.size ≤ turns) : describe nodes turns h = sh.descriptor := by
  induction sh generalizing h hs turns with
  | leaf sym =>
    obtain ⟨rfl, n, hn, hk, rfl⟩ := s
    obtain ⟨turns, rfl⟩ : ∃ k, turns = k + 1 := ⟨turns - 1, by simp only [Shape.size] at ht; omega⟩
    simp [describe, hn, hk, Shape.descriptor]
  | node l r ihl ihr =>
    obtain ⟨n, ls, rs, hn, hk, rfl, hl, hr⟩ := s
    simp only [Shape.size] at ht
    obtain ⟨turns, rfl⟩ : ∃ k, turns = k + 1 := ⟨turns - 1, by omega⟩
    simp [describe, hn, hk, Shape.descriptor, ihl hl (turns := turns) (by omega), ihr hr (turns := turns) (by omega)]

/-- The walk of R181 on a span. -/
theorem leafPaths_of_spans {nodes : List Node} {sh : Shape} {h : Handle} {hs : List Nat} (s : Spans nodes sh h hs)
    {turns : Nat} (ht : sh.size ≤ turns) (path : List Bool) :
    leafPaths nodes turns h path = sh.paths.map fun p => (p.1, path ++ p.2) := by
  induction sh generalizing h hs turns path with
  | leaf sym =>
    obtain ⟨rfl, n, hn, hk, rfl⟩ := s
    obtain ⟨turns, rfl⟩ : ∃ k, turns = k + 1 := ⟨turns - 1, by simp only [Shape.size] at ht; omega⟩
    simp [leafPaths, hn, hk, Shape.paths]
  | node l r ihl ihr =>
    obtain ⟨n, ls, rs, hn, hk, rfl, hl, hr⟩ := s
    simp only [Shape.size] at ht
    obtain ⟨turns, rfl⟩ : ∃ k, turns = k + 1 := ⟨turns - 1, by omega⟩
    simp [leafPaths, hn, hk, Shape.paths, ihl hl (turns := turns) (by omega), ihr hr (turns := turns) (by omega),
      Function.comp_def]

/-- The number of nodes of a strict tree's shape is NODE_COUNT. -/
theorem Spans.size_eq_of_perm {nodes : List Node} {sh : Shape} {h : Handle} {hs : List Nat} (s : Spans nodes sh h hs)
    (hp : hs.Perm (List.range nodes.length)) : sh.size = nodes.length := by
  rw [← s.length_eq, hp.length_eq, List.length_range]

/-- The tree of a good state has a shape, unless it is INVALID. -/
theorem Tree.Ok.exists_shape {t : Tree} (h : t.Ok) (hi : t.state ≠ .invalid) :
    ∃ sh, t.HasShape sh ∧ ∀ x ∈ sh, x.symbols.Nodup ∧ x.size = t.nodeCount := by
  obtain ⟨hcap, hrec, hs⟩ := h
  rcases e : t.state
  · exact absurd e hi
  · exact ⟨none, e, by simp⟩
  · rw [e] at hs
    obtain ⟨⟨sh, hh, sp, hp, hn⟩, hroot, n, hnodes, hk⟩ := hs
    cases sh with
    | leaf sym => exact ⟨some (.leaf sym), ⟨e, hh, sp⟩, by simp [hn, sp.size_eq_of_perm hp, Tree.nodeCount]⟩
    | node l r =>
      have := sp.size_eq_of_perm hp
      have h1 := l.size_eq
      have h2 := l.symbols_pos
      simp only [Shape.size, hnodes, List.length_singleton] at this
      omega
  · rw [e] at hs
    obtain ⟨⟨sh, hh, sp, hp, hn⟩, n, hroot, hk⟩ := hs
    cases sh with
    | leaf sym =>
      obtain ⟨_, n', hn', hk', _⟩ := sp
      rw [Tree.node?, hn', Option.some.injEq] at hroot
      rw [hroot, hk] at hk'
      simp at hk'
    | node l r => exact ⟨some (.node l r), ⟨e, hh, sp⟩, by simp [hn, sp.size_eq_of_perm hp, Tree.nodeCount]⟩

/-- What TREE_SERIALIZE stores is the descriptor of the tree's shape (R154). -/
theorem Tree.descriptor_of_shape {t : Tree} {sh : Option Shape} (h : t.HasShape sh)
    (hsz : ∀ x ∈ sh, x.size = t.nodeCount) : t.descriptor = (sh.map Shape.descriptor).getD [] := by
  match sh, h with
  | none, h => simp [Tree.descriptor, show t.state = .empty from h]
  | some (.leaf sym), ⟨h, hs, sp⟩ =>
    simp only [Tree.descriptor, h]
    simpa using describe_of_spans sp (hsz _ rfl).le
  | some (.node l r), ⟨h, hs, sp⟩ =>
    simp only [Tree.descriptor, h]
    simpa using describe_of_spans sp (hsz _ rfl).le

/-- What CODE_DERIVE assigns is the codes of the tree's shape (R181). -/
theorem Tree.assignments_of_shape {t : Tree} {sh : Option Shape} (h : t.HasShape sh)
    (hsz : ∀ x ∈ sh, x.size = t.nodeCount) : t.assignments = (sh.map Shape.codes).getD [] := by
  match sh, h with
  | none, h => simp [Tree.assignments, show t.state = .empty from h]
  | some (.leaf sym), ⟨h, hs, sp⟩ =>
    obtain ⟨_, n, hn, _, rfl⟩ := sp
    simp [Tree.assignments, h, Tree.node?, hn, Shape.codes]
  | some (.node l r), ⟨h, hs, sp⟩ =>
    simp only [Tree.assignments, h]
    rw [leafPaths_of_spans sp (hsz _ rfl).le]
    simp [Shape.codes]

end Sys2Proof.Machine
end

