-- ==== Sys2Proof/Laws/Heap.lean ====
section
/-! SUPPORT. The heap primitives: they permute the elements, and they restore the heap order (spec 41_pq.md R123-R127). -/

namespace Sys2Proof.Machine

/-! ### The order of elements -/

theorem prefers_false_refl (p : Policy) (a : Elem) : prefers p a a = false := by
  cases p <;> simp [prefers]

theorem prefers_asymm {p : Policy} {a b : Elem} (h : prefers p a b = true) : prefers p b a = false := by
  cases p <;> simp only [prefers, decide_eq_true_eq, decide_eq_false_iff_not, BitVec.lt_def] at h ⊢ <;> omega

/-- "Not preferred over" is transitive: if b is not preferred over a and c not over b, then c is not over a. -/
theorem prefers_false_trans {p : Policy} {a b c : Elem} (h₁ : prefers p b a = false) (h₂ : prefers p c b = false) :
    prefers p c a = false := by
  cases p <;> simp only [prefers, decide_eq_false_iff_not, BitVec.lt_def] at h₁ h₂ ⊢ <;> omega

theorem prefersAt_eq (p : Policy) (h : List Elem) {i j : Nat} (hi : i < h.length) (hj : j < h.length) :
    prefersAt p h i j = prefers p h[i] h[j] := by
  simp [prefersAt, hi, hj]

theorem prefersAt_false_of_le (p : Policy) (h : List Elem) {i : Nat} (j : Nat) (hi : h.length ≤ i) :
    prefersAt p h i j = false := by
  simp [prefersAt, hi]

/-! ### Swapping -/

theorem swapAt_eq (h : List Elem) {i j : Nat} (hi : i < h.length) (hj : j < h.length) :
    swapAt h i j = (h.set i h[j]).set j h[i] := by
  simp [swapAt, hi, hj]

@[simp] theorem length_swapAt (h : List Elem) (i j : Nat) : (swapAt h i j).length = h.length := by
  unfold swapAt
  split <;> simp

theorem getElem_swapAt (h : List Elem) {i j k : Nat} (hi : i < h.length) (hj : j < h.length) (hk : k < h.length) :
    (swapAt h i j)[k]'(by simpa using hk) = if k = j then h[i] else if k = i then h[j] else h[k] := by
  simp only [swapAt_eq h hi hj, List.getElem_set]
  split
  · next e => rw [if_pos e.symm]
  · next e => rw [if_neg (Ne.symm e)]; simp only [eq_comm]

theorem swapAt_perm (h : List Elem) (i j : Nat) : (swapAt h i j).Perm h := by
  by_cases hi : i < h.length
  · by_cases hj : j < h.length
    · rw [swapAt_eq h hi hj]
      exact List.set_set_perm hi hj
    · simp [swapAt, hi, hj]
  · simp [swapAt, hi]

/-! ### Permutation and length -/

theorem percolateUp_perm (p : Policy) (turns i : Nat) (h : List Elem) : (percolateUp p turns i h).Perm h := by
  induction turns generalizing i h with
  | zero => exact .refl _
  | succ turns ih =>
    simp only [percolateUp]
    split
    · split
      · exact (ih _ _).trans (swapAt_perm h _ _)
      · exact .refl _
    · exact .refl _

theorem percolateDown_perm (p : Policy) (turns i : Nat) (h : List Elem) : (percolateDown p turns i h).Perm h := by
  induction turns generalizing i h with
  | zero => exact .refl _
  | succ turns ih =>
    simp only [percolateDown]
    split
    · split
      · exact (ih _ _).trans (swapAt_perm h _ _)
      · exact .refl _
    · exact .refl _

theorem heapInsert_perm (p : Policy) (h : List Elem) (e : Elem) : (heapInsert p h e).Perm (e :: h) :=
  (percolateUp_perm _ _ _ _).trans (List.perm_append_singleton e h)

@[simp] theorem length_heapInsert (p : Policy) (h : List Elem) (e : Elem) : (heapInsert p h e).length = h.length + 1 :=
  (heapInsert_perm p h e).length_eq

theorem heapPop_nil (p : Policy) : heapPop p [] = none := rfl

/-- A pop of a nonempty heap: the root, and the heap left. -/
theorem heapPop_cons (p : Policy) (top : Elem) (rest : List Elem) :
    heapPop p (top :: rest) =
      some (top, match rest.getLast? with
        | none => []
        | some last => percolateDown p rest.length 0 (last :: rest.dropLast)) := by
  simp only [heapPop]
  cases rest.getLast? <;> rfl

theorem heapPop_perm {p : Policy} {h rest : List Elem} {top : Elem} (hp : heapPop p h = some (top, rest)) :
    h.Perm (top :: rest) := by
  cases h with
  | nil => simp [heapPop] at hp
  | cons a l =>
    rw [heapPop_cons, Option.some.injEq, Prod.mk.injEq] at hp
    obtain ⟨rfl, rfl⟩ := hp
    refine List.Perm.cons _ ?_
    rcases List.eq_nil_or_concat l with rfl | ⟨l', b, rfl⟩
    · simp
    · simp only [List.concat_eq_append, List.getLast?_append, List.getLast?_singleton, Option.some_or,
        List.dropLast_concat]
      exact (List.perm_append_singleton b l').trans (percolateDown_perm _ _ _ _).symm

theorem heapPop_length {p : Policy} {h rest : List Elem} {top : Elem} (hp : heapPop p h = some (top, rest)) :
    h.length = rest.length + 1 := by
  simpa using (heapPop_perm hp).length_eq

theorem heapPop_head {p : Policy} {h rest : List Elem} {top : Elem} (hp : heapPop p h = some (top, rest)) :
    h.head? = some top := by
  cases h with
  | nil => simp [heapPop] at hp
  | cons a l =>
    rw [heapPop_cons, Option.some.injEq, Prod.mk.injEq] at hp
    simp [hp.1]

theorem heapPop_isSome {p : Policy} {h : List Elem} (hh : 0 < h.length) : ∃ top rest, heapPop p h = some (top, rest) := by
  cases h with
  | nil => simp at hh
  | cons a l => exact ⟨_, _, heapPop_cons p a l⟩

/-! ### Heap order -/

/-- In heap order but for slot k, which may be better than its parent. -/
structure OrderedExceptUp (p : Policy) (h : List Elem) (k : Nat) : Prop where
  others : ∀ (i : Nat) (hi : i < h.length), 0 < i → i ≠ k → prefers p h[i] (h[(i - 1) / 2]'(by omega)) = false
  below : ∀ (i : Nat) (hi : i < h.length), 0 < i → (_ : (i - 1) / 2 = k) → 0 < k →
    prefers p h[i] (h[(k - 1) / 2]'(by omega)) = false

/-- In heap order but for slot k, which may be worse than its children. -/
structure OrderedExceptDown (p : Policy) (h : List Elem) (k : Nat) : Prop where
  others : ∀ (i : Nat) (hi : i < h.length), 0 < i → (i - 1) / 2 ≠ k → prefers p h[i] (h[(i - 1) / 2]'(by omega)) = false
  below : ∀ (i : Nat) (hi : i < h.length), 0 < i → (_ : (i - 1) / 2 = k) → 0 < k →
    prefers p h[i] (h[(k - 1) / 2]'(by omega)) = false

theorem OrderedExceptUp.swap {p : Policy} {h : List Elem} {k : Nat} (ho : OrderedExceptUp p h k) (hk : k < h.length)
    (k0 : 0 < k) (hp : prefers p h[k] (h[(k - 1) / 2]'(by omega)) = true) :
    OrderedExceptUp p (swapAt h k ((k - 1) / 2)) ((k - 1) / 2) := by
  have hq : (k - 1) / 2 < h.length := by omega
  have hqk : prefers p h[(k - 1) / 2] h[k] = false := prefers_asymm hp
  constructor
  · intro i hi i0 hne
    rw [length_swapAt] at hi
    have hpi : (i - 1) / 2 < h.length := by omega
    rw [getElem_swapAt h hk hq hi, getElem_swapAt h hk hq hpi, if_neg hne]
    by_cases hik : i = k
    · subst hik; simpa using hqk
    · rw [if_neg hik]
      by_cases h1 : (i - 1) / 2 = (k - 1) / 2
      · rw [if_pos h1]
        have := ho.others i hi i0 hik
        simp only [h1] at this
        exact prefers_false_trans hqk this
      · rw [if_neg h1]
        by_cases h2 : (i - 1) / 2 = k
        · rw [if_pos h2]; exact ho.below i hi i0 h2 k0
        · rw [if_neg h2]; exact ho.others i hi i0 hik
  · intro i hi i0 hpar q0
    rw [length_swapAt] at hi
    have hpq : ((k - 1) / 2 - 1) / 2 < h.length := by omega
    rw [getElem_swapAt h hk hq hi, getElem_swapAt h hk hq hpq, if_neg (by omega : i ≠ (k - 1) / 2),
      if_neg (by omega : ((k - 1) / 2 - 1) / 2 ≠ (k - 1) / 2), if_neg (by omega : ((k - 1) / 2 - 1) / 2 ≠ k)]
    have hup := ho.others _ hq q0 (by omega)
    by_cases hik : i = k
    · rw [if_pos hik]; exact hup
    · rw [if_neg hik]
      have := ho.others i hi i0 hik
      simp only [hpar] at this
      exact prefers_false_trans hup this

theorem heapOrdered_percolateUp {p : Policy} {turns k : Nat} {h : List Elem} (hk : k < h.length) (ht : k ≤ turns)
    (ho : OrderedExceptUp p h k) : HeapOrdered p (percolateUp p turns k h) := by
  have done (hle : 0 < k → prefers p h[k] (h[(k - 1) / 2]'(by omega)) = false) : HeapOrdered p h := by
    intro i hi i0
    by_cases hik : i = k
    · subst hik; exact hle i0
    · exact ho.others i hi i0 hik
  induction turns generalizing k h with
  | zero => exact done fun k0 => absurd k0 (by omega)
  | succ turns ih =>
    simp only [percolateUp]
    split
    · next k0 =>
      rw [prefersAt_eq p h hk (by omega)]
      split
      · next hp =>
        have hq : (k - 1) / 2 < (swapAt h k ((k - 1) / 2)).length := by simp; omega
        have ho' := ho.swap hk k0 hp
        refine ih hq (by omega) ho' ?_
        intro hle i hi i0
        by_cases hik : i = (k - 1) / 2
        · subst hik; exact hle i0
        · exact ho'.others i hi i0 hik
      · next hp => exact done fun _ => by simpa using hp
    · next k0 => exact done fun k1 => absurd k1 k0

/-- R126 keeps the heap order (R123). -/
theorem heapOrdered_heapInsert {p : Policy} {h : List Elem} (ho : HeapOrdered p h) (e : Elem) :
    HeapOrdered p (heapInsert p h e) := by
  refine heapOrdered_percolateUp (by simp) le_rfl ⟨?_, ?_⟩
  · intro i hi i0 hne
    have hi' : i < h.length := by simp at hi; omega
    rw [List.getElem_append_left hi', List.getElem_append_left (by omega)]
    exact ho i hi' i0
  · intro i hi i0 hpar _
    simp at hi
    omega

theorem preferredChild_spec (p : Policy) (h : List Elem) (k : Nat) (hk : 2 * k + 1 < h.length) :
    ∃ hc : preferredChild p h k < h.length, 0 < preferredChild p h k ∧ (preferredChild p h k - 1) / 2 = k ∧
      ∀ (i : Nat) (hi : i < h.length), 0 < i → (i - 1) / 2 = k → prefers p h[i] h[preferredChild p h k] = false := by
  by_cases hr : 2 * k + 2 < h.length
  · by_cases hp : prefers p h[2 * k + 2] h[2 * k + 1] = true
    · have e : preferredChild p h k = 2 * k + 2 := by simp [preferredChild, prefersAt_eq p h hr hk, hp]
      simp only [e]
      refine ⟨hr, by omega, by omega, fun i hi i0 hpar => ?_⟩
      have : i = 2 * k + 1 ∨ i = 2 * k + 2 := by omega
      rcases this with rfl | rfl
      · exact prefers_asymm hp
      · exact prefers_false_refl p _
    · have e : preferredChild p h k = 2 * k + 1 := by simp [preferredChild, prefersAt_eq p h hr hk, hp]
      simp only [e]
      refine ⟨hk, by omega, by omega, fun i hi i0 hpar => ?_⟩
      have : i = 2 * k + 1 ∨ i = 2 * k + 2 := by omega
      rcases this with rfl | rfl
      · exact prefers_false_refl p _
      · simpa using hp
  · have e : preferredChild p h k = 2 * k + 1 := by
      simp [preferredChild, prefersAt_false_of_le p h _ (by omega : h.length ≤ 2 * k + 2)]
    simp only [e]
    refine ⟨hk, by omega, by omega, fun i hi i0 hpar => ?_⟩
    have : i = 2 * k + 1 := by omega
    subst this
    exact prefers_false_refl p _

theorem OrderedExceptDown.swap {p : Policy} {h : List Elem} {k c : Nat} (ho : OrderedExceptDown p h k) (hk : k < h.length)
    (hc : c < h.length) (c0 : 0 < c) (hpar : (c - 1) / 2 = k)
    (best : ∀ (i : Nat) (hi : i < h.length), 0 < i → (i - 1) / 2 = k → prefers p h[i] h[c] = false)
    (hp : prefers p h[c] h[k] = true) : OrderedExceptDown p (swapAt h k c) c := by
  constructor
  · intro i hi i0 hne
    rw [length_swapAt] at hi
    have hpi : (i - 1) / 2 < h.length := by omega
    rw [getElem_swapAt h hk hc hi, getElem_swapAt h hk hc hpi, if_neg hne]
    by_cases hik : (i - 1) / 2 = k
    · rw [if_pos hik, if_neg (by omega : i ≠ k)]
      split
      · exact prefers_asymm hp
      · exact best i hi i0 hik
    · rw [if_neg hik, if_neg (by omega : i ≠ c)]
      split
      · next e => subst e; exact ho.below c hc c0 hpar i0
      · exact ho.others i hi i0 hik
  · intro i hi i0 hpi _
    rw [length_swapAt] at hi
    have hpc : (c - 1) / 2 < h.length := by omega
    rw [getElem_swapAt h hk hc hi, getElem_swapAt h hk hc hpc, if_neg (by omega : i ≠ c), if_neg (by omega : i ≠ k),
      if_neg (by omega), if_pos hpar]
    have := ho.others i hi i0 (by omega)
    simpa only [hpi] using this

theorem heapOrdered_percolateDown {p : Policy} {turns k : Nat} {h : List Elem} (ht : h.length ≤ turns + k)
    (ho : OrderedExceptDown p h k) : HeapOrdered p (percolateDown p turns k h) := by
  have done {k : Nat} {h : List Elem} (ho : OrderedExceptDown p h k)
      (hle : ∀ (i : Nat) (hi : i < h.length), 0 < i → (i - 1) / 2 = k →
        prefers p h[i] (h[(i - 1) / 2]'(by omega)) = false) : HeapOrdered p h := by
    intro i hi i0
    by_cases hik : (i - 1) / 2 = k
    · exact hle i hi i0 hik
    · exact ho.others i hi i0 hik
  induction turns generalizing k h with
  | zero => exact done (h := h) ho fun i hi i0 hik => absurd hi (by omega)
  | succ turns ih =>
    simp only [percolateDown]
    split
    · next hl =>
      obtain ⟨hc, c0, hpar, best⟩ := preferredChild_spec p h k hl
      have hk : k < h.length := by omega
      rw [prefersAt_eq p h hc hk]
      split
      · next hp => exact ih (by simp; omega) (ho.swap hk hc c0 hpar best hp) @done
      · next hp =>
        refine done ho fun i hi i0 hik => ?_
        simp only [hik]
        exact prefers_false_trans (by simpa using hp) (best i hi i0 hik)
    · next hl => exact done ho fun i hi i0 hik => absurd hi (by omega)

/-- R127 keeps the heap order (R123). -/
theorem heapOrdered_heapPop {p : Policy} {h rest : List Elem} {top : Elem} (ho : HeapOrdered p h)
    (hp : heapPop p h = some (top, rest)) : HeapOrdered p rest := by
  cases h with
  | nil => simp [heapPop] at hp
  | cons a l =>
    rw [heapPop_cons, Option.some.injEq, Prod.mk.injEq] at hp
    obtain ⟨rfl, rfl⟩ := hp
    rcases List.eq_nil_or_concat l with rfl | ⟨l', b, rfl⟩
    · intro i hi; simp at hi
    · simp only [List.concat_eq_append, List.getLast?_append, List.getLast?_singleton, Option.some_or,
        List.dropLast_concat]
      refine heapOrdered_percolateDown (by simp) ⟨?_, ?_⟩
      · intro i hi i0 hne
        have hi' : i < (a :: (l' ++ [b])).length := by simp at hi ⊢; omega
        have := ho i (by simpa using hi') i0
        have e (j : Nat) (hj : 0 < j) (h1 : j < (b :: l').length) :
            (a :: l'.concat b)[j]'(by simp at h1 ⊢; omega) = (b :: l')[j] := by
          obtain ⟨j, rfl⟩ := Nat.exists_eq_add_of_lt hj
          simp only [List.length_cons] at h1
          simp [List.getElem_append_left (by omega : j < l'.length)]
        rwa [e i i0 hi, e _ (by omega) (by simp at hi ⊢; omega)] at this
      · intro i hi i0 hpar h0; omega

/-- In heap order the root is not worse than any element (R133 (1)). -/
theorem HeapOrdered.root_best {p : Policy} {h : List Elem} (ho : HeapOrdered p h) (i : Nat) (hi : i < h.length) :
    prefers p h[i] (h[0]'(by omega)) = false := by
  induction i using Nat.strong_induction_on with
  | _ i ih =>
    by_cases i0 : 0 < i
    · exact prefers_false_trans (ih ((i - 1) / 2) (by omega) (by omega)) (ho i hi i0)
    · have : i = 0 := by omega
      subst this; exact prefers_false_refl p _

theorem heapOrdered_nil (p : Policy) : HeapOrdered p [] := fun i hi => absurd hi (by simp)

end Sys2Proof.Machine
end

