-- ==== Sys2Proof/Laws/Parse.lean ====
section
/-! SUPPORT. The descriptor parser (spec 43_tree.md R156): it answers ok exactly where a descriptor of distinct symbols stands,
and then the new records span its shape, in pre-order. -/

namespace Sys2Proof.Machine

/-- The bytes of a list stand at a position of the descriptor being read. -/
def BytesAt (d : Nat → Byte) (pos : Nat) (bytes : List Byte) : Prop :=
  ∀ (i : Nat) (h : i < bytes.length), d (pos + i) = bytes[i]

theorem bytesAt_cons {d : Nat → Byte} {pos : Nat} {b : Byte} {bs : List Byte} :
    BytesAt d pos (b :: bs) ↔ d pos = b ∧ BytesAt d (pos + 1) bs := by
  constructor
  · intro h
    refine ⟨h 0 (by simp), fun i hi => ?_⟩
    rw [Nat.add_assoc, Nat.add_comm 1 i]
    exact h (i + 1) (by simpa using hi)
  · rintro ⟨h0, h⟩ i hi
    cases i with
    | zero => exact h0
    | succ i =>
      have := h i (by simpa using hi)
      rwa [Nat.add_assoc, Nat.add_comm 1 i] at this

theorem bytesAt_append {d : Nat → Byte} {pos : Nat} {l r : List Byte} :
    BytesAt d pos (l ++ r) ↔ BytesAt d pos l ∧ BytesAt d (pos + l.length) r := by
  induction l generalizing pos with
  | nil => simp [BytesAt]
  | cons b l ih =>
    simp only [List.cons_append, bytesAt_cons, ih, List.length_cons, and_assoc]
    rw [show pos + 1 + l.length = pos + (l.length + 1) by omega]

/-- What a successful parse of a shape leaves. -/
structure Parsed (d : Nat → Byte) (m : Nat) (st : ParseState) (sh : Shape) (h : Handle) (st' : ParseState) : Prop where
  handle : h = BitVec.ofNat 9 st.nodes.length
  pos : st'.pos = st.pos + sh.descriptor.length
  inside : st'.pos ≤ m
  bytes : BytesAt d st.pos sh.descriptor
  nodes : ∃ new, st'.nodes = st.nodes ++ new ∧ new.length = sh.size ∧ ∀ n ∈ new, n.Ok ∧ n.weight = 0#40
  room : st'.nodes.length ≤ Config.nodeCap
  seen : st'.seen = sh.symbols.reverse ++ st.seen
  distinct : sh.symbols.Nodup
  fresh : ∀ sym ∈ sh.symbols, sym ∉ st.seen
  spans : Spans st'.nodes sh h (List.range' st.nodes.length sh.size)

theorem toNat_ofNat_handle {k : Nat} (h : k ≤ Config.nodeCap) : (BitVec.ofNat 9 k).toNat = k := by
  simp only [Config.nodeCap] at h
  simp only [BitVec.toNat_ofNat]
  omega

theorem leafNode_ok (sym : Byte) (w : Key) : (leafNode sym w).Ok := by simp [leafNode, Node.Ok]

theorem internalNode_ok (l r : Handle) (w : Key) : (internalNode l r w).Ok := by simp [internalNode, Node.Ok]

/-- A leaf parses from its two bytes. -/
theorem Parsed.leaf {d : Nat → Byte} {m : Nat} {st : ParseState} {sym : Byte} (hm : st.pos + 2 ≤ m)
    (hcap : st.nodes.length < Config.nodeCap) (h0 : d st.pos = 0x01#8) (h1 : d (st.pos + 1) = sym) (hs : sym ∉ st.seen) :
    Parsed d m st (.leaf sym) (BitVec.ofNat 9 st.nodes.length)
      { pos := st.pos + 2, nodes := st.nodes ++ [leafNode sym 0#40], seen := sym :: st.seen } where
  handle := rfl
  pos := rfl
  inside := hm
  bytes := bytesAt_cons.2 ⟨h0, bytesAt_cons.2 ⟨h1, fun i hi => absurd hi (by simp)⟩⟩
  nodes := ⟨[leafNode sym 0#40], rfl, rfl, by
    intro n hn
    rw [List.mem_singleton.1 hn]
    exact ⟨leafNode_ok _ _, rfl⟩⟩
  room := by simp only [List.length_append, List.length_singleton]; omega
  seen := rfl
  distinct := by simp [Shape.symbols]
  fresh := by simp [Shape.symbols, hs]
  spans := by
    have e := toNat_ofNat_handle hcap.le
    refine ⟨by simp [Shape.size, e], leafNode sym 0#40, ?_, rfl, rfl⟩
    simp [e]

/-- An internal node parses from its flag and the two sub-trees after it. -/
theorem Parsed.node {d : Nat → Byte} {m : Nat} {st st₁ st₂ : ParseState} {l r : Shape} {hl hr : Handle}
    (h0 : d st.pos = 0x00#8)
    (pl : Parsed d m { pos := st.pos + 1, nodes := st.nodes ++ [internalNode Config.nil Config.nil 0#40], seen := st.seen }
      l hl st₁)
    (pr : Parsed d m st₁ r hr st₂) :
    Parsed d m st (.node l r) (BitVec.ofNat 9 st.nodes.length)
      { st₂ with nodes := st₂.nodes.set st.nodes.length (internalNode hl hr 0#40) } := by
  obtain ⟨newl, enl, lenl, okl⟩ := pl.nodes
  obtain ⟨newr, enr, lenr, okr⟩ := pr.nodes
  have eset : st₂.nodes.set st.nodes.length (internalNode hl hr 0#40) =
      st.nodes ++ (internalNode hl hr 0#40 :: (newl ++ newr)) := by
    rw [enr, enl]; simp [List.append_assoc]
  have hroom := pr.room
  have len₂ : st₂.nodes.length = st.nodes.length + (1 + (l.size + r.size)) := by
    rw [enr, enl]; simp only [List.length_append, List.length_singleton, lenl, lenr]; omega
  have e := toNat_ofNat_handle (k := st.nodes.length) (by omega)
  have hposl := pl.pos
  have hposr := pr.pos
  have hseenl := pl.seen
  have hseenr := pr.seen
  simp only at hposl hseenl
  have hfresh := pr.fresh
  rw [hseenl] at hfresh
  have len₁ : st₁.nodes.length = st.nodes.length + 1 + l.size := by
    rw [enl]; simp only [List.length_append, List.length_singleton, lenl]
  have away (i : Nat) (hi : i ≠ st.nodes.length) :
      (st₂.nodes.set st.nodes.length (internalNode hl hr 0#40))[i]? = st₂.nodes[i]? := by
    rw [List.getElem?_set_ne (by omega)]
  refine ⟨rfl, ?_, pr.inside, ?_, ⟨_, eset, ?_, ?_⟩, ?_, ?_, ?_, ?_, ?_⟩
  · simp only [Shape.descriptor, List.length_cons, List.length_append, hposr, hposl]; omega
  · simp only [Shape.descriptor, bytesAt_cons, bytesAt_append, h0, true_and]
    exact ⟨pl.bytes, by simpa [hposl] using pr.bytes⟩
  · simp only [List.length_cons, List.length_append, lenl, lenr, Shape.size]; omega
  · intro n hn
    simp only [List.mem_cons, List.mem_append] at hn
    rcases hn with rfl | hn | hn
    · exact ⟨internalNode_ok _ _ _, rfl⟩
    · exact okl n hn
    · exact okr n hn
  · simpa using hroom
  · simp [hseenr, hseenl, Shape.symbols, List.reverse_append, List.append_assoc]
  · refine List.nodup_append.2 ⟨pl.distinct, pr.distinct, fun a ha b hb hab => ?_⟩
    subst hab
    exact hfresh a hb (by simp [ha])
  · intro sym hs
    simp only [Shape.symbols, List.mem_append] at hs
    rcases hs with hs | hs
    · exact pl.fresh sym hs
    · exact fun h => hfresh sym hs (by simp [h])
  · refine ⟨internalNode hl hr 0#40, List.range' (st.nodes.length + 1) l.size,
      List.range' st₁.nodes.length r.size, ?_, rfl, ?_, ?_, ?_⟩
    · rw [e, List.getElem?_set_self (by omega)]
    · rw [e, len₁, Shape.size, Nat.add_comm 1, List.range'_succ, ← List.range'_append_1]
    · have sp := pl.spans.append newr
      simp only [List.length_append, List.length_singleton, ← enr] at sp
      exact sp.congr fun i hi => away i (by simp only [List.mem_range'_1] at hi; omega)
    · exact pr.spans.congr fun i hi => away i (by simp only [List.mem_range'_1] at hi; omega)

/-- Soundness: an ok parse has read a descriptor. -/
theorem parseNode_sound {d : Nat → Byte} {m turns : Nat} {st st' : ParseState} {h : Handle}
    (hp : parseNode d m turns st = .ok (h, st')) : ∃ sh, Parsed d m st sh h st' := by
  induction turns generalizing st st' h with
  | zero => simp [parseNode] at hp
  | succ turns ih =>
    simp only [parseNode] at hp
    split at hp
    · simp at hp
    · split at hp
      · simp at hp
      · split at hp
        · next h0 =>
          split at hp
          · simp at hp
          · next l st₁ hl =>
            split at hp
            · simp at hp
            · next r st₂ hr =>
              simp only [Except.ok.injEq, Prod.mk.injEq] at hp
              obtain ⟨rfl, rfl⟩ := hp
              obtain ⟨shl, pl⟩ := ih hl
              obtain ⟨shr, pr⟩ := ih hr
              exact ⟨.node shl shr, Parsed.node h0 pl pr⟩
        · split at hp
          · next h1 =>
            split at hp
            · simp at hp
            · split at hp
              · simp at hp
              · next hs =>
                simp only [Except.ok.injEq, Prod.mk.injEq] at hp
                obtain ⟨rfl, rfl⟩ := hp
                exact ⟨.leaf _, Parsed.leaf (by omega) (by omega) h1 rfl hs⟩
          · simp at hp

/-- Completeness: a descriptor of distinct new symbols parses, where the arena has room for it. -/
theorem parseNode_complete {d : Nat → Byte} {m turns : Nat} {st : ParseState} {sh : Shape}
    (hd : BytesAt d st.pos sh.descriptor) (hm : st.pos + sh.descriptor.length ≤ m)
    (hcap : st.nodes.length + sh.size ≤ Config.nodeCap) (ht : sh.size ≤ turns) (hn : sh.symbols.Nodup)
    (hf : ∀ sym ∈ sh.symbols, sym ∉ st.seen) :
    ∃ h st', parseNode d m turns st = .ok (h, st') ∧ Parsed d m st sh h st' := by
  induction sh generalizing turns st with
  | leaf sym =>
    obtain ⟨turns, rfl⟩ : ∃ k, turns = k + 1 := ⟨turns - 1, by simp only [Shape.size] at ht; omega⟩
    simp only [Shape.descriptor, bytesAt_cons] at hd
    obtain ⟨h0, h1, -⟩ := hd
    simp only [Shape.descriptor, List.length_cons, List.length_nil] at hm
    simp only [Shape.size] at hcap
    have hs : sym ∉ st.seen := hf sym (by simp [Shape.symbols])
    refine ⟨_, _, ?_, Parsed.leaf (by omega) (by omega) h0 h1 hs⟩
    rw [parseNode, if_neg (by omega), if_neg (by omega), if_neg (by rw [h0]; decide), if_pos h0, if_neg (by omega)]
    simp only [h1, hs, if_false]
  | node l r ihl ihr =>
    simp only [Shape.size] at hcap ht
    obtain ⟨turns, rfl⟩ : ∃ k, turns = k + 1 := ⟨turns - 1, by omega⟩
    simp only [Shape.descriptor, bytesAt_cons, bytesAt_append] at hd
    obtain ⟨h0, hdl, hdr⟩ := hd
    simp only [Shape.descriptor, List.length_cons, List.length_append] at hm
    simp only [Shape.symbols, List.nodup_append] at hn
    obtain ⟨hnl, hnr, hne⟩ := hn
    obtain ⟨hl, st₁, el, pl⟩ := ihl (turns := turns)
      (st := { pos := st.pos + 1, nodes := st.nodes ++ [internalNode Config.nil Config.nil 0#40], seen := st.seen })
      hdl (by simp only; omega) (by simp only [List.length_append, List.length_singleton]; omega) (by omega) hnl
      (fun sym hs => hf sym (by simp [Shape.symbols, hs]))
    have hpos : st₁.pos = st.pos + 1 + l.descriptor.length := pl.pos
    obtain ⟨newl, enl, lenl, -⟩ := pl.nodes
    have len₁ : st₁.nodes.length = st.nodes.length + 1 + l.size := by
      rw [enl]; simp only [List.length_append, List.length_singleton, lenl]
    have hseen : st₁.seen = l.symbols.reverse ++ st.seen := pl.seen
    obtain ⟨hr, st₂, er, pr⟩ := ihr (turns := turns) (st := st₁) (by rw [hpos]; exact hdr) (by omega) (by omega) (by omega)
      hnr (fun sym hs => by
        rw [hseen]
        simp only [List.mem_append, List.mem_reverse, not_or]
        exact ⟨fun h => hne sym h sym hs rfl, hf sym (by simp [Shape.symbols, hs])⟩)
    refine ⟨_, _, ?_, Parsed.node h0 pl pr⟩
    rw [parseNode, if_neg (by omega), if_neg (by omega), if_pos h0]
    simp only [el, er]

/-! ### TREE_LOAD's tree -/

/-- What `loadTree` answers for a shape (R156). -/
structure Loaded (sh : Shape) (t : Tree) (leaves : Nat) : Prop where
  shape : t.HasShape (some sh)
  root : t.root = 0#9
  count : t.nodeCount = sh.size
  leaves_eq : leaves = sh.symbols.length
  weights : ∀ n ∈ t.nodes, n.weight = 0#40
  ok : t.Ok
  preorder : Spans t.nodes sh 0#9 (List.range t.nodeCount)

theorem Parsed.loaded {d : Nat → Byte} {m : Nat} {sh : Shape} {h : Handle} {st : ParseState}
    (p : Parsed d m { pos := 0, nodes := [], seen := [] } sh h st) :
    Loaded sh { nodes := st.nodes, root := h, state := rootState st.nodes h } st.seen.length := by
  obtain ⟨new, en, len, ok⟩ := p.nodes
  simp only [List.nil_append] at en
  have hh : h = 0#9 := p.handle
  have sp : Spans st.nodes sh h (List.range st.nodes.length) := by
    have := p.spans
    rwa [en, len, List.range_eq_range', ← en]
  have hseen : st.seen.length = sh.symbols.length := by rw [p.seen]; simp
  have strict : StrictTree st.nodes h := ⟨sh, _, sp, .refl _, p.distinct⟩
  have hcount : st.nodes.length = sh.size := by rw [en, len]
  subst hh
  cases sh with
  | leaf sym =>
    obtain ⟨e, n, hn, hk, hs⟩ := sp
    simp only [rootState, hn, Option.map_some, hk]
    refine ⟨⟨rfl, _, e, n, hn, hk, hs⟩, rfl, hcount, hseen, ?_, ⟨p.room, ?_, strict, rfl, n, ?_, hk⟩, e, n, hn, hk, hs⟩
    · simpa [en] using fun n hn => (ok n hn).2
    · simpa [en] using fun n hn => (ok n hn).1
    · have h1 : st.nodes.length = 1 := hcount
      obtain ⟨a, ha⟩ := List.length_eq_one_iff.1 h1
      rw [ha] at hn ⊢
      simpa using hn
  | node l r =>
    obtain ⟨n, ls, rs, hn, hk, e, hl, hr⟩ := sp
    simp only [rootState, hn, Option.map_some, hk]
    refine ⟨⟨rfl, _, n, ls, rs, hn, hk, e, hl, hr⟩, rfl, hcount, hseen, ?_, ⟨p.room, ?_, strict, n, hn, hk⟩,
      n, ls, rs, hn, hk, e, hl, hr⟩
    · simpa [en] using fun n hn => (ok n hn).2
    · simpa [en] using fun n hn => (ok n hn).1

theorem loadTree_zero (d : Nat → Byte) :
    loadTree d 0 = .ok ({ nodes := [], root := Config.nil, state := .empty }, 0) := by simp [loadTree]

/-- There are 256 symbols (00_scope.md R7: NSYM). -/
theorem length_le_of_nodup {l : List Byte} (h : l.Nodup) : l.length ≤ 256 := by
  have hm : (l.map BitVec.toNat).Nodup := h.map fun _ _ => BitVec.eq_of_toNat_eq
  have hs : l.map BitVec.toNat ⊆ List.range 256 := by
    intro x hx
    obtain ⟨b, -, rfl⟩ := List.mem_map.1 hx
    exact List.mem_range.2 b.isLt
  simpa using (hm.subperm hs).length_le

/-- A descriptor of distinct symbols loads (R156). -/
theorem loadTree_complete {d : Nat → Byte} {sh : Shape} (hd : BytesAt d 0 sh.descriptor) (hn : sh.symbols.Nodup) :
    ∃ t, loadTree d sh.descriptor.length = .ok (t, sh.symbols.length) ∧ Loaded sh t sh.symbols.length := by
  have hcard : sh.symbols.length ≤ 256 := length_le_of_nodup hn
  have hsize := sh.size_eq
  have hlen := sh.length_descriptor
  have hpos := sh.symbols_pos
  obtain ⟨h, st, e, p⟩ := parseNode_complete (d := d) (m := sh.descriptor.length) (turns := Config.nodeCap + 1)
    (st := { pos := 0, nodes := [], seen := [] }) hd (by simp) (by simp [Config.nodeCap]; omega)
    (by simp [Config.nodeCap]; omega) hn (by simp)
  have hseen : st.seen.length = sh.symbols.length := by rw [p.seen]; simp
  have hp : st.pos = sh.descriptor.length := by simpa using p.pos
  refine ⟨_, ?_, hseen ▸ p.loaded⟩
  rw [loadTree, if_neg (by omega), e]
  simp only [hp, lt_self_iff_false, if_false, hseen]

/-- What loads is a descriptor of distinct symbols, or is empty (R156). -/
theorem loadTree_sound {d : Nat → Byte} {m : Nat} {t : Tree} {leaves : Nat} (h : loadTree d m = .ok (t, leaves)) :
    (m = 0 ∧ t = { nodes := [], root := Config.nil, state := .empty } ∧ leaves = 0) ∨
      ∃ sh, m = sh.descriptor.length ∧ BytesAt d 0 sh.descriptor ∧ sh.symbols.Nodup ∧ Loaded sh t leaves := by
  rw [loadTree] at h
  split at h
  · next h0 =>
    simp only [Except.ok.injEq, Prod.mk.injEq] at h
    exact .inl ⟨h0, h.1.symm, h.2.symm⟩
  · right
    split at h
    · simp at h
    · next root st e =>
      split at h
      · simp at h
      · next hpos =>
        obtain ⟨sh, p⟩ := parseNode_sound e
        simp only [Except.ok.injEq, Prod.mk.injEq] at h
        obtain ⟨rfl, rfl⟩ := h
        have hp : st.pos = sh.descriptor.length := by simpa using p.pos
        have hi := p.inside
        exact ⟨sh, by omega, p.bytes, p.distinct, p.loaded⟩

end Sys2Proof.Machine
end

