-- ==== Sys2Proof/Laws/Build.lean ====
section
/-! SUPPORT. The loop of TREE_BUILD (spec 43_tree.md R151, R152): the queue's elements always name disjoint trees that together
use every record allocated, and the pairs run down to one root. -/

namespace Sys2Proof.Machine

/-- The handle a queue element names while TREE_BUILD runs. -/
def Elem.handle (e : Elem) : Handle := e.tag.setWidth 9

/-- The sum of the keys in a queue, as naturals. -/
def keySum (heap : List Elem) : Nat := (heap.map fun e => e.key.toNat).sum

/-- What holds before and after every turn of the loop, `g` giving the tree under each queue element and its handles. -/
structure Building (n total : Nat) (symbols : List Byte) (nodes : List Node) (heap : List Elem)
    (g : Elem → Shape × List Nat) : Prop where
  spans : ∀ e ∈ heap, Spans nodes (g e).1 e.handle (g e).2
  once : (heap.flatMap fun e => (g e).2).Perm (List.range nodes.length)
  symbols : (heap.flatMap fun e => (g e).1.symbols).Perm symbols
  tags : ∀ e ∈ heap, e.tag.toNat < nodes.length
  keys : ∀ e ∈ heap, nodes[e.tag.toNat]?.map Node.weight = some e.key
  total : keySum heap = total
  records : ∀ x ∈ nodes, x.Ok
  sums : ∀ x ∈ nodes, x.kind = .internal → ∃ l r, nodes[x.left.toNat]? = some l ∧ nodes[x.right.toNat]? = some r ∧
    x.weight.toNat = l.weight.toNat + r.weight.toNat
  count : nodes.length + heap.length = 2 * n
  last : heap.length = 1 → ∀ e ∈ heap, e.tag.toNat + 1 = nodes.length

theorem keySum_perm {h h' : List Elem} (p : h.Perm h') : keySum h = keySum h' := (p.map _).sum_eq

theorem Elem.toNat_handle {e : Elem} (h : e.tag.toNat < 512) : e.handle.toNat = e.tag.toNat := by
  simp only [Elem.handle, BitVec.toNat_setWidth]; omega

/-- The two pops of a turn. -/
theorem heapPop_twice {heap : List Elem} (h : 1 < heap.length) :
    ∃ l heap₁ r heap₂, heapPop .min heap = some (l, heap₁) ∧ heapPop .min heap₁ = some (r, heap₂) ∧
      heap.Perm (l :: r :: heap₂) := by
  obtain ⟨l, heap₁, e₁⟩ := heapPop_isSome (p := .min) (h := heap) (by omega)
  have len₁ := heapPop_length e₁
  obtain ⟨r, heap₂, e₂⟩ := heapPop_isSome (p := .min) (h := heap₁) (by omega)
  exact ⟨l, heap₁, r, heap₂, e₁, e₂, (heapPop_perm e₁).trans ((heapPop_perm e₂).cons l)⟩

theorem pairOnce_eq {nodes : List Node} {heap heap₁ heap₂ : List Elem} {l r : Elem}
    (e₁ : heapPop .min heap = some (l, heap₁)) (e₂ : heapPop .min heap₁ = some (r, heap₂)) :
    pairOnce nodes heap =
      some (nodes ++ [internalNode l.handle r.handle (l.key + r.key)],
        heapInsert .min heap₂ { key := l.key + r.key, tag := BitVec.ofNat 16 nodes.length }) := by
  simp only [pairOnce, e₁, e₂, Elem.handle]

/-- One turn keeps what holds (R151). -/
theorem Building.pairOnce {n total : Nat} {symbols : List Byte} {nodes : List Node} {heap : List Elem}
    {g : Elem → Shape × List Nat} (b : Building n total symbols nodes heap g) (hn : n ≤ 256) (ht : total < 2 ^ 40)
    (h : 1 < heap.length) :
    ∃ nodes' heap' g', Machine.pairOnce nodes heap = some (nodes', heap') ∧ Building n total symbols nodes' heap' g' ∧
      heap'.length + 1 = heap.length ∧ nodes <+: nodes' := by
  obtain ⟨l, heap₁, r, heap₂, e₁, e₂, hp⟩ := heapPop_twice h
  have hcount := b.count
  have hlen : heap.length = heap₂.length + 2 := by simpa using hp.length_eq
  have hml : l ∈ heap := hp.mem_iff.2 (by simp)
  have hmr : r ∈ heap := hp.mem_iff.2 (by simp)
  have hm₂ : ∀ e ∈ heap₂, e ∈ heap := fun e he => hp.mem_iff.2 (by simp [he])
  have htl := b.tags l hml
  have htr := b.tags r hmr
  have hhl := Elem.toNat_handle (e := l) (by omega)
  have hhr := Elem.toNat_handle (e := r) (by omega)
  set new : Elem := { key := l.key + r.key, tag := BitVec.ofNat 16 nodes.length } with hnew
  have htag : new.tag.toNat = nodes.length := by simp only [hnew, BitVec.toNat_ofNat]; omega
  have hfresh : ∀ e ∈ heap₂, e ≠ new := by
    intro e he h
    have := b.tags e (hm₂ e he)
    rw [h, htag] at this
    omega
  have hhn : new.handle.toNat = nodes.length := by rw [Elem.toNat_handle (by omega), htag]
  have hsum : keySum heap = l.key.toNat + (r.key.toNat + keySum heap₂) := by
    rw [keySum_perm hp]; simp [keySum]
  have htotal := b.total
  have hkey : new.key.toNat = l.key.toNat + r.key.toNat := by
    simp only [hnew, BitVec.toNat_add]; omega
  set nodes' := nodes ++ [internalNode l.handle r.handle (l.key + r.key)] with hnodes'
  have hlen' : nodes'.length = nodes.length + 1 := by simp [hnodes']
  have hself : nodes'[nodes.length]? = some (internalNode l.handle r.handle (l.key + r.key)) := by simp [hnodes']
  have hold (i : Nat) (hi : i < nodes.length) : nodes'[i]? = nodes[i]? := by
    rw [hnodes', List.getElem?_append_left hi]
  set g' := Function.update g new (.node (g l).1 (g r).1, nodes.length :: ((g l).2 ++ (g r).2)) with hg'
  have g'new : g' new = (.node (g l).1 (g r).1, nodes.length :: ((g l).2 ++ (g r).2)) := by simp [hg']
  have g'old : ∀ e ∈ heap₂, g' e = g e := fun e he => by simp [hg', hfresh e he]
  have hins := heapInsert_perm .min heap₂ new
  have hflat {β : Type} (f : Shape × List Nat → List β) :
      (heap₂.flatMap fun e => f (g' e)) = heap₂.flatMap fun e => f (g e) :=
    List.flatMap_congr fun e he => by rw [g'old e he]
  refine ⟨nodes', heapInsert .min heap₂ new, g', pairOnce_eq e₁ e₂, ?_, by simp; omega, ⟨_, rfl⟩⟩
  constructor
  · intro e he
    rcases List.mem_cons.1 (hins.mem_iff.1 he) with rfl | he
    · rw [g'new]
      refine ⟨_, (g l).2, (g r).2, by rw [hhn]; exact hself, rfl, by rw [hhn], ?_, ?_⟩
      · exact (b.spans l hml).append _
      · exact (b.spans r hmr).append _
    · rw [g'old e he]
      exact (b.spans e (hm₂ e he)).append _
  · refine (List.Perm.flatMap_right _ hins).trans ?_
    rw [List.flatMap_cons, g'new, hflat fun x => x.2, hlen', List.range_succ]
    have := (List.Perm.flatMap_right (fun e => (g e).2) hp).symm.trans b.once
    rw [List.flatMap_cons, List.flatMap_cons, ← List.append_assoc] at this
    exact (this.cons nodes.length).trans (List.perm_append_singleton _ _).symm
  · refine (List.Perm.flatMap_right _ hins).trans ?_
    rw [List.flatMap_cons, g'new, hflat fun x => x.1.symbols]
    have := (List.Perm.flatMap_right (fun e => (g e).1.symbols) hp).symm.trans b.symbols
    rwa [List.flatMap_cons, List.flatMap_cons, ← List.append_assoc] at this
  · intro e he
    rw [hlen']
    rcases List.mem_cons.1 (hins.mem_iff.1 he) with rfl | he
    · rw [htag]; omega
    · exact (b.tags e (hm₂ e he)).trans (by omega)
  · intro e he
    rcases List.mem_cons.1 (hins.mem_iff.1 he) with rfl | he
    · rw [htag, hself]; rfl
    · rw [hold _ (b.tags e (hm₂ e he))]; exact b.keys e (hm₂ e he)
  · rw [keySum_perm hins]
    have : keySum (new :: heap₂) = new.key.toNat + keySum heap₂ := by simp [keySum]
    omega
  · intro x hx
    rcases List.mem_append.1 hx with hx | hx
    · exact b.records x hx
    · rw [List.mem_singleton.1 hx]; exact internalNode_ok _ _ _
  · intro x hx hk
    rcases List.mem_append.1 hx with hx | hx
    · obtain ⟨a, c, ha, hc, hw⟩ := b.sums x hx hk
      exact ⟨a, c, by rw [hold _ (List.getElem?_eq_some_iff.1 ha).1, ha],
        by rw [hold _ (List.getElem?_eq_some_iff.1 hc).1, hc], hw⟩
    · rw [List.mem_singleton.1 hx]
      obtain ⟨a, ha, wa⟩ := Option.map_eq_some_iff.1 (b.keys l hml)
      obtain ⟨c, hc, wc⟩ := Option.map_eq_some_iff.1 (b.keys r hmr)
      refine ⟨a, c, ?_, ?_, ?_⟩
      · simp only [internalNode, hhl]; rw [hold _ htl, ha]
      · simp only [internalNode, hhr]; rw [hold _ htr, hc]
      · rw [wa, wc]; exact hkey
  · simp only [hlen', length_heapInsert]; omega
  · intro h1 e he
    have h0 : heap₂ = [] := List.length_eq_zero_iff.1 (by simpa using h1)
    rcases List.mem_cons.1 (hins.mem_iff.1 he) with rfl | he
    · rw [htag, hlen']
    · simp [h0] at he

/-- The loop runs down to one element (R151). -/
theorem Building.pairAll {n total : Nat} {symbols : List Byte} {turns : Nat} {nodes : List Node} {heap : List Elem}
    {g : Elem → Shape × List Nat} (b : Building n total symbols nodes heap g) (hn : n ≤ 256) (ht : total < 2 ^ 40)
    (h : heap.length ≤ turns + 1) (h0 : 0 < heap.length) :
    ∃ nodes' heap' g', Machine.pairAll turns nodes heap = (nodes', heap') ∧ Building n total symbols nodes' heap' g' ∧
      heap'.length = 1 ∧ nodes <+: nodes' := by
  induction turns generalizing nodes heap g with
  | zero => exact ⟨nodes, heap, g, rfl, b, by omega, List.prefix_rfl⟩
  | succ turns ih =>
    simp only [Machine.pairAll]
    split
    · next h1 =>
      obtain ⟨nodes₁, heap₁, g₁, e, b₁, hl, hpre⟩ := b.pairOnce hn ht h1
      rw [e]
      obtain ⟨nodes₂, heap₂, g₂, e₂, b₂, hl₂, hpre₂⟩ := ih b₁ (by omega) (by omega)
      exact ⟨nodes₂, heap₂, g₂, e₂, b₂, hl₂, hpre.trans hpre₂⟩
    · exact ⟨nodes, heap, g, rfl, b, by omega, List.prefix_rfl⟩

/-! ### The start -/

theorem presentSymbols_nodup (freq : Vector Word 256) : (presentSymbols freq).Nodup := by
  refine List.Nodup.filter _ (List.Nodup.map_on ?_ List.nodup_range)
  intro a ha c hc h
  have := congrArg BitVec.toNat h
  simp only [List.mem_range] at ha hc
  simp only [BitVec.toNat_ofNat] at this
  omega

theorem mem_presentSymbols {freq : Vector Word 256} {sym : Byte} :
    sym ∈ presentSymbols freq ↔ freq[sym.toNat] ≠ 0#32 := by
  simp only [presentSymbols, List.mem_filter, List.mem_map, List.mem_range, bne_iff_ne, and_iff_right_iff_imp]
  exact fun _ => ⟨sym.toNat, sym.isLt, by simp⟩

/-- The leaves go into the queue with their handles as tags. -/
theorem initialHeap_perm (leaves : List Node) :
    (initialHeap leaves).Perm (leaves.zipIdx.map fun x => { key := x.1.weight, tag := BitVec.ofNat 16 x.2 }) := by
  have key (l : List (Node × Nat)) (h : List Elem) :
      (l.foldl (fun h x => heapInsert .min h { key := x.1.weight, tag := BitVec.ofNat 16 x.2 }) h).Perm
        ((l.map fun x => ({ key := x.1.weight, tag := BitVec.ofNat 16 x.2 } : Elem)) ++ h) := by
    induction l generalizing h with
    | nil => exact .refl _
    | cons x l ih =>
      refine (ih _).trans ?_
      refine (List.Perm.append_left _ (heapInsert_perm .min h _)).trans ?_
      exact List.perm_middle
  simpa [initialHeap] using key leaves.zipIdx []

/-- The sum of all counts, which is below 2^40 (R152). -/
def countSum (freq : Vector Word 256) : Nat := ((presentSymbols freq).map fun sym => freq[sym.toNat].toNat).sum

theorem countSum_lt (freq : Vector Word 256) : countSum freq < 2 ^ 40 := by
  have h : ∀ x ∈ (presentSymbols freq).map fun sym => freq[sym.toNat].toNat, x ≤ 2 ^ 32 - 1 := by
    intro x hx
    obtain ⟨s, -, rfl⟩ := List.mem_map.1 hx
    have := freq[s.toNat].isLt
    omega
  have := List.sum_le_card_nsmul _ _ h
  have hl := length_le_of_nodup (presentSymbols_nodup freq)
  simp only [List.length_map, smul_eq_mul] at this
  have h2 : (presentSymbols freq).length * (2 ^ 32 - 1) ≤ 256 * (2 ^ 32 - 1) := Nat.mul_le_mul_right _ hl
  simp only [countSum]
  omega

/-- Leaf j as a queue element. -/
def leafElem (freq : Vector Word 256) (j : Nat) : Elem :=
  { key := freq[((presentSymbols freq).getD j 0#8).toNat].setWidth 40, tag := BitVec.ofNat 16 j }

theorem initialHeap_eq_leafElem (freq : Vector Word 256) :
    (initialHeap (initialLeaves freq (presentSymbols freq))).Perm
      ((List.range (presentSymbols freq).length).map (leafElem freq)) := by
  refine (initialHeap_perm _).trans (List.Perm.of_eq (List.ext_getElem (by simp [initialLeaves]) ?_))
  intro j h₁ h₂
  have hj : j < (presentSymbols freq).length := by simpa using h₂
  simp [initialLeaves, leafElem, leafNode, List.getD_eq_getElem?_getD, hj]

theorem initialLeaves_getElem? (freq : Vector Word 256) {j : Nat} (h : j < (presentSymbols freq).length) :
    (initialLeaves freq (presentSymbols freq))[j]? =
      some (leafNode ((presentSymbols freq).getD j 0#8) (leafElem freq j).key) := by
  simp [initialLeaves, leafElem, List.getD_eq_getElem?_getD, h]

theorem leafElem_toNat_tag (freq : Vector Word 256) {j : Nat} (h : j < (presentSymbols freq).length) :
    (leafElem freq j).tag.toNat = j := by
  have := length_le_of_nodup (presentSymbols_nodup freq)
  simp only [leafElem, BitVec.toNat_ofNat]
  omega

/-- The queue and the arena before the first turn (R151). -/
theorem initial_building (freq : Vector Word 256) (h2 : 2 ≤ (presentSymbols freq).length) :
    Building (presentSymbols freq).length (countSum freq) (presentSymbols freq)
      (initialLeaves freq (presentSymbols freq)) (initialHeap (initialLeaves freq (presentSymbols freq)))
      (fun e => (.leaf ((presentSymbols freq).getD e.tag.toNat 0#8), [e.tag.toNat])) := by
  have hp := initialHeap_eq_leafElem freq
  have hle := length_le_of_nodup (presentSymbols_nodup freq)
  have hlen : (initialLeaves freq (presentSymbols freq)).length = (presentSymbols freq).length := by
    simp [initialLeaves]
  have hmem : ∀ e ∈ initialHeap (initialLeaves freq (presentSymbols freq)),
      ∃ j, j < (presentSymbols freq).length ∧ e = leafElem freq j := by
    intro e he
    obtain ⟨j, hj, rfl⟩ := List.mem_map.1 (hp.mem_iff.1 he)
    exact ⟨j, List.mem_range.1 hj, rfl⟩
  constructor
  · intro e he
    obtain ⟨j, hj, rfl⟩ := hmem e he
    have htag := leafElem_toNat_tag freq hj
    have hh : (leafElem freq j).handle.toNat = j := by rw [Elem.toNat_handle (by omega), htag]
    exact ⟨by rw [hh, htag], _, by rw [hh]; exact initialLeaves_getElem? freq hj, rfl, by rw [htag]; rfl⟩
  · refine (List.Perm.flatMap_right _ hp).trans (List.Perm.of_eq ?_)
    rw [hlen, List.flatMap_map]
    refine (List.flatMap_congr fun j hj => ?_).trans (List.flatMap_singleton' _)
    rw [leafElem_toNat_tag freq (List.mem_range.1 hj)]
  · refine (List.Perm.flatMap_right _ hp).trans (List.Perm.of_eq ?_)
    rw [List.flatMap_map]
    have : (presentSymbols freq) =
        (List.range (presentSymbols freq).length).map fun j => (presentSymbols freq).getD j 0#8 := by
      refine List.ext_getElem (by simp) fun j h₁ h₂ => ?_
      simp [List.getD_eq_getElem?_getD, h₁]
    conv_rhs => rw [this]
    rw [← List.flatMap_pure_eq_map]
    refine List.flatMap_congr fun j hj => ?_
    rw [leafElem_toNat_tag freq (List.mem_range.1 hj)]
    rfl
  · intro e he
    obtain ⟨j, hj, rfl⟩ := hmem e he
    rw [leafElem_toNat_tag freq hj, hlen]
    exact hj
  · intro e he
    obtain ⟨j, hj, rfl⟩ := hmem e he
    rw [leafElem_toNat_tag freq hj, initialLeaves_getElem? freq hj]
    rfl
  · rw [keySum_perm hp, keySum, List.map_map, countSum]
    congr 1
    refine List.ext_getElem (by simp) fun j h₁ h₂ => ?_
    have hj : j < (presentSymbols freq).length := by simpa using h₂
    have := (freq[((presentSymbols freq)[j]).toNat]).isLt
    simp [leafElem, List.getD_eq_getElem?_getD, hj]
    omega
  · intro x hx
    obtain ⟨s, -, rfl⟩ := List.mem_map.1 hx
    exact leafNode_ok _ _
  · intro x hx hk
    obtain ⟨s, -, rfl⟩ := List.mem_map.1 hx
    cases hk
  · rw [hp.length_eq, hlen]
    simp
    omega
  · intro h1
    have := hp.length_eq
    simp at this
    omega

/-- The tree TREE_BUILD leaves when two or more symbols are present (R151, R152). -/
structure Built (freq : Vector Word 256) (t : Tree) (sh : Shape) : Prop where
  shape : t.HasShape (some sh)
  ok : t.Ok
  size : sh.size = t.nodeCount
  symbols : sh.symbols.Perm (presentSymbols freq)
  multi : t.state = .multi
  count : t.nodeCount + 1 = 2 * (presentSymbols freq).length
  root : t.root.toNat + 2 = 2 * (presentSymbols freq).length
  leaves : initialLeaves freq (presentSymbols freq) <+: t.nodes
  sums : ∀ x ∈ t.nodes, x.kind = .internal → ∃ l r, t.node? x.left = some l ∧ t.node? x.right = some r ∧
    x.weight.toNat = l.weight.toNat + r.weight.toNat
  weight : (t.node? t.root).map (fun x => x.weight.toNat) = some (countSum freq)

theorem buildTree_empty {freq : Vector Word 256} (h : (presentSymbols freq).length = 0) :
    buildTree freq = ({ nodes := [], root := Config.nil, state := .empty }, []) := by
  simp [buildTree, h]

theorem buildTree_single {freq : Vector Word 256} (h : (presentSymbols freq).length = 1) :
    buildTree freq =
      ({ nodes := initialLeaves freq (presentSymbols freq), root := 0#9, state := .single }, []) := by
  simp [buildTree, h]

theorem buildTree_multi {freq : Vector Word 256} (h : 2 ≤ (presentSymbols freq).length) :
    (buildTree freq).2 = [] ∧ ∃ sh, Built freq (buildTree freq).1 sh := by
  have hle := length_le_of_nodup (presentSymbols_nodup freq)
  have b₀ := initial_building freq h
  have hl₀ := b₀.count
  have hlen₀ : (initialLeaves freq (presentSymbols freq)).length = (presentSymbols freq).length := by
    simp [initialLeaves]
  obtain ⟨nodes, heap, g, e, b, h1, hpre⟩ :=
    b₀.pairAll hle (countSum_lt freq) (turns := (presentSymbols freq).length) (by omega) (by omega)
  obtain ⟨top, rfl⟩ := List.length_eq_one_iff.1 h1
  have hb : buildTree freq = ({ nodes := nodes, root := top.handle, state := .multi }, []) := by
    simp only [buildTree]
    split
    · omega
    · omega
    · simp only [e, heapPop, List.getLast?_nil, Elem.handle]
  have hlast := b.last h1 top (by simp)
  have hcount := b.count
  simp only [List.length_singleton] at hcount
  have hh : top.handle.toNat = top.tag.toNat := Elem.toNat_handle (by omega)
  have hspan := b.spans top (by simp)
  have honce := b.once
  have hsym := b.symbols
  have hsize := hspan.size_eq_of_perm (by simpa using honce)
  simp only [List.flatMap_cons, List.flatMap_nil, List.append_nil] at honce hsym
  rw [hb]
  refine ⟨rfl, (g top).1, ?_⟩
  have h3 : ∃ l r, (g top).1 = .node l r := by
    match hg : (g top).1 with
    | .node l r => exact ⟨l, r, rfl⟩
    | .leaf s =>
      rw [hg] at hsize
      simp [Shape.size] at hsize
      omega
  obtain ⟨l, r, hlr⟩ := h3
  have hroot : ∃ n, nodes[top.handle.toNat]? = some n ∧ n.kind = .internal := by
    rw [hlr] at hspan
    obtain ⟨n, _, _, e, k, _⟩ := hspan
    exact ⟨n, e, k⟩
  refine ⟨?_, ⟨?_, b.records, ?_⟩, hsize, hsym, rfl, ?_, ?_, hpre, b.sums, ?_⟩
  · rw [hlr] at hspan ⊢
    exact ⟨rfl, _, hspan⟩
  · simp only [Tree.nodeCount, Config.nodeCap]; omega
  · exact ⟨⟨_, _, hspan, honce, hsym.nodup_iff.2 (presentSymbols_nodup freq)⟩, hroot⟩
  · simp only [Tree.nodeCount]; omega
  · show top.handle.toNat + 2 = _
    rw [hh]; omega
  · have hk := b.keys top (by simp)
    have ht := b.total
    simp only [keySum, List.map_cons, List.map_nil, List.sum_cons, List.sum_nil, Nat.add_zero] at ht
    simp only [Tree.node?, hh]
    obtain ⟨x, hx, hw⟩ := Option.map_eq_some_iff.1 hk
    rw [hx, Option.map_some, hw, ht]

end Sys2Proof.Machine
end

