-- ==== Sys2Proof/Laws/Codes.lean ====
section
/-! SUPPORT. The code table (spec 10_state.md R49, 44_code.md R180-R183): what a derived table holds, and prefix-freedom. -/

namespace Sys2Proof.Machine

/-! ### One entry -/

theorem orBits_getLsbD {w : Nat} (f : Nat → Bool) (n b : Nat) (hn : n ≤ w) (hb : b < w) :
    ((List.range n).foldl (fun (acc : BitVec w) j => if f j then acc ||| BitVec.twoPow w (w - 1 - j) else acc) 0#w).getLsbD b =
      (decide (w - 1 - b < n) && f (w - 1 - b)) := by
  induction n with
  | zero => simp
  | succ n ih =>
    have ih := ih (by omega)
    rw [List.range_succ, List.foldl_append]
    simp only [List.foldl_cons, List.foldl_nil]
    split
    · next hf =>
      rw [BitVec.getLsbD_or, ih, BitVec.getLsbD_twoPow]
      by_cases hbn : w - 1 - b = n
      · have : w - 1 - n = b := by omega
        simp [hbn, hf, this, hb]
      · have h1 : ¬(w - 1 - n = b) := by omega
        have h2 : (w - 1 - b < n + 1) ↔ (w - 1 - b < n) := by omega
        simp [h1, h2]
    · next hf =>
      rw [ih]
      by_cases hbn : w - 1 - b = n
      · simp [hbn, hf]
      · have h2 : (w - 1 - b < n + 1) ↔ (w - 1 - b < n) := by omega
        simp [h2]

/-- The bits of VAL's form of a code (R49, R180). -/
theorem codeValue_getLsbD (c : List Bool) {b : Nat} (hb : b < 256) : (codeValue c).getLsbD b = c.getD (255 - b) false := by
  have := orBits_getLsbD (w := 256) (fun j => c.getD j false) 256 b (le_refl _) hb
  simp only [codeValue]
  rw [this]
  simp
  intro; omega

theorem toNat_ne {a b : Byte} (h : a ≠ b) : a.toNat ≠ b.toNat := fun e => h (BitVec.eq_of_toNat_eq e)

@[simp] theorem assign_valid (t : CodeTable) (sym : Byte) (c : List Bool) : (t.assign sym c).valid = t.valid := rfl

@[simp] theorem assign_len_self (t : CodeTable) (sym : Byte) (c : List Bool) :
    (t.assign sym c).len[sym.toNat] = BitVec.ofNat 8 c.length := by simp [CodeTable.assign]

theorem assign_len_other (t : CodeTable) {sym other : Byte} (c : List Bool) (h : other ≠ sym) :
    (t.assign sym c).len[other.toNat] = t.len[other.toNat] := by
  simp [CodeTable.assign, (toNat_ne h).symm]

@[simp] theorem assign_val_self (t : CodeTable) (sym : Byte) (c : List Bool) :
    (t.assign sym c).val[sym.toNat] = codeValue c := by simp [CodeTable.assign]

theorem assign_val_other (t : CodeTable) {sym other : Byte} (c : List Bool) (h : other ≠ sym) :
    (t.assign sym c).val[other.toNat] = t.val[other.toNat] := by
  simp [CodeTable.assign, (toNat_ne h).symm]

/-- The table's own reading of a symbol's bits is what it holds. -/
theorem CodeTable.has_code (c : CodeTable) (sym : Byte) : c.Has sym (c.code sym) :=
  ⟨by simp [CodeTable.code], fun j h => by simp [CodeTable.code]⟩

theorem CodeTable.Has.eq_code {c : CodeTable} {sym : Byte} {bits : List Bool} (h : c.Has sym bits) : bits = c.code sym := by
  refine List.ext_getElem (h.1.trans (c.has_code sym).1.symm) fun j h₁ h₂ => ?_
  rw [h.2 j h₁, (c.has_code sym).2 j h₂]

/-! ### The whole table -/

/-- A table after a list of assignments to distinct symbols (R180). -/
theorem assignAll_spec (l : List (Byte × List Bool)) (t : CodeTable) (hn : (l.map Prod.fst).Nodup) :
    let u := l.foldl (fun c p => c.assign p.1 p.2) t
    u.valid = t.valid ∧
      (∀ p ∈ l, u.len[p.1.toNat] = BitVec.ofNat 8 p.2.length ∧ u.val[p.1.toNat] = codeValue p.2) ∧
      ∀ sym : Byte, sym ∉ l.map Prod.fst → u.len[sym.toNat] = t.len[sym.toNat] ∧ u.val[sym.toNat] = t.val[sym.toNat] := by
  induction l generalizing t with
  | nil => simp
  | cons p l ih =>
    rw [List.map_cons, List.nodup_cons] at hn
    obtain ⟨hv, hin, hout⟩ := ih (t.assign p.1 p.2) hn.2
    refine ⟨hv, ?_, ?_⟩
    · intro q hq
      rcases List.mem_cons.1 hq with rfl | hq
      · obtain ⟨a, b⟩ := hout q.1 hn.1
        exact ⟨by rw [List.foldl_cons, a, assign_len_self], by rw [List.foldl_cons, b, assign_val_self]⟩
      · exact hin q hq
    · intro sym hs
      rw [List.map_cons, List.mem_cons, not_or] at hs
      obtain ⟨a, b⟩ := hout sym hs.2
      exact ⟨by rw [List.foldl_cons, a, assign_len_other _ _ hs.1], by rw [List.foldl_cons, b, assign_val_other _ _ hs.1]⟩

/-- Every path is shorter than 256 bits, so LEN holds its length (R152, R182). -/
theorem Shape.codes_length {sh : Shape} (hn : sh.symbols.Nodup) : ∀ p ∈ sh.codes, 1 ≤ p.2.length ∧ p.2.length ≤ 255 := by
  have hle := length_le_of_nodup hn
  match sh with
  | .leaf sym => simp [Shape.codes]
  | .node l r =>
    intro p hp
    refine ⟨?_, ?_⟩
    · simp only [Shape.codes, Shape.paths, List.mem_append, List.mem_map] at hp
      rcases hp with ⟨q, -, rfl⟩ | ⟨q, -, rfl⟩ <;> simp
    · have := Shape.length_path_lt _ p hp
      omega

/-- What a table derived from a tree of this shape holds (R181). -/
structure Derives (sh : Option Shape) (c : CodeTable) : Prop where
  valid : c.valid = true
  coded : ∀ x ∈ sh, ∀ p ∈ x.codes, c.len[p.1.toNat] = BitVec.ofNat 8 p.2.length ∧ c.val[p.1.toNat] = codeValue p.2
  others : ∀ sym : Byte, (∀ x ∈ sh, sym ∉ x.symbols) → c.len[sym.toNat] = 0#8 ∧ c.val[sym.toNat] = 0#256

theorem deriveCodes_spec {t : Tree} {sh : Option Shape} (h : t.HasShape sh) (hsz : ∀ x ∈ sh, x.size = t.nodeCount)
    (hn : ∀ x ∈ sh, x.symbols.Nodup) : Derives sh (deriveCodes t) := by
  have ha := Tree.assignments_of_shape h hsz
  have hd : deriveCodes t = ((sh.map Shape.codes).getD []).foldl (fun c p => c.assign p.1 p.2)
      { valid := true, len := Vector.replicate 256 0#8, val := Vector.replicate 256 0#256 } := by
    rw [← ha]; rfl
  rw [hd]
  cases sh with
  | none => exact ⟨rfl, by simp, fun sym _ => by simp⟩
  | some x =>
    have hn' : (x.codes.map Prod.fst).Nodup := by rw [Shape.codes_symbols]; exact hn x rfl
    obtain ⟨hv, hin, hout⟩ := assignAll_spec x.codes
      { valid := true, len := Vector.replicate 256 0#8, val := Vector.replicate 256 0#256 } hn'
    refine ⟨hv, ?_, ?_⟩
    · rintro y ⟨⟩ p hp
      exact hin p hp
    · intro sym hs
      have := hout sym (by rw [Shape.codes_symbols]; exact hs x rfl)
      simpa using this

/-- The table holds a coded symbol's path. -/
theorem Derives.has {x : Shape} {c : CodeTable} (d : Derives (some x) c) (hn : x.symbols.Nodup) {p : Byte × List Bool}
    (hp : p ∈ x.codes) : c.Has p.1 p.2 := by
  obtain ⟨hl, hv⟩ := d.coded x rfl p hp
  obtain ⟨h1, h2⟩ := Shape.codes_length hn p hp
  refine ⟨?_, ?_⟩
  · rw [hl, BitVec.toNat_ofNat]; omega
  · intro j hj
    rw [hv, codeValue_getLsbD _ (by omega)]
    have : 255 - (255 - j) = j := by omega
    rw [this, List.getD_eq_getElem?_getD, List.getElem?_eq_getElem hj, Option.getD_some]

/-- A symbol that is no leaf holds no code. -/
theorem Derives.has_nil {sh : Option Shape} {c : CodeTable} (d : Derives sh c) {sym : Byte}
    (h : ∀ x ∈ sh, sym ∉ x.symbols) : c.Has sym [] := by
  refine ⟨?_, by simp⟩
  rw [(d.others sym h).1]; rfl

/-! ### Prefix-freedom -/

/-- No path leads through another leaf (R182). -/
theorem Shape.paths_prefixFree {sh : Shape} : ∀ p ∈ sh.paths, ∀ q ∈ sh.paths, p.2 <+: q.2 → p.2 = q.2 := by
  induction sh with
  | leaf sym => simp [Shape.paths]
  | node l r ihl ihr =>
    intro p hp q hq h
    simp only [Shape.paths, List.mem_append, List.mem_map] at hp hq
    rcases hp with ⟨p, hp, rfl⟩ | ⟨p, hp, rfl⟩ <;> rcases hq with ⟨q, hq, rfl⟩ | ⟨q, hq, rfl⟩
    · simp only [List.cons_prefix_cons, true_and] at h
      exact congrArg (List.cons false) (ihl p hp q hq h)
    · simp [List.cons_prefix_cons] at h
    · simp [List.cons_prefix_cons] at h
    · simp only [List.cons_prefix_cons, true_and] at h
      exact congrArg (List.cons true) (ihr p hp q hq h)

/-- Two leaves have two paths. -/
theorem Shape.paths_snd_nodup (sh : Shape) : (sh.paths.map Prod.snd).Nodup := by
  induction sh with
  | leaf sym => simp [Shape.paths]
  | node l r ihl ihr =>
    simp only [Shape.paths, List.map_append, List.map_map]
    refine List.Nodup.append ?_ ?_ ?_
    · exact (ihl.map fun a b h => by simpa using h : ((l.paths.map Prod.snd).map (List.cons false)).Nodup) |> fun h => by
        simpa [List.map_map, Function.comp_def] using h
    · exact (ihr.map fun a b h => by simpa using h : ((r.paths.map Prod.snd).map (List.cons true)).Nodup) |> fun h => by
        simpa [List.map_map, Function.comp_def] using h
    · intro x hx hy
      simp only [List.mem_map, Function.comp_apply] at hx hy
      obtain ⟨a, -, rfl⟩ := hx
      obtain ⟨b, -, h⟩ := hy
      simp at h

/-- The Kraft sum of a tree's paths, scaled by a power of two no path is longer than (R182). -/
theorem Shape.kraft {sh : Shape} {n : Nat} (h : ∀ p ∈ sh.paths, p.2.length ≤ n) :
    (sh.paths.map fun p => 2 ^ (n - p.2.length)).sum = 2 ^ n := by
  induction sh generalizing n with
  | leaf sym => simp [Shape.paths]
  | node l r ihl ihr =>
    have hn : 0 < n := by
      match hl : l.paths with
      | [] => have := l.paths_symbols; have := l.symbols_pos; simp_all
      | q :: _ =>
        have := h (q.1, false :: q.2) (by simp [Shape.paths, hl])
        simp at this
        omega
    obtain ⟨m, rfl⟩ : ∃ m, n = m + 1 := ⟨n - 1, by omega⟩
    have hl := ihl (n := m) fun p hp => by
      have := h (p.1, false :: p.2) (by simp only [Shape.paths, List.mem_append, List.mem_map]; exact .inl ⟨p, hp, rfl⟩)
      simpa using this
    have hr := ihr (n := m) fun p hp => by
      have := h (p.1, true :: p.2) (by simp only [Shape.paths, List.mem_append, List.mem_map]; exact .inr ⟨p, hp, rfl⟩)
      simpa using this
    simp only [Shape.paths, List.map_append, List.map_map, List.sum_append, Function.comp_def, List.length_cons,
      Nat.add_sub_add_right, hl, hr]
    omega

end Sys2Proof.Machine
end

