-- ==== Sys2Proof/Laws/State.lean ====
section
/-! SUPPORT. What each named update of State does to each field: one lemma a field, true by unfolding, so that no later proof
unfolds a record update. -/

namespace Sys2Proof.Machine

/-! ### `State.complete` -/

@[simp] theorem State.complete_arg (s : State) : s.complete.arg = s.arg := rfl
@[simp] theorem State.complete_res (s : State) : s.complete.res = s.res := rfl
@[simp] theorem State.complete_errInfo0 (s : State) : s.complete.errInfo0 = s.errInfo0 := rfl
@[simp] theorem State.complete_errInfo1 (s : State) : s.complete.errInfo1 = s.errInfo1 := rfl
@[simp] theorem State.complete_lastCmd (s : State) : s.complete.lastCmd = s.lastCmd := rfl
@[simp] theorem State.complete_status (s : State) :
    s.complete.status = { s.status with errCode := .ok, busy := false, done := true } := rfl
@[simp] theorem State.complete_irqEn (s : State) : s.complete.irqEn = s.irqEn := rfl
@[simp] theorem State.complete_lcmd (s : State) : s.complete.lcmd = s.lcmd := rfl
@[simp] theorem State.complete_larg (s : State) : s.complete.larg = s.larg := rfl
@[simp] theorem State.complete_freq (s : State) : s.complete.freq = s.freq := rfl
@[simp] theorem State.complete_queue (s : State) : s.complete.queue = s.queue := rfl
@[simp] theorem State.complete_tree (s : State) : s.complete.tree = s.tree := rfl
@[simp] theorem State.complete_codes (s : State) : s.complete.codes = s.codes := rfl
@[simp] theorem State.complete_dmem (s : State) : s.complete.dmem = s.dmem := rfl
@[simp] theorem State.complete_dmemLast (s : State) : s.complete.dmemLast = s.dmemLast := rfl
@[simp] theorem State.complete_inputs (s : State) : s.complete.inputs = s.inputs := rfl
@[simp] theorem State.complete_replies (s : State) : s.complete.replies = s.replies := rfl
@[simp] theorem State.complete_draws (s : State) : s.complete.draws = s.draws := rfl

/-! ### `State.fail` -/

@[simp] theorem State.fail_arg (s : State) (e : Raise) : (s.fail e).arg = s.arg := rfl
@[simp] theorem State.fail_res (s : State) (e : Raise) : (s.fail e).res = s.res := rfl
@[simp] theorem State.fail_errInfo0 (s : State) (e : Raise) : (s.fail e).errInfo0 = e.info0 := rfl
@[simp] theorem State.fail_errInfo1 (s : State) (e : Raise) : (s.fail e).errInfo1 = e.info1 := rfl
@[simp] theorem State.fail_lastCmd (s : State) (e : Raise) : (s.fail e).lastCmd = s.lastCmd := rfl
@[simp] theorem State.fail_status (s : State) (e : Raise) :
    (s.fail e).status = { s.status with errCode := e.code, err := true, busy := false, done := true } := rfl
@[simp] theorem State.fail_irqEn (s : State) (e : Raise) : (s.fail e).irqEn = s.irqEn := rfl
@[simp] theorem State.fail_lcmd (s : State) (e : Raise) : (s.fail e).lcmd = s.lcmd := rfl
@[simp] theorem State.fail_larg (s : State) (e : Raise) : (s.fail e).larg = s.larg := rfl
@[simp] theorem State.fail_freq (s : State) (e : Raise) : (s.fail e).freq = s.freq := rfl
@[simp] theorem State.fail_queue (s : State) (e : Raise) : (s.fail e).queue = s.queue := rfl
@[simp] theorem State.fail_tree (s : State) (e : Raise) : (s.fail e).tree = s.tree := rfl
@[simp] theorem State.fail_codes (s : State) (e : Raise) : (s.fail e).codes = s.codes := rfl
@[simp] theorem State.fail_dmem (s : State) (e : Raise) : (s.fail e).dmem = s.dmem := rfl
@[simp] theorem State.fail_dmemLast (s : State) (e : Raise) : (s.fail e).dmemLast = s.dmemLast := rfl
@[simp] theorem State.fail_inputs (s : State) (e : Raise) : (s.fail e).inputs = s.inputs := rfl
@[simp] theorem State.fail_replies (s : State) (e : Raise) : (s.fail e).replies = s.replies := rfl
@[simp] theorem State.fail_draws (s : State) (e : Raise) : (s.fail e).draws = s.draws := rfl

/-! ### `State.accept` -/

@[simp] theorem State.accept_arg (s : State) (w : Word) : (s.accept w).arg = s.arg := rfl
@[simp] theorem State.accept_res (s : State) (w : Word) : (s.accept w).res = s.res := rfl
@[simp] theorem State.accept_errInfo0 (s : State) (w : Word) : (s.accept w).errInfo0 = s.errInfo0 := rfl
@[simp] theorem State.accept_errInfo1 (s : State) (w : Word) : (s.accept w).errInfo1 = s.errInfo1 := rfl
@[simp] theorem State.accept_lastCmd (s : State) (w : Word) : (s.accept w).lastCmd = w := rfl
@[simp] theorem State.accept_status (s : State) (w : Word) :
    (s.accept w).status = { s.status with busy := true, done := false, err := false, errCode := .ok } := rfl
@[simp] theorem State.accept_irqEn (s : State) (w : Word) : (s.accept w).irqEn = s.irqEn := rfl
@[simp] theorem State.accept_lcmd (s : State) (w : Word) : (s.accept w).lcmd = w := rfl
@[simp] theorem State.accept_larg (s : State) (w : Word) : (s.accept w).larg = s.arg := rfl
@[simp] theorem State.accept_freq (s : State) (w : Word) : (s.accept w).freq = s.freq := rfl
@[simp] theorem State.accept_queue (s : State) (w : Word) : (s.accept w).queue = s.queue := rfl
@[simp] theorem State.accept_tree (s : State) (w : Word) : (s.accept w).tree = s.tree := rfl
@[simp] theorem State.accept_codes (s : State) (w : Word) : (s.accept w).codes = s.codes := rfl
@[simp] theorem State.accept_dmem (s : State) (w : Word) : (s.accept w).dmem = s.dmem := rfl
@[simp] theorem State.accept_dmemLast (s : State) (w : Word) : (s.accept w).dmemLast = s.dmemLast := rfl
@[simp] theorem State.accept_inputs (s : State) (w : Word) : (s.accept w).inputs = s.inputs := rfl
@[simp] theorem State.accept_replies (s : State) (w : Word) : (s.accept w).replies = s.replies := rfl
@[simp] theorem State.accept_draws (s : State) (w : Word) : (s.accept w).draws = s.draws := rfl

/-! ### `State.memWrite` -/

@[simp] theorem State.memWrite_arg (s : State) (st : Store) : (s.memWrite st).arg = s.arg := rfl
@[simp] theorem State.memWrite_res (s : State) (st : Store) : (s.memWrite st).res = s.res := rfl
@[simp] theorem State.memWrite_errInfo0 (s : State) (st : Store) : (s.memWrite st).errInfo0 = s.errInfo0 := rfl
@[simp] theorem State.memWrite_errInfo1 (s : State) (st : Store) : (s.memWrite st).errInfo1 = s.errInfo1 := rfl
@[simp] theorem State.memWrite_lastCmd (s : State) (st : Store) : (s.memWrite st).lastCmd = s.lastCmd := rfl
@[simp] theorem State.memWrite_status (s : State) (st : Store) : (s.memWrite st).status = s.status := rfl
@[simp] theorem State.memWrite_irqEn (s : State) (st : Store) : (s.memWrite st).irqEn = s.irqEn := rfl
@[simp] theorem State.memWrite_lcmd (s : State) (st : Store) : (s.memWrite st).lcmd = s.lcmd := rfl
@[simp] theorem State.memWrite_larg (s : State) (st : Store) : (s.memWrite st).larg = s.larg := rfl
@[simp] theorem State.memWrite_freq (s : State) (st : Store) : (s.memWrite st).freq = s.freq := rfl
@[simp] theorem State.memWrite_queue (s : State) (st : Store) : (s.memWrite st).queue = s.queue := rfl
@[simp] theorem State.memWrite_tree (s : State) (st : Store) : (s.memWrite st).tree = s.tree := rfl
@[simp] theorem State.memWrite_codes (s : State) (st : Store) : (s.memWrite st).codes = s.codes := rfl
@[simp] theorem State.memWrite_dmem (s : State) (st : Store) :
    (s.memWrite st).dmem = s.dmem.putBytes st.base st.bytes := rfl
@[simp] theorem State.memWrite_dmemLast (s : State) (st : Store) : (s.memWrite st).dmemLast = s.dmemLast := rfl
@[simp] theorem State.memWrite_inputs (s : State) (st : Store) : (s.memWrite st).inputs = s.inputs := rfl
@[simp] theorem State.memWrite_replies (s : State) (st : Store) : (s.memWrite st).replies = s.replies := rfl
@[simp] theorem State.memWrite_draws (s : State) (st : Store) : (s.memWrite st).draws = s.draws := rfl

/-! ### `State.setRes` -/

@[simp] theorem State.setRes_arg (s : State) (i : Fin 4) (v : Word) : (s.setRes i v).arg = s.arg := rfl
@[simp] theorem State.setRes_res (s : State) (i : Fin 4) (v : Word) : (s.setRes i v).res = s.res.set i v := rfl
@[simp] theorem State.setRes_errInfo0 (s : State) (i : Fin 4) (v : Word) : (s.setRes i v).errInfo0 = s.errInfo0 := rfl
@[simp] theorem State.setRes_errInfo1 (s : State) (i : Fin 4) (v : Word) : (s.setRes i v).errInfo1 = s.errInfo1 := rfl
@[simp] theorem State.setRes_lastCmd (s : State) (i : Fin 4) (v : Word) : (s.setRes i v).lastCmd = s.lastCmd := rfl
@[simp] theorem State.setRes_status (s : State) (i : Fin 4) (v : Word) : (s.setRes i v).status = s.status := rfl
@[simp] theorem State.setRes_irqEn (s : State) (i : Fin 4) (v : Word) : (s.setRes i v).irqEn = s.irqEn := rfl
@[simp] theorem State.setRes_lcmd (s : State) (i : Fin 4) (v : Word) : (s.setRes i v).lcmd = s.lcmd := rfl
@[simp] theorem State.setRes_larg (s : State) (i : Fin 4) (v : Word) : (s.setRes i v).larg = s.larg := rfl
@[simp] theorem State.setRes_freq (s : State) (i : Fin 4) (v : Word) : (s.setRes i v).freq = s.freq := rfl
@[simp] theorem State.setRes_queue (s : State) (i : Fin 4) (v : Word) : (s.setRes i v).queue = s.queue := rfl
@[simp] theorem State.setRes_tree (s : State) (i : Fin 4) (v : Word) : (s.setRes i v).tree = s.tree := rfl
@[simp] theorem State.setRes_codes (s : State) (i : Fin 4) (v : Word) : (s.setRes i v).codes = s.codes := rfl
@[simp] theorem State.setRes_dmem (s : State) (i : Fin 4) (v : Word) : (s.setRes i v).dmem = s.dmem := rfl
@[simp] theorem State.setRes_dmemLast (s : State) (i : Fin 4) (v : Word) : (s.setRes i v).dmemLast = s.dmemLast := rfl
@[simp] theorem State.setRes_inputs (s : State) (i : Fin 4) (v : Word) : (s.setRes i v).inputs = s.inputs := rfl
@[simp] theorem State.setRes_replies (s : State) (i : Fin 4) (v : Word) : (s.setRes i v).replies = s.replies := rfl
@[simp] theorem State.setRes_draws (s : State) (i : Fin 4) (v : Word) : (s.setRes i v).draws = s.draws := rfl

/-! ### `State.setQueue` -/

@[simp] theorem State.setQueue_arg (s : State) (q : Queue) : (s.setQueue q).arg = s.arg := rfl
@[simp] theorem State.setQueue_res (s : State) (q : Queue) : (s.setQueue q).res = s.res := rfl
@[simp] theorem State.setQueue_errInfo0 (s : State) (q : Queue) : (s.setQueue q).errInfo0 = s.errInfo0 := rfl
@[simp] theorem State.setQueue_errInfo1 (s : State) (q : Queue) : (s.setQueue q).errInfo1 = s.errInfo1 := rfl
@[simp] theorem State.setQueue_lastCmd (s : State) (q : Queue) : (s.setQueue q).lastCmd = s.lastCmd := rfl
@[simp] theorem State.setQueue_status (s : State) (q : Queue) : (s.setQueue q).status = s.status := rfl
@[simp] theorem State.setQueue_irqEn (s : State) (q : Queue) : (s.setQueue q).irqEn = s.irqEn := rfl
@[simp] theorem State.setQueue_lcmd (s : State) (q : Queue) : (s.setQueue q).lcmd = s.lcmd := rfl
@[simp] theorem State.setQueue_larg (s : State) (q : Queue) : (s.setQueue q).larg = s.larg := rfl
@[simp] theorem State.setQueue_freq (s : State) (q : Queue) : (s.setQueue q).freq = s.freq := rfl
@[simp] theorem State.setQueue_queue (s : State) (q : Queue) : (s.setQueue q).queue = q := rfl
@[simp] theorem State.setQueue_tree (s : State) (q : Queue) : (s.setQueue q).tree = s.tree := rfl
@[simp] theorem State.setQueue_codes (s : State) (q : Queue) : (s.setQueue q).codes = s.codes := rfl
@[simp] theorem State.setQueue_dmem (s : State) (q : Queue) : (s.setQueue q).dmem = s.dmem := rfl
@[simp] theorem State.setQueue_dmemLast (s : State) (q : Queue) : (s.setQueue q).dmemLast = s.dmemLast := rfl
@[simp] theorem State.setQueue_inputs (s : State) (q : Queue) : (s.setQueue q).inputs = s.inputs := rfl
@[simp] theorem State.setQueue_replies (s : State) (q : Queue) : (s.setQueue q).replies = s.replies := rfl
@[simp] theorem State.setQueue_draws (s : State) (q : Queue) : (s.setQueue q).draws = s.draws := rfl

/-! ### `State.setFreq` -/

@[simp] theorem State.setFreq_arg (s : State) (f : Vector Word 256) : (s.setFreq f).arg = s.arg := rfl
@[simp] theorem State.setFreq_res (s : State) (f : Vector Word 256) : (s.setFreq f).res = s.res := rfl
@[simp] theorem State.setFreq_errInfo0 (s : State) (f : Vector Word 256) : (s.setFreq f).errInfo0 = s.errInfo0 := rfl
@[simp] theorem State.setFreq_errInfo1 (s : State) (f : Vector Word 256) : (s.setFreq f).errInfo1 = s.errInfo1 := rfl
@[simp] theorem State.setFreq_lastCmd (s : State) (f : Vector Word 256) : (s.setFreq f).lastCmd = s.lastCmd := rfl
@[simp] theorem State.setFreq_status (s : State) (f : Vector Word 256) : (s.setFreq f).status = s.status := rfl
@[simp] theorem State.setFreq_irqEn (s : State) (f : Vector Word 256) : (s.setFreq f).irqEn = s.irqEn := rfl
@[simp] theorem State.setFreq_lcmd (s : State) (f : Vector Word 256) : (s.setFreq f).lcmd = s.lcmd := rfl
@[simp] theorem State.setFreq_larg (s : State) (f : Vector Word 256) : (s.setFreq f).larg = s.larg := rfl
@[simp] theorem State.setFreq_freq (s : State) (f : Vector Word 256) : (s.setFreq f).freq = f := rfl
@[simp] theorem State.setFreq_queue (s : State) (f : Vector Word 256) : (s.setFreq f).queue = s.queue := rfl
@[simp] theorem State.setFreq_tree (s : State) (f : Vector Word 256) : (s.setFreq f).tree = s.tree := rfl
@[simp] theorem State.setFreq_codes (s : State) (f : Vector Word 256) : (s.setFreq f).codes = s.codes := rfl
@[simp] theorem State.setFreq_dmem (s : State) (f : Vector Word 256) : (s.setFreq f).dmem = s.dmem := rfl
@[simp] theorem State.setFreq_dmemLast (s : State) (f : Vector Word 256) : (s.setFreq f).dmemLast = s.dmemLast := rfl
@[simp] theorem State.setFreq_inputs (s : State) (f : Vector Word 256) : (s.setFreq f).inputs = s.inputs := rfl
@[simp] theorem State.setFreq_replies (s : State) (f : Vector Word 256) : (s.setFreq f).replies = s.replies := rfl
@[simp] theorem State.setFreq_draws (s : State) (f : Vector Word 256) : (s.setFreq f).draws = s.draws := rfl

/-! ### `State.setTree` -/

@[simp] theorem State.setTree_arg (s : State) (t : Tree) : (s.setTree t).arg = s.arg := rfl
@[simp] theorem State.setTree_res (s : State) (t : Tree) : (s.setTree t).res = s.res := rfl
@[simp] theorem State.setTree_errInfo0 (s : State) (t : Tree) : (s.setTree t).errInfo0 = s.errInfo0 := rfl
@[simp] theorem State.setTree_errInfo1 (s : State) (t : Tree) : (s.setTree t).errInfo1 = s.errInfo1 := rfl
@[simp] theorem State.setTree_lastCmd (s : State) (t : Tree) : (s.setTree t).lastCmd = s.lastCmd := rfl
@[simp] theorem State.setTree_status (s : State) (t : Tree) : (s.setTree t).status = s.status := rfl
@[simp] theorem State.setTree_irqEn (s : State) (t : Tree) : (s.setTree t).irqEn = s.irqEn := rfl
@[simp] theorem State.setTree_lcmd (s : State) (t : Tree) : (s.setTree t).lcmd = s.lcmd := rfl
@[simp] theorem State.setTree_larg (s : State) (t : Tree) : (s.setTree t).larg = s.larg := rfl
@[simp] theorem State.setTree_freq (s : State) (t : Tree) : (s.setTree t).freq = s.freq := rfl
@[simp] theorem State.setTree_queue (s : State) (t : Tree) : (s.setTree t).queue = s.queue := rfl
@[simp] theorem State.setTree_tree (s : State) (t : Tree) : (s.setTree t).tree = t := rfl
@[simp] theorem State.setTree_codes (s : State) (t : Tree) :
    (s.setTree t).codes = { s.codes with valid := false } := rfl
@[simp] theorem State.setTree_dmem (s : State) (t : Tree) : (s.setTree t).dmem = s.dmem := rfl
@[simp] theorem State.setTree_dmemLast (s : State) (t : Tree) : (s.setTree t).dmemLast = s.dmemLast := rfl
@[simp] theorem State.setTree_inputs (s : State) (t : Tree) : (s.setTree t).inputs = s.inputs := rfl
@[simp] theorem State.setTree_replies (s : State) (t : Tree) : (s.setTree t).replies = s.replies := rfl
@[simp] theorem State.setTree_draws (s : State) (t : Tree) : (s.setTree t).draws = s.draws := rfl

/-! ### `State.setCodes` -/

@[simp] theorem State.setCodes_arg (s : State) (c : CodeTable) : (s.setCodes c).arg = s.arg := rfl
@[simp] theorem State.setCodes_res (s : State) (c : CodeTable) : (s.setCodes c).res = s.res := rfl
@[simp] theorem State.setCodes_errInfo0 (s : State) (c : CodeTable) : (s.setCodes c).errInfo0 = s.errInfo0 := rfl
@[simp] theorem State.setCodes_errInfo1 (s : State) (c : CodeTable) : (s.setCodes c).errInfo1 = s.errInfo1 := rfl
@[simp] theorem State.setCodes_lastCmd (s : State) (c : CodeTable) : (s.setCodes c).lastCmd = s.lastCmd := rfl
@[simp] theorem State.setCodes_status (s : State) (c : CodeTable) : (s.setCodes c).status = s.status := rfl
@[simp] theorem State.setCodes_irqEn (s : State) (c : CodeTable) : (s.setCodes c).irqEn = s.irqEn := rfl
@[simp] theorem State.setCodes_lcmd (s : State) (c : CodeTable) : (s.setCodes c).lcmd = s.lcmd := rfl
@[simp] theorem State.setCodes_larg (s : State) (c : CodeTable) : (s.setCodes c).larg = s.larg := rfl
@[simp] theorem State.setCodes_freq (s : State) (c : CodeTable) : (s.setCodes c).freq = s.freq := rfl
@[simp] theorem State.setCodes_queue (s : State) (c : CodeTable) : (s.setCodes c).queue = s.queue := rfl
@[simp] theorem State.setCodes_tree (s : State) (c : CodeTable) : (s.setCodes c).tree = s.tree := rfl
@[simp] theorem State.setCodes_codes (s : State) (c : CodeTable) : (s.setCodes c).codes = c := rfl
@[simp] theorem State.setCodes_dmem (s : State) (c : CodeTable) : (s.setCodes c).dmem = s.dmem := rfl
@[simp] theorem State.setCodes_dmemLast (s : State) (c : CodeTable) : (s.setCodes c).dmemLast = s.dmemLast := rfl
@[simp] theorem State.setCodes_inputs (s : State) (c : CodeTable) : (s.setCodes c).inputs = s.inputs := rfl
@[simp] theorem State.setCodes_replies (s : State) (c : CodeTable) : (s.setCodes c).replies = s.replies := rfl
@[simp] theorem State.setCodes_draws (s : State) (c : CodeTable) : (s.setCodes c).draws = s.draws := rfl

/-! ### `State.withInputs` -/

@[simp] theorem State.withInputs_arg (s : State) (l : List Input) : (s.withInputs l).arg = s.arg := rfl
@[simp] theorem State.withInputs_res (s : State) (l : List Input) : (s.withInputs l).res = s.res := rfl
@[simp] theorem State.withInputs_errInfo0 (s : State) (l : List Input) : (s.withInputs l).errInfo0 = s.errInfo0 := rfl
@[simp] theorem State.withInputs_errInfo1 (s : State) (l : List Input) : (s.withInputs l).errInfo1 = s.errInfo1 := rfl
@[simp] theorem State.withInputs_lastCmd (s : State) (l : List Input) : (s.withInputs l).lastCmd = s.lastCmd := rfl
@[simp] theorem State.withInputs_status (s : State) (l : List Input) : (s.withInputs l).status = s.status := rfl
@[simp] theorem State.withInputs_irqEn (s : State) (l : List Input) : (s.withInputs l).irqEn = s.irqEn := rfl
@[simp] theorem State.withInputs_lcmd (s : State) (l : List Input) : (s.withInputs l).lcmd = s.lcmd := rfl
@[simp] theorem State.withInputs_larg (s : State) (l : List Input) : (s.withInputs l).larg = s.larg := rfl
@[simp] theorem State.withInputs_freq (s : State) (l : List Input) : (s.withInputs l).freq = s.freq := rfl
@[simp] theorem State.withInputs_queue (s : State) (l : List Input) : (s.withInputs l).queue = s.queue := rfl
@[simp] theorem State.withInputs_tree (s : State) (l : List Input) : (s.withInputs l).tree = s.tree := rfl
@[simp] theorem State.withInputs_codes (s : State) (l : List Input) : (s.withInputs l).codes = s.codes := rfl
@[simp] theorem State.withInputs_dmem (s : State) (l : List Input) : (s.withInputs l).dmem = s.dmem := rfl
@[simp] theorem State.withInputs_dmemLast (s : State) (l : List Input) : (s.withInputs l).dmemLast = s.dmemLast := rfl
@[simp] theorem State.withInputs_inputs (s : State) (l : List Input) : (s.withInputs l).inputs = l := rfl
@[simp] theorem State.withInputs_replies (s : State) (l : List Input) : (s.withInputs l).replies = s.replies := rfl
@[simp] theorem State.withInputs_draws (s : State) (l : List Input) : (s.withInputs l).draws = s.draws := rfl

/-! ### `State.reply` -/

@[simp] theorem State.reply_arg (s : State) (r : Reply) : (s.reply r).arg = s.arg := rfl
@[simp] theorem State.reply_res (s : State) (r : Reply) : (s.reply r).res = s.res := rfl
@[simp] theorem State.reply_errInfo0 (s : State) (r : Reply) : (s.reply r).errInfo0 = s.errInfo0 := rfl
@[simp] theorem State.reply_errInfo1 (s : State) (r : Reply) : (s.reply r).errInfo1 = s.errInfo1 := rfl
@[simp] theorem State.reply_lastCmd (s : State) (r : Reply) : (s.reply r).lastCmd = s.lastCmd := rfl
@[simp] theorem State.reply_status (s : State) (r : Reply) : (s.reply r).status = s.status := rfl
@[simp] theorem State.reply_irqEn (s : State) (r : Reply) : (s.reply r).irqEn = s.irqEn := rfl
@[simp] theorem State.reply_lcmd (s : State) (r : Reply) : (s.reply r).lcmd = s.lcmd := rfl
@[simp] theorem State.reply_larg (s : State) (r : Reply) : (s.reply r).larg = s.larg := rfl
@[simp] theorem State.reply_freq (s : State) (r : Reply) : (s.reply r).freq = s.freq := rfl
@[simp] theorem State.reply_queue (s : State) (r : Reply) : (s.reply r).queue = s.queue := rfl
@[simp] theorem State.reply_tree (s : State) (r : Reply) : (s.reply r).tree = s.tree := rfl
@[simp] theorem State.reply_codes (s : State) (r : Reply) : (s.reply r).codes = s.codes := rfl
@[simp] theorem State.reply_dmem (s : State) (r : Reply) : (s.reply r).dmem = s.dmem := rfl
@[simp] theorem State.reply_dmemLast (s : State) (r : Reply) : (s.reply r).dmemLast = s.dmemLast := rfl
@[simp] theorem State.reply_inputs (s : State) (r : Reply) : (s.reply r).inputs = s.inputs := rfl
@[simp] theorem State.reply_replies (s : State) (r : Reply) : (s.reply r).replies = r :: s.replies := rfl
@[simp] theorem State.reply_draws (s : State) (r : Reply) : (s.reply r).draws = s.draws := rfl

/-! ### `State.writeStatus` -/

@[simp] theorem State.writeStatus_arg (s : State) (v : Word) : (s.writeStatus v).arg = s.arg := rfl
@[simp] theorem State.writeStatus_res (s : State) (v : Word) : (s.writeStatus v).res = s.res := rfl
@[simp] theorem State.writeStatus_errInfo0 (s : State) (v : Word) : (s.writeStatus v).errInfo0 = s.errInfo0 := rfl
@[simp] theorem State.writeStatus_errInfo1 (s : State) (v : Word) : (s.writeStatus v).errInfo1 = s.errInfo1 := rfl
@[simp] theorem State.writeStatus_lastCmd (s : State) (v : Word) : (s.writeStatus v).lastCmd = s.lastCmd := rfl
@[simp] theorem State.writeStatus_status (s : State) (v : Word) :
    (s.writeStatus v).status =
      { s.status with
        done := s.status.done && !v.getLsbD 1
        err := s.status.err && !v.getLsbD 2
        overrun := s.status.overrun && !v.getLsbD 3 } := rfl
@[simp] theorem State.writeStatus_irqEn (s : State) (v : Word) : (s.writeStatus v).irqEn = s.irqEn := rfl
@[simp] theorem State.writeStatus_lcmd (s : State) (v : Word) : (s.writeStatus v).lcmd = s.lcmd := rfl
@[simp] theorem State.writeStatus_larg (s : State) (v : Word) : (s.writeStatus v).larg = s.larg := rfl
@[simp] theorem State.writeStatus_freq (s : State) (v : Word) : (s.writeStatus v).freq = s.freq := rfl
@[simp] theorem State.writeStatus_queue (s : State) (v : Word) : (s.writeStatus v).queue = s.queue := rfl
@[simp] theorem State.writeStatus_tree (s : State) (v : Word) : (s.writeStatus v).tree = s.tree := rfl
@[simp] theorem State.writeStatus_codes (s : State) (v : Word) : (s.writeStatus v).codes = s.codes := rfl
@[simp] theorem State.writeStatus_dmem (s : State) (v : Word) : (s.writeStatus v).dmem = s.dmem := rfl
@[simp] theorem State.writeStatus_dmemLast (s : State) (v : Word) : (s.writeStatus v).dmemLast = s.dmemLast := rfl
@[simp] theorem State.writeStatus_inputs (s : State) (v : Word) : (s.writeStatus v).inputs = s.inputs := rfl
@[simp] theorem State.writeStatus_replies (s : State) (v : Word) : (s.writeStatus v).replies = s.replies := rfl
@[simp] theorem State.writeStatus_draws (s : State) (v : Word) : (s.writeStatus v).draws = s.draws := rfl

/-! ### `State.overrun` -/

@[simp] theorem State.overrun_arg (s : State) : s.overrun.arg = s.arg := rfl
@[simp] theorem State.overrun_res (s : State) : s.overrun.res = s.res := rfl
@[simp] theorem State.overrun_errInfo0 (s : State) : s.overrun.errInfo0 = s.errInfo0 := rfl
@[simp] theorem State.overrun_errInfo1 (s : State) : s.overrun.errInfo1 = s.errInfo1 := rfl
@[simp] theorem State.overrun_lastCmd (s : State) : s.overrun.lastCmd = s.lastCmd := rfl
@[simp] theorem State.overrun_status (s : State) : s.overrun.status = { s.status with overrun := true } := rfl
@[simp] theorem State.overrun_irqEn (s : State) : s.overrun.irqEn = s.irqEn := rfl
@[simp] theorem State.overrun_lcmd (s : State) : s.overrun.lcmd = s.lcmd := rfl
@[simp] theorem State.overrun_larg (s : State) : s.overrun.larg = s.larg := rfl
@[simp] theorem State.overrun_freq (s : State) : s.overrun.freq = s.freq := rfl
@[simp] theorem State.overrun_queue (s : State) : s.overrun.queue = s.queue := rfl
@[simp] theorem State.overrun_tree (s : State) : s.overrun.tree = s.tree := rfl
@[simp] theorem State.overrun_codes (s : State) : s.overrun.codes = s.codes := rfl
@[simp] theorem State.overrun_dmem (s : State) : s.overrun.dmem = s.dmem := rfl
@[simp] theorem State.overrun_dmemLast (s : State) : s.overrun.dmemLast = s.dmemLast := rfl
@[simp] theorem State.overrun_inputs (s : State) : s.overrun.inputs = s.inputs := rfl
@[simp] theorem State.overrun_replies (s : State) : s.overrun.replies = s.replies := rfl
@[simp] theorem State.overrun_draws (s : State) : s.overrun.draws = s.draws := rfl

/-! ### `State.setTreeResults` -/

@[simp] theorem State.setTreeResults_arg (s : State) (t : Tree) (n : Nat) : (s.setTreeResults t n).arg = s.arg := rfl
@[simp] theorem State.setTreeResults_res (s : State) (t : Tree) (n : Nat) :
    (s.setTreeResults t n).res = ((s.res.set 0 (t.root.setWidth 32)).set 1 (BitVec.ofNat 32 t.nodeCount)).set 2 (BitVec.ofNat 32 n) := rfl
@[simp] theorem State.setTreeResults_errInfo0 (s : State) (t : Tree) (n : Nat) :
    (s.setTreeResults t n).errInfo0 = s.errInfo0 := rfl
@[simp] theorem State.setTreeResults_errInfo1 (s : State) (t : Tree) (n : Nat) :
    (s.setTreeResults t n).errInfo1 = s.errInfo1 := rfl
@[simp] theorem State.setTreeResults_lastCmd (s : State) (t : Tree) (n : Nat) :
    (s.setTreeResults t n).lastCmd = s.lastCmd := rfl
@[simp] theorem State.setTreeResults_status (s : State) (t : Tree) (n : Nat) :
    (s.setTreeResults t n).status = s.status := rfl
@[simp] theorem State.setTreeResults_irqEn (s : State) (t : Tree) (n : Nat) :
    (s.setTreeResults t n).irqEn = s.irqEn := rfl
@[simp] theorem State.setTreeResults_lcmd (s : State) (t : Tree) (n : Nat) : (s.setTreeResults t n).lcmd = s.lcmd := rfl
@[simp] theorem State.setTreeResults_larg (s : State) (t : Tree) (n : Nat) : (s.setTreeResults t n).larg = s.larg := rfl
@[simp] theorem State.setTreeResults_freq (s : State) (t : Tree) (n : Nat) : (s.setTreeResults t n).freq = s.freq := rfl
@[simp] theorem State.setTreeResults_queue (s : State) (t : Tree) (n : Nat) :
    (s.setTreeResults t n).queue = s.queue := rfl
@[simp] theorem State.setTreeResults_tree (s : State) (t : Tree) (n : Nat) : (s.setTreeResults t n).tree = s.tree := rfl
@[simp] theorem State.setTreeResults_codes (s : State) (t : Tree) (n : Nat) :
    (s.setTreeResults t n).codes = s.codes := rfl
@[simp] theorem State.setTreeResults_dmem (s : State) (t : Tree) (n : Nat) : (s.setTreeResults t n).dmem = s.dmem := rfl
@[simp] theorem State.setTreeResults_dmemLast (s : State) (t : Tree) (n : Nat) :
    (s.setTreeResults t n).dmemLast = s.dmemLast := rfl
@[simp] theorem State.setTreeResults_inputs (s : State) (t : Tree) (n : Nat) :
    (s.setTreeResults t n).inputs = s.inputs := rfl
@[simp] theorem State.setTreeResults_replies (s : State) (t : Tree) (n : Nat) :
    (s.setTreeResults t n).replies = s.replies := rfl
@[simp] theorem State.setTreeResults_draws (s : State) (t : Tree) (n : Nat) :
    (s.setTreeResults t n).draws = s.draws := rfl

/-! ### `State.issue` -/

@[simp] theorem State.issue_arg (s : State) (w : Word) : (s.issue w).arg = s.arg := rfl
@[simp] theorem State.issue_res (s : State) (w : Word) : (s.issue w).res = s.res := rfl
@[simp] theorem State.issue_errInfo0 (s : State) (w : Word) : (s.issue w).errInfo0 = s.errInfo0 := rfl
@[simp] theorem State.issue_errInfo1 (s : State) (w : Word) : (s.issue w).errInfo1 = s.errInfo1 := rfl
@[simp] theorem State.issue_lastCmd (s : State) (w : Word) : (s.issue w).lastCmd = w := rfl
@[simp] theorem State.issue_status (s : State) (w : Word) :
    (s.issue w).status = { s.status with busy := true, done := false, err := false, errCode := .ok } := rfl
@[simp] theorem State.issue_irqEn (s : State) (w : Word) : (s.issue w).irqEn = s.irqEn := rfl
@[simp] theorem State.issue_lcmd (s : State) (w : Word) : (s.issue w).lcmd = w := rfl
@[simp] theorem State.issue_larg (s : State) (w : Word) : (s.issue w).larg = s.arg := rfl
@[simp] theorem State.issue_freq (s : State) (w : Word) : (s.issue w).freq = s.freq := rfl
@[simp] theorem State.issue_queue (s : State) (w : Word) : (s.issue w).queue = s.queue := rfl
@[simp] theorem State.issue_tree (s : State) (w : Word) : (s.issue w).tree = s.tree := rfl
@[simp] theorem State.issue_codes (s : State) (w : Word) : (s.issue w).codes = s.codes := rfl
@[simp] theorem State.issue_dmem (s : State) (w : Word) : (s.issue w).dmem = s.dmem := rfl
@[simp] theorem State.issue_dmemLast (s : State) (w : Word) : (s.issue w).dmemLast = s.dmemLast := rfl
@[simp] theorem State.issue_inputs (s : State) (w : Word) : (s.issue w).inputs = .engine :: s.inputs := rfl
@[simp] theorem State.issue_replies (s : State) (w : Word) : (s.issue w).replies = s.replies := rfl
@[simp] theorem State.issue_draws (s : State) (w : Word) : (s.issue w).draws = s.draws := rfl

/-! ### `State.resetBlock` -/

@[simp] theorem State.resetBlock_arg (s : State) : s.resetBlock.arg = Vector.replicate 4 0#32 := rfl
@[simp] theorem State.resetBlock_res (s : State) : s.resetBlock.res = Vector.replicate 4 0#32 := rfl
@[simp] theorem State.resetBlock_errInfo0 (s : State) : s.resetBlock.errInfo0 = 0#32 := rfl
@[simp] theorem State.resetBlock_errInfo1 (s : State) : s.resetBlock.errInfo1 = 0#32 := rfl
@[simp] theorem State.resetBlock_lastCmd (s : State) : s.resetBlock.lastCmd = 0#32 := rfl
@[simp] theorem State.resetBlock_status (s : State) : s.resetBlock.status = StatusFlags.reset := rfl
@[simp] theorem State.resetBlock_irqEn (s : State) : s.resetBlock.irqEn = 0#3 := rfl
@[simp] theorem State.resetBlock_lcmd (s : State) : s.resetBlock.lcmd = 0#32 := rfl
@[simp] theorem State.resetBlock_larg (s : State) : s.resetBlock.larg = Vector.replicate 4 0#32 := rfl
@[simp] theorem State.resetBlock_freq (s : State) : s.resetBlock.freq = Vector.replicate 256 0#32 := rfl
@[simp] theorem State.resetBlock_queue (s : State) : s.resetBlock.queue = Queue.reset := rfl
@[simp] theorem State.resetBlock_tree (s : State) : s.resetBlock.tree = Tree.reset := rfl
@[simp] theorem State.resetBlock_codes (s : State) : s.resetBlock.codes = CodeTable.reset := rfl
@[simp] theorem State.resetBlock_dmem (s : State) : s.resetBlock.dmem = s.dmemAfterReset := rfl
@[simp] theorem State.resetBlock_dmemLast (s : State) : s.resetBlock.dmemLast = s.dmemLast := rfl
@[simp] theorem State.resetBlock_inputs (s : State) : s.resetBlock.inputs = s.inputs := rfl
@[simp] theorem State.resetBlock_replies (s : State) : s.resetBlock.replies = s.replies := rfl
@[simp] theorem State.resetBlock_draws (s : State) : s.resetBlock.draws = s.draws + 1 := rfl

end Sys2Proof.Machine
end

