-- ==== Sys2Proof/Laws/Memory.lean ====
section
/-! SUPPORT. DMEM: read after write, and that every write keeps the canonical form. -/

namespace Sys2Proof.Machine

theorem Memory.get?_put_self (m : Memory) (a : Nat) (v : Byte) : (m.put a v).get? a = some v := by
  induction m with
  | nil => simp [Memory.put, Memory.get?]
  | cons c m ih =>
    obtain ⟨k, b⟩ := c
    simp only [Memory.put]
    split
    · simp [Memory.get?]
    · split
      · simp [Memory.get?]
      · simp only [Memory.get?, ih]
        rw [if_neg (by omega)]

theorem Memory.get?_put_other (m : Memory) {a a' : Nat} (v : Byte) (h : a' ≠ a) : (m.put a v).get? a' = m.get? a' := by
  induction m with
  | nil => simp [Memory.put, Memory.get?, h.symm]
  | cons c m ih =>
    obtain ⟨k, b⟩ := c
    simp only [Memory.put]
    split
    · simp [Memory.get?, h.symm]
    · split
      · next hk => subst hk; simp [Memory.get?, h.symm]
      · simp [Memory.get?, ih]

theorem Memory.get?_put (m : Memory) (a a' : Nat) (v : Byte) :
    (m.put a v).get? a' = if a' = a then some v else m.get? a' := by
  split
  · next h => rw [h, Memory.get?_put_self]
  · next h => exact Memory.get?_put_other m v h

/-- A run of writes: inside the range the byte written, outside it the byte that was there. -/
theorem Memory.get?_putBytes (m : Memory) (a : Nat) (bs : List Byte) (a' : Nat) :
    (m.putBytes a bs).get? a' =
      if h : a ≤ a' ∧ a' < a + bs.length then some (bs[a' - a]'(by omega)) else m.get? a' := by
  induction bs generalizing m a with
  | nil => simp [Memory.putBytes]
  | cons b bs ih =>
    simp only [Memory.putBytes, ih, Memory.get?_put, List.length_cons]
    by_cases h₁ : a' = a
    · subst h₁; simp
    · by_cases h₂ : a + 1 ≤ a' ∧ a' < a + 1 + bs.length
      · have h₃ : a ≤ a' ∧ a' < a + (bs.length + 1) := by omega
        simp only [h₂, h₃, and_self, dite_true, Option.some.injEq]
        rw [List.getElem_cons, dif_neg (by omega)]
        congr 1
      · have h₃ : ¬(a ≤ a' ∧ a' < a + (bs.length + 1)) := by omega
        rw [dif_neg h₂, if_neg h₁, dif_neg h₃]

theorem Memory.mem_put {m : Memory} {a : Nat} {v : Byte} {c : Host.Cell} (h : c ∈ m.put a v) : c = (a, v) ∨ c ∈ m := by
  induction m with
  | nil => simpa [Memory.put] using h
  | cons d m ih =>
    simp only [Memory.put] at h
    split at h
    · simpa using h
    · split at h
      · simp only [List.mem_cons] at h ⊢; tauto
      · simp only [List.mem_cons] at h ⊢
        rcases h with h | h
        · tauto
        · have := ih h; tauto

theorem Memory.wf_iff {n : Nat} {m : Memory} :
    Memory.wf n m = true ↔ (m.Pairwise fun c d => c.1 < d.1) ∧ ∀ c ∈ m, c.1 < n := by
  simp [Memory.wf]

/-- A write inside the block keeps the canonical form. -/
theorem Memory.wf_put {n : Nat} {m : Memory} (hm : Memory.wf n m = true) {a : Nat} (ha : a < n) (v : Byte) :
    Memory.wf n (m.put a v) = true := by
  rw [Memory.wf_iff] at hm ⊢
  obtain ⟨hp, hb⟩ := hm
  refine ⟨?_, fun c hc => ?_⟩
  · clear hb
    induction m with
    | nil => simp [Memory.put]
    | cons d m ih =>
      obtain ⟨k, b⟩ := d
      rw [List.pairwise_cons] at hp
      simp only [Memory.put]
      split
      · refine List.pairwise_cons.2 ⟨fun c hc => ?_, List.pairwise_cons.2 hp⟩
        rcases List.mem_cons.1 hc with rfl | hc
        · assumption
        · have := hp.1 c hc; simp only at this ⊢; omega
      · split
        · next h => subst h; exact List.pairwise_cons.2 hp
        · refine List.pairwise_cons.2 ⟨fun c hc => ?_, ih hp.2⟩
          rcases Memory.mem_put hc with rfl | hc
          · simp only; omega
          · exact hp.1 c hc
  · rcases Memory.mem_put hc with rfl | hc
    · exact ha
    · exact hb c hc

/-- A run of writes inside the block keeps the canonical form. -/
theorem Memory.wf_putBytes {n : Nat} {m : Memory} (hm : Memory.wf n m = true) {a : Nat} {bs : List Byte}
    (h : bs = [] ∨ a + bs.length ≤ n) : Memory.wf n (m.putBytes a bs) = true := by
  induction bs generalizing m a with
  | nil => exact hm
  | cons b bs ih =>
    have h' : a + (bs.length + 1) ≤ n := by simpa using h
    refine ih (Memory.wf_put hm (by omega) b) ?_
    right; omega

theorem State.memRead_memWrite (s : State) (st : Store) (a : Nat) :
    (s.memWrite st).memRead a =
      if h : st.base ≤ a ∧ a < st.base + st.bytes.length then st.bytes[a - st.base]'(by omega) else s.memRead a := by
  simp only [State.memRead, State.memWrite, Memory.get?_putBytes]
  split <;> simp

theorem State.holdsBytes_memWrite (s : State) (st : Store) : HoldsBytes (s.memWrite st) st.base st.bytes := by
  intro i h
  rw [State.memRead_memWrite, dif_pos (by omega)]
  simp

theorem State.sameBytesOutside_memWrite (s : State) (st : Store) :
    SameBytesOutside s (s.memWrite st) st.base st.bytes.length := by
  intro a h
  rw [State.memRead_memWrite, dif_neg (by omega)]

/-- Reading depends on DMEM alone. -/
theorem State.memRead_congr {s t : State} (h : t.dmem = s.dmem) (a : Nat) : t.memRead a = s.memRead a := by
  simp [State.memRead, h]

end Sys2Proof.Machine
end

