-- ==== Sys2Proof/Laws/Finish.lean ====
section
/-! SUPPORT. What the shared operations of spec 40_host_protocol.md R109, 60_exceptions.md R213 and 20_memory.md R62, R63 can
answer. -/

namespace Sys2Proof.Machine

/-! ### Completions -/

@[simp] theorem finish_ok (s t : State) : finish s (.ok t) = .next t.complete := rfl

@[simp] theorem finish_error (s : State) (e : Raise) : finish s (.error e) = .next (s.fail e) := rfl

/-- The error completion writes what R213 says and nothing else. -/
theorem fail_failed (s : State) (e : Raise) : Failed s (s.fail e) e := by constructor <;> rfl

/-- What a command's rule may not touch (R109): everything but RES, FREQ, the queue, the tree, the codes and DMEM. -/
structure SameRest (s t : State) : Prop where
  status : t.status = s.status
  errInfo0 : t.errInfo0 = s.errInfo0
  errInfo1 : t.errInfo1 = s.errInfo1
  arg : t.arg = s.arg
  lastCmd : t.lastCmd = s.lastCmd
  lcmd : t.lcmd = s.lcmd
  larg : t.larg = s.larg
  irqEn : t.irqEn = s.irqEn
  dmemLast : t.dmemLast = s.dmemLast
  inputs : t.inputs = s.inputs
  replies : t.replies = s.replies
  draws : t.draws = s.draws

/-- A successful completion of writes that touch nothing else is `Completed`. -/
theorem SameRest.completed {s t : State} (h : SameRest s t) : Completed s t.complete := by
  obtain ⟨h1, h2, h3, h4, h5, h6, h7, h8, h9, h10, h11, h12⟩ := h
  constructor <;> simp [State.complete, *]

/-- `Completed` and the named parts give `ChangesOnly`, part by part. -/
theorem changesOnly_of {s t : State} {parts : List Part} (h : Completed s t)
    (res : ∀ n : Fin 4, .res n ∉ parts → t.res[n] = s.res[n]) (freq : .freq ∉ parts → t.freq = s.freq)
    (queue : .queue ∉ parts → t.queue = s.queue) (tree : .tree ∉ parts → t.tree = s.tree)
    (codes : .codes ∉ parts → t.codes = s.codes) (dmem : .dmem ∉ parts → SameBytes s t) : ChangesOnly s t parts where
  completed := h
  others
    | .res n, hp => res n hp
    | .freq, hp => freq hp
    | .queue, hp => queue hp
    | .tree, hp => tree hp
    | .codes, hp => codes hp
    | .dmem, hp => dmem hp

theorem sameBytes_of_dmem {s t : State} (h : t.dmem = s.dmem) : SameBytes s t := State.memRead_congr h

/-- Every command ends in one of the two completions (R109, R213), and what it writes on success is confined. -/
theorem exec_eq_finish (i : Instr) (s : State) : ∃ r, exec i s = finish s r ∧ ∀ t, r = .ok t → SameRest s t := by
  cases i <;>
    simp only [exec, execNop, execPqNew, execPqInsert, execPqPeek, execPqPop, execPqSize, execFreqBuild, execFreqRead,
      execFreqWrite, execTreeBuild, execTreeNode, execTreeSerialize, execTreeLoad, execCodeDerive, execCodeRead, execEncode,
      execDecode] <;>
    refine ⟨_, rfl, ?_⟩ <;> intro t ht
  case pqInsert => split at ht <;> cases ht; constructor <;> rfl
  case pqPop => split at ht <;> cases ht <;> constructor <;> rfl
  case freqBuild => split at ht <;> cases ht; constructor <;> rfl
  case treeNode => split at ht <;> cases ht; constructor <;> rfl
  case treeSerialize => split at ht <;> cases ht; constructor <;> rfl
  case treeLoad => split at ht <;> [cases ht; (split at ht <;> cases ht; constructor <;> rfl)]
  case codeDerive => split at ht <;> cases ht; constructor <;> rfl
  case codeRead => split at ht <;> cases ht; constructor <;> rfl
  case encode => split at ht <;> cases ht; constructor <;> rfl
  case decode => split at ht <;> cases ht; constructor <;> rfl
  all_goals cases ht; constructor <;> rfl

/-! ### Ranges -/

theorem validRange_iff {s : State} {a n : Nat} : s.validRange a n = true ↔ s.RangeOk a n := by
  simp [State.validRange, State.RangeOk]

theorem checkRange_ok {s : State} {a n : Nat} (h : s.RangeOk a n) : s.checkRange a n = .ok () := by
  unfold State.checkRange
  rw [if_pos (validRange_iff.2 h)]

theorem checkRange_error {s : State} {a n : Nat} (h : ¬s.RangeOk a n) :
    s.checkRange a n = .error { code := .badAddr, info0 := BitVec.ofNat 32 a, info1 := BitVec.ofNat 32 n } := by
  unfold State.checkRange
  rw [if_neg fun hv => h (validRange_iff.1 hv)]

theorem checkRange_eq_ok {s : State} {a n : Nat} {u : Unit} (h : s.checkRange a n = .ok u) : s.RangeOk a n := by
  by_contra hn
  rw [checkRange_error hn] at h
  cases h

theorem rangesOverlap_iff {a n b m : Nat} : rangesOverlap a n b m = true ↔ ¬RangesApart a n b m := by
  simp only [rangesOverlap, Bool.and_eq_true, decide_eq_true_eq, RangesApart]
  omega

theorem checkOverlap_ok {src n dst m : Nat} (h : RangesApart src n dst m) : checkOverlap src n dst m = .ok () := by
  unfold checkOverlap
  rw [if_neg fun hv => rangesOverlap_iff.1 hv h]

theorem checkOverlap_error {src n dst m : Nat} (h : ¬RangesApart src n dst m) :
    checkOverlap src n dst m =
      .error { code := .rangeOverlap, info0 := BitVec.ofNat 32 src, info1 := BitVec.ofNat 32 dst } := by
  unfold checkOverlap
  rw [if_pos (rangesOverlap_iff.2 h)]

theorem checkOverlap_eq_ok {src n dst m : Nat} {u : Unit} (h : checkOverlap src n dst m = .ok u) :
    RangesApart src n dst m := by
  by_contra hn
  rw [checkOverlap_error hn] at h
  cases h

/-! ### Preconditions -/

theorem requireTree_ok {s : State} (h : s.tree.state ≠ .invalid) : s.requireTree = .ok () := by
  cases e : s.tree.state <;> simp_all [State.requireTree]

theorem requireTree_error {s : State} (h : s.tree.state = .invalid) :
    s.requireTree = .error { code := .noTree, info0 := 0#32, info1 := 0#32 } := by simp [State.requireTree, h]

theorem requireCodes_ok {s : State} (h : s.codes.valid = true) : s.requireCodes = .ok () := by simp [State.requireCodes, h]

theorem requireCodes_error {s : State} (h : s.codes.valid = false) :
    s.requireCodes = .error { code := .noCodes, info0 := 0#32, info1 := 0#32 } := by simp [State.requireCodes, h]

end Sys2Proof.Machine
end

