-- ==== Sys2Proof/WellFormed.lean ====
section
/-! DEFINITION. The static checks on what a host may ask of the block. A command's operands have the exact widths of their
fields (spec 30_encoding.md R81, R83), so every term of `Instr` is well formed; what can be ill formed is a host access
(20_memory.md R68, 40_host_protocol.md R111). The machine makes its own checks; Sys2Proof/Laws/HostPort.lean proves that it
refuses exactly what these checks refuse. -/

namespace Sys2Proof

/-- A command is well formed: its fields' types already bound them (R81, R83), so each arm holds. -/
def Instr.wf : Instr → Bool
  | .nop => true
  | .pqNew _ => true
  | .pqInsert _ => true
  | .pqPeek => true
  | .pqPop => true
  | .pqSize => true
  | .freqBuild => true
  | .freqRead _ => true
  | .freqWrite _ => true
  | .treeBuild => true
  | .treeNode _ => true
  | .treeSerialize => true
  | .treeLoad => true
  | .codeDerive => true
  | .codeRead _ _ => true
  | .encode => true
  | .decode => true

/-- A host register access of `bytes` bytes at offset `off` is defined: 32 bits wide, a multiple of 4, inside the 128-byte
window (R68, R43). -/
def regAccessWf (off bytes : Nat) : Bool :=
  bytes == 4 && off % 4 == 0 && decide (off < 0x80)

/-- A host DMEM access at offset `a` is inside a DMEM of `dmemBytes` bytes (R100, R111). -/
def dmemOffsetWf (dmemBytes a : Nat) : Bool :=
  decide (a < dmemBytes)

end Sys2Proof
end

