-- ==== Sys2Proof/Laws/HostPort.lean ====
section
/-! SUPPORT. Which host accesses have a meaning (spec 20_memory.md R68, 40_host_protocol.md R100, R111), and what the steps of
the environment do. -/

namespace Sys2Proof.Machine

/-- The window's registers are reached by exactly the well-formed accesses (R68, R43). -/
theorem registerAt_isSome (off bytes : Nat) : (registerAt off bytes).isSome = regAccessWf off bytes := by
  by_cases hb : bytes = 4
  · subst hb
    by_cases ho : off < 0x80
    · have key : ∀ o : Fin 0x80, (registerAt o.val 4).isSome = regAccessWf o.val 4 := by decide
      exact key ⟨off, ho⟩
    · have hn : registerAt off 4 = none := by
        unfold registerAt
        rw [if_neg (by simp)]
        split <;> first | omega | (rw [if_neg]; omega)
      simp [hn, regAccessWf, ho]
  · have hn : registerAt off bytes = none := by
      unfold registerAt
      rw [if_pos hb]
    simp [hn, regAccessWf, hb]

theorem registerAt_eq_none {off bytes : Nat} : registerAt off bytes = none ↔ regAccessWf off bytes = false := by
  rw [← registerAt_isSome, Option.isSome_eq_false_iff, Option.isNone_iff_eq_none]

/-- A host register read is refused exactly when it is not well formed. -/
theorem hostRegRead_refused {off bytes : Nat} {s : State} :
    hostRegRead off bytes s = .refused .registerAccessUndefined ↔ regAccessWf off bytes = false := by
  rw [← registerAt_eq_none]
  unfold hostRegRead
  split <;> simp [*]

/-- A host register write is refused exactly when it is not well formed. -/
theorem hostRegWrite_refused {off bytes : Nat} {v : Word} {s : State} :
    hostRegWrite off bytes v s = .refused .registerAccessUndefined ↔ regAccessWf off bytes = false := by
  rw [← registerAt_eq_none]
  unfold hostRegWrite
  split <;> simp [*]

/-- A host DMEM access is refused exactly when its offset is outside the block. -/
theorem hostDmemAccess_refused {a : Nat} {s t : State} :
    hostDmemAccess a s t = .refused .dmemOffsetOutside ↔ dmemOffsetWf s.dmemBytes a = false := by
  simp only [hostDmemAccess, dmemOffsetWf, decide_eq_false_iff_not, Nat.not_lt]
  split
  · simp [*]
  · split <;> simp [*]

/-- The answers a host DMEM access can have (R72, R100, R111). -/
theorem hostDmemAccess_cases (a : Nat) (s t : State) :
    (s.dmemBytes ≤ a ∧ hostDmemAccess a s t = .refused .dmemOffsetOutside) ∨
      (a < s.dmemBytes ∧ s.status.busy = true ∧ hostDmemAccess a s t = .fault .hostRace) ∨
      (a < s.dmemBytes ∧ s.status.busy = false ∧ hostDmemAccess a s t = .next t) := by
  unfold hostDmemAccess
  split
  · next h => exact .inl ⟨h, rfl⟩
  · next h =>
    right
    split
    · next hb => exact .inl ⟨by omega, hb, rfl⟩
    · next hb => exact .inr ⟨by omega, by simpa using hb, rfl⟩

/-- A read of `wait` that shows BUSY = 0 ends the loop (R90). -/
theorem hostWait_idle (later : Nat) {s : State} (h : s.status.busy = false) :
    hostWait later s = .next (s.reply (.reg 0x08 s.statusWord)) := by
  simp [hostWait, waitInputs, h, State.readReg, State.withInputs, State.reply]

/-- A read of `wait` that shows BUSY = 1 leaves the loop to go on, with the engine's turn first when the schedule says so
(R90). -/
theorem hostWait_busy (later : Nat) {s : State} (h : s.status.busy = true) :
    hostWait later s =
      .next ((s.reply (.reg 0x08 s.statusWord)).withInputs
        (match later with
        | 0 => .engine :: .waitIdle 0 :: s.inputs
        | later + 1 => .waitIdle later :: s.inputs)) := by
  cases later <;> simp [hostWait, waitInputs, h, State.readReg]

/-- The steps, by the environment's next input (R100). -/
theorem step_cases (s : State) :
    (s.inputs = [] ∧ step s = engineTurn s) ∨
      ∃ x rest, s.inputs = x :: rest ∧
        step s =
          match x with
          | .regRead off bytes => hostRegRead off bytes (s.withInputs rest)
          | .regWrite off bytes v => hostRegWrite off bytes v (s.withInputs rest)
          | .dmemRead a => hostDmemRead a (s.withInputs rest)
          | .dmemWrite a b => hostDmemWrite a b (s.withInputs rest)
          | .engine => engineTurn (s.withInputs rest)
          | .reset => .next (s.withInputs rest).resetBlock
          | .waitIdle later => hostWait later (s.withInputs rest)
          | .stopOnError => hostStopOnError (s.withInputs rest) := by
  match e : s.inputs with
  | [] => exact .inl ⟨rfl, by simp only [step, takeTurn, e]⟩
  | x :: rest =>
    refine .inr ⟨x, rest, rfl, ?_⟩
    cases x <;> simp only [step, takeTurn, e]

/-- The engine's turn (R85, R109, R242). -/
theorem engineTurn_cases (s : State) :
    (s.status.busy = false ∧ engineTurn s = .next s) ∨
      (s.status.busy = true ∧
        ((decode s.lcmd = none ∧
            engineTurn s = .next (s.fail { code := .illegalCmd, info0 := s.lcmd, info1 := 0#32 })) ∨
          ∃ i, decode s.lcmd = some i ∧ engineTurn s = exec i s)) := by
  unfold engineTurn
  split
  · next hb =>
    refine .inr ⟨hb, ?_⟩
    split
    · next i e => exact .inr ⟨i, e, rfl⟩
    · next e => exact .inl ⟨e, rfl⟩
  · next hb => exact .inl ⟨by simpa using hb, rfl⟩

end Sys2Proof.Machine
end

