-- ==== Sys2Proof/Laws/PerInstr.lean ====
section
/-! SUPPORT. One lemma per command about its command word (spec 30_encoding.md R80, R81, R84): OPC stands in bits [7:0], and every
bit outside the command's own fields is 0. -/

namespace Sys2Proof.Laws.FixedBits

/-- OPC (R84). -/
def opcodeOf : Instr → BitVec 8
  | .nop => 0x00#8
  | .pqNew _ => 0x01#8
  | .pqInsert _ => 0x02#8
  | .pqPeek => 0x03#8
  | .pqPop => 0x04#8
  | .pqSize => 0x05#8
  | .freqBuild => 0x10#8
  | .freqRead _ => 0x11#8
  | .freqWrite _ => 0x12#8
  | .treeBuild => 0x20#8
  | .treeNode _ => 0x21#8
  | .treeSerialize => 0x22#8
  | .treeLoad => 0x23#8
  | .codeDerive => 0x30#8
  | .codeRead _ _ => 0x31#8
  | .encode => 0x40#8
  | .decode => 0x41#8

/-- The bits of the command's own fields (R80, R81). -/
def fieldBits : Instr → Word
  | .nop => 0x00000000#32
  | .pqNew _ => 0x00000100#32
  | .pqInsert _ => 0xFFFF0000#32
  | .pqPeek => 0x00000000#32
  | .pqPop => 0x00000000#32
  | .pqSize => 0x00000000#32
  | .freqBuild => 0x00000000#32
  | .freqRead _ => 0x00FF0000#32
  | .freqWrite _ => 0x00FF0000#32
  | .treeBuild => 0x00000000#32
  | .treeNode _ => 0x01FF0000#32
  | .treeSerialize => 0x00000000#32
  | .treeLoad => 0x00000000#32
  | .codeDerive => 0x00000000#32
  | .codeRead _ _ => 0x07FF0000#32
  | .encode => 0x00000000#32
  | .decode => 0x00000000#32

/-- The word has OPC in [7:0] and 0 in every bit that is not one of its fields, and the command is well formed. -/
def Statement (i : Instr) : Prop :=
  encode i &&& ~~~fieldBits i = (opcodeOf i).setWidth 32 ∧ i.wf = true

/-- A 16-bit field above a constant half. -/
theorem imm_fixed (imm low mask : BitVec 16) (h : imm &&& ~~~mask = 0#16) :
    (imm ++ low) &&& ~~~(mask ++ 0#16) = low.setWidth 32 := by
  have e : ~~~(mask ++ 0#16) = ~~~mask ++ ~~~0#16 := BitVec.not_append
  rw [e, BitVec.and_append, h]
  have hl : low &&& ~~~0#16 = low := BitVec.and_allOnes
  rw [hl]
  refine BitVec.eq_of_toNat_eq ?_
  have h16 := low.isLt
  rw [BitVec.toNat_append, BitVec.toNat_setWidth, Nat.mod_eq_of_lt (by omega)]
  simp

theorem nop : Statement .nop := by constructor <;> decide

theorem pqNew (p : Policy) : Statement (.pqNew p) := by cases p <;> constructor <;> decide

theorem pqInsert (tag : Tag) : Statement (.pqInsert tag) := ⟨imm_fixed tag 0x0002#16 0xFFFF#16 (by simp), rfl⟩

theorem pqPeek : Statement .pqPeek := by constructor <;> decide

theorem pqPop : Statement .pqPop := by constructor <;> decide

theorem pqSize : Statement .pqSize := by constructor <;> decide

theorem freqBuild : Statement .freqBuild := by constructor <;> decide

theorem freqRead (sym : Byte) : Statement (.freqRead sym) := by
  refine ⟨imm_fixed (0#8 ++ sym) 0x0011#16 0x00FF#16 ?_, rfl⟩
  revert sym; decide

theorem freqWrite (sym : Byte) : Statement (.freqWrite sym) := by
  refine ⟨imm_fixed (0#8 ++ sym) 0x0012#16 0x00FF#16 ?_, rfl⟩
  revert sym; decide

theorem treeBuild : Statement .treeBuild := by constructor <;> decide

theorem treeNode (h : Handle) : Statement (.treeNode h) := by
  refine ⟨imm_fixed (0#7 ++ h) 0x0021#16 0x01FF#16 ?_, rfl⟩
  revert h; decide

theorem treeSerialize : Statement .treeSerialize := by constructor <;> decide

theorem treeLoad : Statement .treeLoad := by constructor <;> decide

theorem codeDerive : Statement .codeDerive := by constructor <;> decide

theorem codeRead (sym : Byte) (widx : BitVec 3) : Statement (.codeRead sym widx) := by
  refine ⟨imm_fixed (0#5 ++ widx ++ sym) 0x0031#16 0x07FF#16 ?_, rfl⟩
  revert sym widx; decide

theorem encode : Statement .encode := by constructor <;> decide

theorem decode : Statement .decode := by constructor <;> decide

end Sys2Proof.Laws.FixedBits
end

