-- ==== Sys2Proof/Laws/Relations.lean ====
section
/-! SUPPORT. The spec's loops as the relations of Safety.lean: each operation of the heap and the arena stands in its relation
(spec 41_pq.md R124-R127, 43_tree.md R151, R156); and what a tree's shape determines. -/

namespace Sys2Proof.Machine

/-! ### The heap -/

theorem better_iff (p : Policy) (a b : Elem) : Better p a b ↔ prefers p a b = true := by
  cases p <;> simp [Better, prefers, BitVec.lt_def]

theorem percolateUp_percolatesUp (p : Policy) (turns i : Nat) (h : List Elem) (hi : i < h.length) (ht : i ≤ turns) :
    PercolatesUp p i h (percolateUp p turns i h) := by
  induction turns generalizing i h with
  | zero =>
    obtain rfl : i = 0 := by omega
    exact .root h
  | succ turns ih =>
    simp only [percolateUp]
    split
    · next i0 =>
      have hp : (i - 1) / 2 < h.length := by omega
      have ha : h[i]? = some h[i] := List.getElem?_eq_getElem hi
      have hb : h[(i-1)/2]? = some h[(i-1)/2] := List.getElem?_eq_getElem hp
      rw [prefersAt_eq p h hi hp]
      split
      · next hpr =>
        refine .swap i0 ha hb ((better_iff _ _ _).2 hpr) ?_
        rw [← swapAt_eq h hi hp]
        exact ih _ _ (by simpa using hp) (by omega)
      · next hpr => exact .stop i0 ha hb fun hb => hpr ((better_iff _ _ _).1 hb)
    · obtain rfl : i = 0 := by omega
      exact .root h

theorem heapInsert_inserts (p : Policy) (h : List Elem) (e : Elem) : Inserts p h e (heapInsert p h e) :=
  percolateUp_percolatesUp p _ _ _ (by simp) (le_refl _)

theorem preferredChild_chosen (p : Policy) (h : List Elem) (i : Nat) (hi : 2*i+1 < h.length) :
    ∃ e, ChosenChild p h i (preferredChild p h i) e ∧ h[preferredChild p h i]? = some e := by
  unfold preferredChild
  have hl : h[2*i+1]? = some h[2*i+1] := List.getElem?_eq_getElem hi
  by_cases h2 : 2*i+2 < h.length
  · have hr : h[2*i+2]? = some h[2*i+2] := List.getElem?_eq_getElem h2
    rw [prefersAt_eq p h h2 hi]
    split
    · next hp => exact ⟨_, .right hl hr ((better_iff _ _ _).2 hp), hr⟩
    · next hp => exact ⟨_, .left hl hr fun hb => hp ((better_iff _ _ _).1 hb), hl⟩
  · have hr : h[2*i+2]? = none := List.getElem?_eq_none (by omega)
    rw [prefersAt_false_of_le p h _ (by omega)]
    exact ⟨_, .onlyLeft hl hr, hl⟩

theorem percolateDown_percolatesDown (p : Policy) (turns i : Nat) (h : List Elem) (hi : i < h.length)
    (ht : h.length ≤ turns + i) : PercolatesDown p i h (percolateDown p turns i h) := by
  induction turns generalizing i h with
  | zero => omega
  | succ turns ih =>
    simp only [percolateDown]
    split
    · next hl =>
      obtain ⟨e, hc, he⟩ := preferredChild_chosen p h i hl
      obtain ⟨hcl, c0, hpar, -⟩ := preferredChild_spec p h i hl
      have ha : h[i]? = some h[i] := List.getElem?_eq_getElem hi
      rw [List.getElem?_eq_getElem hcl] at he
      rw [prefersAt_eq p h hcl hi]
      split
      · next hp =>
        cases he
        refine .swap hc ha ((better_iff _ _ _).2 hp) ?_
        rw [← swapAt_eq h hi hcl]
        exact ih _ _ (by simpa using hcl) (by simp; omega)
      · next hp => cases he; exact .stop hc ha fun hb => hp ((better_iff _ _ _).1 hb)
    · next hl => exact .leaf (List.getElem?_eq_none (by omega))

theorem heapPop_pops {p : Policy} {h rest : List Elem} {top : Elem} (hp : heapPop p h = some (top, rest)) :
    Pops p h top rest := by
  match h with
  | [] => cases hp
  | [x] => cases hp; exact .one _
  | x :: y :: r =>
    simp only [heapPop] at hp
    have hne : y :: r ≠ [] := by simp
    rw [List.getLast?_eq_getLast_of_ne_nil hne] at hp
    simp only [Option.some.injEq, Prod.mk.injEq] at hp
    obtain ⟨rfl, rfl⟩ := hp
    have := percolateDown_percolatesDown p (y :: r).length 0 ((y::r).getLast hne :: (y::r).dropLast) (by simp) (by simp)
    have e := Pops.more (top := x) this
    rwa [List.dropLast_append_getLast hne] at e

/-! ### TREE_BUILD -/

theorem pairAll_pairsUp (turns : Nat) (nodes : List Node) (h : List Elem) (ht : h.length ≤ turns + 1) :
   PairsUp nodes h (pairAll turns nodes h).1 (pairAll turns nodes h).2 := by
  induction turns generalizing nodes h with
  | zero => exact .done (by omega)
  | succ turns ih =>
    simp only [pairAll]
    split
    · next h1 =>
      obtain ⟨l, h₁, r, h₂, e₁, e₂, hp⟩ := heapPop_twice h1
      rw [pairOnce_eq e₁ e₂]
      have := hp.length_eq
      refine .turn h1 (heapPop_pops e₁) (heapPop_pops e₂) (heapInsert_inserts _ _ _) ?_
      exact ih _ _ (by simp at *; omega)
    · exact .done (by omega)

theorem insertsLeaves_foldl (ns : List Node) (j : Nat) (h : List Elem) :
    InsertsLeaves j ns h
      ((ns.zipIdx j).foldl (fun h x => heapInsert .min h { key := x.1.weight, tag := BitVec.ofNat 16 x.2 }) h) := by
  induction ns generalizing j h with
  | nil => exact .done j h
  | cons n ns ih => exact .leaf (heapInsert_inserts _ _ _) (ih _ _)

theorem eq_presentSymbols {s : State} {symbols : List Byte} (h : symbols.Pairwise (fun a b => a.toNat < b.toNat))
    (hm : ∀ sym : Byte, sym ∈ symbols ↔ s.freq[sym.toNat] ≠ 0#32) :
    symbols = presentSymbols s.freq := by
  have hs : (presentSymbols s.freq).Pairwise (fun a b => a.toNat < b.toNat) := by
    unfold presentSymbols
    refine List.Pairwise.filter _ ?_
    rw [List.pairwise_map]
    refine List.Pairwise.imp_of_mem ?_ (List.pairwise_lt_range (n := 256))
    intro a b ha hb hab
    simp at *; omega
  have hn : symbols.Nodup := h.imp fun hab e => by subst e; omega
  have hp : symbols.Perm (presentSymbols s.freq) := by
    rw [List.perm_ext_iff_of_nodup hn (presentSymbols_nodup _)]
    intro a; rw [hm, mem_presentSymbols]
  exact hp.eq_of_pairwise (fun a b _ _ h1 h2 => by omega) h hs

/-! ### Descriptors -/

/-- Reading a descriptor with `parseNode` and with `descriptorFault` find the same first failing check, and end at the same
place. -/
theorem descriptorFault_of_parseNode (d : Nat → Byte) (m : Nat) (turns : Nat) (st : ParseState) (need F : Nat)
    (hc : st.nodes.length ≤ 511) (ht : 512 ≤ turns + st.nodes.length) (hF : 513 ≤ F + st.nodes.length) :
    (∀ e, parseNode d m turns st = .error e → ∃ pos sub, e = descMalformed pos sub ∧
      descriptorFault d m F (need+1) st.pos st.nodes.length st.seen = some (pos, sub)) ∧
    (∀ h st', parseNode d m turns st = .ok (h, st') →
      ∃ F', F' + st'.nodes.length = F + st.nodes.length ∧ st'.nodes.length ≤ 511 ∧
        st.nodes.length ≤ st'.nodes.length ∧
        descriptorFault d m F (need+1) st.pos st.nodes.length st.seen =
          descriptorFault d m F' need st'.pos st'.nodes.length st'.seen) := by
  induction turns generalizing st need F with
  | zero => omega
  | succ turns ih =>
    obtain ⟨F, rfl⟩ : ∃ f, F = f + 1 := ⟨F - 1, by omega⟩
    have stop : ∀ (pos sub : Nat) (q : Option (Nat × Nat)), q = some (pos, sub) →
        (∀ e, (Except.error (descMalformed pos sub) : Result (Handle × ParseState)) = .error e →
          ∃ pos sub, e = descMalformed pos sub ∧ q = some (pos, sub)) ∧
        ∀ h st', (Except.error (descMalformed pos sub) : Result (Handle × ParseState)) = .ok (h, st') →
          ∃ F', F' + st'.nodes.length = F + 1 + st.nodes.length ∧ st'.nodes.length ≤ 511 ∧
            st.nodes.length ≤ st'.nodes.length ∧
            q = descriptorFault d m F' need st'.pos st'.nodes.length st'.seen := by
      intro pos sub q hq
      exact ⟨by rintro _ ⟨⟩; exact ⟨pos, sub, rfl, hq⟩, by rintro _ _ ⟨⟩⟩
    simp only [parseNode, descriptorFault, Config.nodeCap, Nat.succ_ne_zero, if_false]
    by_cases h1 : m ≤ st.pos
    · simp only [h1, if_true]
      exact stop _ _ _ rfl
    · by_cases h2 : 511 ≤ st.nodes.length
      · have : st.nodes.length = 511 := by omega
        simp only [h1, h2, if_false, if_true]
        exact stop _ _ _ (if_pos this)
      · have hne : st.nodes.length ≠ 511 := by omega
        simp only [h1, h2, hne, if_false]
        by_cases h3 : d st.pos = 0x00#8
        · simp only [h3, if_true]
          obtain ⟨e1, o1⟩ := ih
            { pos := st.pos + 1, nodes := st.nodes ++ [internalNode Config.nil Config.nil 0#40], seen := st.seen } (need+1) F
            (by simp; omega) (by simp; omega) (by simp; omega)
          simp only [List.length_append, List.length_singleton] at e1 o1
          split
          · next e he =>
            refine ⟨?_, by simp⟩
            rintro _ ⟨⟩
            exact e1 _ he
          · next l st1 he =>
            obtain ⟨F1, hF1, hc1, hm1, q1⟩ := o1 _ _ he
            rw [q1]
            obtain ⟨e2, o2⟩ := ih st1 need F1 (by omega) (by omega) (by omega)
            split
            · next e he' =>
              refine ⟨?_, by simp⟩
              rintro _ ⟨⟩
              exact e2 _ he'
            · next r st2 he' =>
              refine ⟨by simp, ?_⟩
              rintro _ _ ⟨⟩
              obtain ⟨F2, hF2, hc2, hm2, q2⟩ := o2 _ _ he'
              exact ⟨F2, by simp; omega, by simp; omega, by simp; omega, by rw [q2]; simp⟩
        · simp only [h3, if_false]
          by_cases h4 : d st.pos = 0x01#8
          · simp only [h4, if_true]
            by_cases h5 : m ≤ st.pos + 1
            · simp only [h5, if_true]
              exact stop _ _ _ rfl
            · by_cases h6 : d (st.pos + 1) ∈ st.seen
              · simp only [h5, h6, if_false, if_true]
                exact stop _ _ _ rfl
              · simp only [h5, h6, if_false]
                refine ⟨by simp, ?_⟩
                rintro _ _ ⟨⟩
                exact ⟨F, by simp; omega, by simp; omega, by simp, by simp⟩
          · simp only [h4, if_false]
            exact stop _ _ _ rfl

/-! ### Shapes -/

theorem Tree.Ok.shape_size {t : Tree} {sh : Option Shape} (hk : t.Ok) (hs : t.HasShape sh) :
    ∀ x ∈ sh, x.size = t.nodeCount ∧ x.symbols.Nodup := by
  rintro x hx
  obtain rfl : sh = some x := hx
  have hi : t.state ≠ .invalid := by cases x <;> (rw [hs.1]; decide)
  obtain ⟨sh', h', p⟩ := hk.exists_shape hi
  cases sh' with
  | none => have : t.state = .empty := h'; cases x <;> (have := hs.1; simp_all)
  | some y =>
    have hy := p y rfl
    have : x = y := by
      cases x <;> cases y <;> exact (hs.2.choose_spec.unique h'.2.choose_spec).1
    subst this; exact ⟨hy.2, hy.1⟩

theorem Tree.HasShape.unique {t : Tree} {a b : Option Shape} (ha : t.HasShape a) (hb : t.HasShape b) : a = b := by
  cases a with
  | none => cases b with
    | none => rfl
    | some y => have h : t.state = .empty := ha; cases y <;> (have := hb.1; simp_all)
  | some x => cases b with
    | none => have h : t.state = .empty := hb; cases x <;> (have := ha.1; simp_all)
    | some y =>
      congr 1
      cases x <;> cases y <;> exact (ha.2.choose_spec.unique hb.2.choose_spec).1

theorem deriveCodes_congr {t t' : Tree} {sh : Option Shape} (a : t.HasShape sh) (b : t'.HasShape sh)
    (ha : ∀ x ∈ sh, x.size = t.nodeCount)
   (hb : ∀ x ∈ sh, x.size = t'.nodeCount) : deriveCodes t = deriveCodes t' := by
  simp only [deriveCodes, Tree.assignments_of_shape a ha, Tree.assignments_of_shape b hb]

/-- A child of a record that spans a shape spans a smaller one. -/
theorem Spans.child {nodes : List Node} {sh : Shape} {h : Handle} {hs : List Nat} (s : Spans nodes sh h hs) {b : Nat}
    (c : ChildOf nodes h.toNat b) :
    ∃ sh' h' hs', Spans nodes sh' h' hs' ∧ h'.toNat = b ∧ sh'.size < sh.size := by
  obtain ⟨n, hn, hb⟩ := c
  cases sh with
  | leaf sym =>
    obtain ⟨_, m, hm, hk, _⟩ := s
    rw [hn] at hm; cases hm; simp [Node.children, hk] at hb
  | node l r =>
    obtain ⟨m, ls, rs, hm, hk, _, sl, sr⟩ := s
    rw [hn] at hm; cases hm
    simp [Node.children, hk] at hb
    rcases hb with rfl | rfl
    · exact ⟨l, _, _, sl, rfl, by simp [Shape.size]; omega⟩
    · exact ⟨r, _, _, sr, rfl, by simp [Shape.size]; omega⟩

/-- Following children from a record reaches every handle it spans, and each of these spans a shape. -/
theorem Spans.reaches {nodes : List Node} {sh : Shape} {h : Handle} {hs : List Nat} (s : Spans nodes sh h hs) :
    ∀ b ∈ hs, Relation.ReflTransGen (ChildOf nodes) h.toNat b ∧
      ∃ sh' h' hs', Spans nodes sh' h' hs' ∧ h'.toNat = b := by
  induction sh generalizing h hs with
  | leaf sym =>
    obtain ⟨rfl, m⟩ := s
    intro b hb
    rw [List.mem_singleton] at hb
    subst hb
    exact ⟨.refl, .leaf sym, h, _, ⟨rfl, m⟩, rfl⟩
  | node l r il ir =>
    have s' := s
    obtain ⟨m, ls, rs, hm, hk, rfl, sl, sr⟩ := s
    intro b hb
    rw [List.mem_cons, List.mem_append] at hb
    rcases hb with rfl | hb | hb
    · exact ⟨.refl, _, h, _, s', rfl⟩
    · obtain ⟨a, c⟩ := il sl b hb
      exact ⟨.head ⟨m, hm, by simp [Node.children, hk]⟩ a, c⟩
    · obtain ⟨a, c⟩ := ir sr b hb
      exact ⟨.head ⟨m, hm, by simp [Node.children, hk]⟩ a, c⟩

/-! ### Errors and bytes -/

theorem failsWith_of_finish {i : Instr} {s : State} {c : ErrCode} {a b : Word} (h : exec i s = finish s (.error ⟨c, a, b⟩)) :
    FailsWith i s c a b := ⟨_, h, fail_failed s _⟩

theorem bytesAt_congr {s t : State} {b n : Nat} (h : ∀ a, b ≤ a → a < b + n → t.memRead a = s.memRead a) :
    t.bytesAt b n = s.bytesAt b n := by
  apply List.map_congr_left
  intro i hi
  rw [List.mem_range] at hi
  exact h _ (by omega) (by omega)
theorem bytesAt_of_holdsBytes {t : State} {dst : Nat} {l : List Byte} (h : HoldsBytes t dst l) : t.bytesAt dst l.length = l := by
  refine List.ext_getElem (by simp [State.bytesAt]) fun i h1 h2 => ?_
  simp only [State.bytesAt, List.getElem_map, List.getElem_range]
  exact h i h2
end Sys2Proof.Machine
end

