-- ==== Sys2Proof/Laws/Streams.lean ====
section
/-! SUPPORT. Packed bitstreams and the scans of ENCODE and DECODE (spec 20_memory.md R65, 45_bitstream.md R190-R192). -/

namespace Sys2Proof.Machine

/-! ### Packing -/

theorem packByte_getLsbD (bits : List Bool) (q : Nat) {j : Nat} (hj : j < 8) :
    (packByte bits q).getLsbD (7 - j) = bits.getD (8 * q + j) false := by
  have := orBits_getLsbD (w := 8) (fun j => bits.getD (8 * q + j) false) 8 (7 - j) (le_refl _) (by omega)
  simp only [packByte]
  rw [this]
  have h : 8 - 1 - (7 - j) = j := by omega
  rw [h]
  simp [hj]

@[simp] theorem length_packBits (bits : List Bool) : (packBits bits).length = bytesForBits bits.length := by simp [packBits]

/-- A stream that has been stored packed reads back bit by bit, with pad bits 0 (R65, R190). -/
theorem bit_of_packed {t : State} {dst : Nat} {bits : List Bool} (h : HoldsBytes t dst (packBits bits)) {k : Nat}
    (hk : k < 8 * bytesForBits bits.length) : (t.memRead (dst + k / 8)).getLsbD (7 - k % 8) = bits.getD k false := by
  rw [h (k / 8) (by rw [length_packBits]; omega)]
  simp only [packBits, List.getElem_map, List.getElem_range]
  rw [packByte_getLsbD _ _ (Nat.mod_lt _ (by omega)), Nat.div_add_mod]

theorem holdsBits_of_packed {t : State} {dst : Nat} {bits : List Bool} (h : HoldsBytes t dst (packBits bits)) :
    HoldsBits t dst bits := by
  intro k hk
  rw [bit_of_packed h (by simp only [bytesForBits]; omega), List.getD_eq_getElem?_getD, List.getElem?_eq_getElem hk,
    Option.getD_some]

/-! ### The scan of ENCODE -/

/-- The symbols a scan reads. -/
def inputFrom (input : Nat → Byte) (i count : Nat) : List Byte := (List.range count).map fun k => input (i + k)

@[simp] theorem inputFrom_zero (input : Nat → Byte) (i : Nat) : inputFrom input i 0 = [] := rfl

theorem inputFrom_succ (input : Nat → Byte) (i count : Nat) :
    inputFrom input i (count + 1) = input i :: inputFrom input (i + 1) count := by
  simp only [inputFrom, List.range_succ_eq_map, List.map_cons, List.map_map, Nat.add_zero]
  congr 1
  refine List.map_congr_left fun k _ => ?_
  simp only [Function.comp_apply]
  congr 1
  omega

theorem length_code (c : CodeTable) (sym : Byte) : (c.code sym).length = c.len[sym.toNat].toNat := by
  simp [CodeTable.code]

/-- When every symbol has a code and the total fits, the scan gives the codes in order (R191). -/
theorem encodeScan_ok {c : CodeTable} {input : Nat → Byte} {count i total : Nat}
    (hc : ∀ b ∈ inputFrom input i count, c.code b ≠ [])
    (ht : total + ((inputFrom input i count).flatMap c.code).length ≤ Config.maxBitCount) :
    encodeScan c input count i total = .ok ((inputFrom input i count).flatMap c.code) := by
  induction count generalizing i total with
  | zero => rfl
  | succ count ih =>
    rw [inputFrom_succ] at hc ht ⊢
    rw [List.flatMap_cons, List.length_append, length_code] at ht
    have h0 := hc (input i) (by simp)
    have hl : c.len[(input i).toNat].toNat ≠ 0 := by
      rw [← length_code]; simpa using h0
    simp only [encodeScan]
    rw [if_neg hl, if_neg (by omega), ih (fun b hb => hc b (by simp [hb])) (by omega), List.flatMap_cons]

/-- A scan that succeeds has given the codes in order, each nonempty, with a total that fits. -/
theorem encodeScan_sound {c : CodeTable} {input : Nat → Byte} {count i total : Nat} {bits : List Bool}
    (h : encodeScan c input count i total = .ok bits) (h0 : total ≤ Config.maxBitCount) :
    bits = (inputFrom input i count).flatMap c.code ∧ (∀ b ∈ inputFrom input i count, c.code b ≠ []) ∧
      total + bits.length ≤ Config.maxBitCount := by
  induction count generalizing i total bits with
  | zero => cases h; simpa using h0
  | succ count ih =>
    simp only [encodeScan] at h
    split at h
    · cases h
    · split at h
      · cases h
      · split at h
        · cases h
        · next hl hm _ rest hr =>
          cases h
          obtain ⟨e, hc, ht⟩ := ih hr (by omega)
          rw [inputFrom_succ]
          refine ⟨by rw [List.flatMap_cons, e], ?_, by rw [List.length_append, length_code]; omega⟩
          intro b hb
          rcases List.mem_cons.1 hb with rfl | hb
          · intro hnil
            have := length_code c (input i)
            rw [hnil] at this
            exact hl this.symm
          · exact hc b hb

/-- UNKNOWN_SYMBOL at the first position whose symbol has no code (R191, R216). -/
theorem encodeScan_unknown {c : CodeTable} {input : Nat → Byte} {count i total k : Nat} (hk : k < count)
    (hc : ∀ b ∈ inputFrom input i k, c.code b ≠ [])
    (ht : total + ((inputFrom input i k).flatMap c.code).length ≤ Config.maxBitCount) (h0 : c.code (input (i + k)) = []) :
    encodeScan c input count i total =
      .error { code := .unknownSymbol, info0 := BitVec.ofNat 32 (i + k), info1 := (input (i + k)).setWidth 32 } := by
  induction k generalizing count i total with
  | zero =>
    obtain ⟨count, rfl⟩ : ∃ m, count = m + 1 := ⟨count - 1, by omega⟩
    simp only [encodeScan]
    rw [if_pos]
    · rfl
    · rw [← length_code]; simpa using h0
  | succ k ih =>
    obtain ⟨count, rfl⟩ : ∃ m, count = m + 1 := ⟨count - 1, by omega⟩
    rw [inputFrom_succ] at hc ht
    rw [List.flatMap_cons, List.length_append, length_code] at ht
    have h1 := hc (input i) (by simp)
    have hl : c.len[(input i).toNat].toNat ≠ 0 := by rw [← length_code]; simpa using h1
    have e : i + (k + 1) = i + 1 + k := by omega
    simp only [encodeScan]
    rw [if_neg hl, if_neg (by omega), ih (by omega) (fun b hb => hc b (by simp [hb])) (by omega) (by rw [← e]; exact h0), e]

/-- BIT_OVERFLOW at the first position whose code would pass 2^32 - 1 bits (R191, R216). -/
theorem encodeScan_overflow {c : CodeTable} {input : Nat → Byte} {count i total k : Nat} (hk : k < count)
    (hc : ∀ b ∈ inputFrom input i (k + 1), c.code b ≠ [])
    (ht : total + ((inputFrom input i k).flatMap c.code).length ≤ Config.maxBitCount)
    (ho : Config.maxBitCount < total + ((inputFrom input i (k + 1)).flatMap c.code).length) :
    encodeScan c input count i total =
      .error { code := .bitOverflow, info0 := BitVec.ofNat 32 (i + k), info1 := 0#32 } := by
  induction k generalizing count i total with
  | zero =>
    obtain ⟨count, rfl⟩ : ∃ m, count = m + 1 := ⟨count - 1, by omega⟩
    rw [inputFrom_succ] at hc ho
    simp only [inputFrom_zero, List.flatMap_cons, List.flatMap_nil, List.append_nil, length_code] at ho
    have h1 := hc (input i) (by simp)
    have hl : c.len[(input i).toNat].toNat ≠ 0 := by rw [← length_code]; simpa using h1
    simp only [encodeScan]
    rw [if_neg hl, if_pos ho]
    rfl
  | succ k ih =>
    obtain ⟨count, rfl⟩ : ∃ m, count = m + 1 := ⟨count - 1, by omega⟩
    rw [inputFrom_succ] at hc ht ho
    rw [List.flatMap_cons, List.length_append, length_code] at ht ho
    have h1 := hc (input i) (by simp)
    have hl : c.len[(input i).toNat].toNat ≠ 0 := by rw [← length_code]; simpa using h1
    have e : i + (k + 1) = i + 1 + k := by omega
    simp only [encodeScan]
    rw [if_neg hl, if_neg (by omega), ih (by omega) (fun b hb => hc b (List.mem_cons_of_mem _ hb)) (by omega) (by omega), e]

/-! ### The scan of DECODE, MULTI -/

/-- The stream carries these bits from bit k. -/
def StreamHas (stream : Nat → Bool) (k : Nat) (bits : List Bool) : Prop :=
  ∀ (j : Nat) (h : j < bits.length), stream (k + j) = bits[j]

theorem streamHas_cons {stream : Nat → Bool} {k : Nat} {b : Bool} {bits : List Bool} :
    StreamHas stream k (b :: bits) ↔ stream k = b ∧ StreamHas stream (k + 1) bits := by
  constructor
  · intro h
    refine ⟨h 0 (by simp), fun j hj => ?_⟩
    have := h (j + 1) (by simpa using hj)
    rw [Nat.add_right_comm, Nat.add_assoc, this, List.getElem_cons_succ]
  · rintro ⟨h0, h⟩ j hj
    cases j with
    | zero => simpa using h0
    | succ j =>
      rw [List.getElem_cons_succ, ← h j (by simpa using hj)]
      congr 1
      omega

theorem streamHas_append {stream : Nat → Bool} {k : Nat} {l r : List Bool} :
    StreamHas stream k (l ++ r) ↔ StreamHas stream k l ∧ StreamHas stream (k + l.length) r := by
  induction l generalizing k with
  | nil => simp [StreamHas]
  | cons b l ih =>
    rw [List.cons_append, streamHas_cons, ih, streamHas_cons, List.length_cons, and_assoc]
    have : k + 1 + l.length = k + (l.length + 1) := by omega
    rw [this]

theorem ne_nil_of_lt {nodes : List Node} {h : Handle} (hc : nodes.length ≤ Config.nodeCap) (hl : h.toNat < nodes.length) :
    h ≠ Config.nil := by
  rintro rfl
  simp [Config.nodeCap, Config.nil] at *
  omega

theorem Spans.root_lt {nodes : List Node} {sh : Shape} {h : Handle} {hs : List Nat} (s : Spans nodes sh h hs) :
    h.toNat < nodes.length := s.lt_length _ s.head_mem

/-- From an internal node a bit leads to a child. -/
theorem descend_of_spans {t : Tree} {l r : Shape} {h : Handle} {hs : List Nat} (hc : t.nodes.length ≤ Config.nodeCap)
    (s : Spans t.nodes (.node l r) h hs) (b : Bool) :
    ∃ c n ls rs, t.descend h b = some (c, n) ∧ t.nodes[c.toNat]? = some n ∧ hs = h.toNat :: (ls ++ rs) ∧
      Spans t.nodes (if b then r else l) c (if b then rs else ls) := by
  obtain ⟨n, ls, rs, hn, -, hhs, sl, sr⟩ := s
  cases b
  · have hlt := sl.root_lt
    refine ⟨n.left, t.nodes[n.left.toNat], ls, rs, ?_, List.getElem?_eq_getElem hlt, hhs, by simpa using sl⟩
    simp only [Tree.descend, Tree.node?, hn, Bool.false_eq_true, if_false]
    rw [if_neg (ne_nil_of_lt hc hlt), List.getElem?_eq_getElem hlt]
    rfl
  · have hlt := sr.root_lt
    refine ⟨n.right, t.nodes[n.right.toNat], ls, rs, ?_, List.getElem?_eq_getElem hlt, hhs, by simpa using sr⟩
    simp only [Tree.descend, Tree.node?, hn, if_true]
    rw [if_neg (ne_nil_of_lt hc hlt), List.getElem?_eq_getElem hlt]
    rfl

theorem Spans.kind_leaf {nodes : List Node} {sym : Byte} {h : Handle} {hs : List Nat} {n : Node}
    (s : Spans nodes (.leaf sym) h hs) (e : nodes[h.toNat]? = some n) : n.kind = .leaf ∧ n.sym = sym := by
  obtain ⟨-, m, hm, hk, hs⟩ := s
  rw [e] at hm
  cases hm
  exact ⟨hk, hs⟩

theorem Spans.kind_node {nodes : List Node} {l r : Shape} {h : Handle} {hs : List Nat} {n : Node}
    (s : Spans nodes (.node l r) h hs) (e : nodes[h.toNat]? = some n) : n.kind = .internal := by
  obtain ⟨m, _, _, hm, hk, _⟩ := s
  rw [e] at hm
  cases hm
  exact hk

/-- A bit that reaches a leaf emits its symbol. -/
theorem decodeBit_leaf {t : Tree} {h c : Handle} {n : Node} {b : Bool} {k start : Nat} {out : List Byte}
    (hm : t.state = .multi) (hd : t.descend h b = some (c, n)) (hk : n.kind = .leaf) :
    decodeBit t k b { at_ := h, start := start, out := out } =
      .ok { at_ := t.root, start := k + 1, out := out ++ [n.sym] } := by
  simp only [decodeBit, hm, hd, hk]

theorem decodeBit_internal {t : Tree} {h c : Handle} {n : Node} {b : Bool} {k start : Nat} {out : List Byte}
    (hm : t.state = .multi) (hd : t.descend h b = some (c, n)) (hk : n.kind = .internal) :
    decodeBit t k b { at_ := h, start := start, out := out } = .ok { at_ := c, start := start, out := out } := by
  simp only [decodeBit, hm, hd, hk]

/-- A whole path: its bits lead to its leaf, whose symbol is emitted. -/
theorem decodeScan_path {t : Tree} (hc : t.nodes.length ≤ Config.nodeCap) (hm : t.state = .multi) {stream : Nat → Bool}
    {sh : Shape} {h : Handle} {hs : List Nat} (s : Spans t.nodes sh h hs) {sym : Byte} {path : List Bool}
    (hp : (sym, path) ∈ sh.paths) (h0 : path ≠ []) {k start rest : Nat} {out : List Byte}
    (hst : StreamHas stream k path) :
    decodeScan t stream (path.length + rest) k { at_ := h, start := start, out := out } =
      decodeScan t stream rest (k + path.length)
        { at_ := t.root, start := k + path.length, out := out ++ [sym] } := by
  induction path generalizing sh h hs k with
  | nil => exact absurd rfl h0
  | cons b path ih =>
    obtain ⟨hb, hst⟩ := streamHas_cons.1 hst
    match sh, s, hp with
    | .leaf _, _, hp => simp [Shape.paths] at hp
    | .node l r, s, hp =>
      obtain ⟨c, n, ls, rs, hd, hn, -, sc⟩ := descend_of_spans hc s b
      have hp' : (sym, path) ∈ (if b then r else l).paths := by
        simp only [Shape.paths, List.mem_append, List.mem_map] at hp
        rcases hp with ⟨q, hq, e⟩ | ⟨q, hq, e⟩ <;> · cases e; exact hq
      have e : (b :: path).length + rest = (path.length + rest) + 1 := by simp; omega
      rw [e, decodeScan, hb]
      generalize hsub : (if b then r else l) = sub at sc hp'
      match sub, sc, hp' with
      | .leaf sym', sc, hp' =>
        obtain ⟨hk, hsym⟩ := sc.kind_leaf hn
        rw [decodeBit_leaf hm hd hk, hsym]
        simp only [Shape.paths, List.mem_singleton, Prod.mk.injEq] at hp'
        obtain ⟨rfl, rfl⟩ := hp'
        simp
      | .node l' r', sc, hp' =>
        rw [decodeBit_internal hm hd (sc.kind_node hn)]
        have hne : path ≠ [] := by
          rintro rfl
          simp only [Shape.paths, List.mem_append, List.mem_map] at hp'
          rcases hp' with ⟨q, -, e⟩ | ⟨q, -, e⟩ <;> cases e
        have := ih sc hp' hne hst (k := k + 1)
        simp only at this ⊢
        rw [this, List.length_cons]
        have : k + 1 + path.length = k + (path.length + 1) := by omega
        rw [this]

/-- The first bits of a path lead to an internal node below. -/
theorem decodeScan_part {t : Tree} (hc : t.nodes.length ≤ Config.nodeCap) (hm : t.state = .multi) {stream : Nat → Bool}
    {sh : Shape} {h : Handle} {hs : List Nat} (s : Spans t.nodes sh h hs) {sym : Byte} {path part : List Bool}
    (hp : (sym, path) ∈ sh.paths) (hpre : part <+: path) (hne : part ≠ path) {k start : Nat} {out : List Byte}
    (hst : StreamHas stream k part) :
    ∃ c, decodeScan t stream part.length k { at_ := h, start := start, out := out } =
        .ok { at_ := c, start := start, out := out } ∧ (part ≠ [] → c.toNat ∈ hs.tail) ∧ c.toNat ∈ hs := by
  induction part generalizing sh h hs path k with
  | nil => exact ⟨h, rfl, fun h => absurd rfl h, s.head_mem⟩
  | cons b part ih =>
    obtain ⟨hb, hst⟩ := streamHas_cons.1 hst
    obtain ⟨tl, rfl⟩ := hpre
    match sh, s, hp with
    | .leaf _, _, hp => simp [Shape.paths] at hp
    | .node l r, s, hp =>
      obtain ⟨c, n, ls, rs, hd, hn, hhs, sc⟩ := descend_of_spans hc s b
      have hp' : (sym, part ++ tl) ∈ (if b then r else l).paths := by
        simp only [Shape.paths, List.mem_append, List.mem_map] at hp
        rcases hp with ⟨⟨q₁, q₂⟩, hq, e⟩ | ⟨⟨q₁, q₂⟩, hq, e⟩ <;>
          · simp only [Prod.mk.injEq, List.cons_append, List.cons.injEq] at e
            obtain ⟨rfl, rfl, rfl⟩ := e
            exact hq
      have htl : part ≠ part ++ tl := fun e => hne (by rw [List.cons_append, ← e])
      rw [List.length_cons, decodeScan, hb]
      have hmem (x : Nat) (hx : x ∈ (if b then rs else ls)) : x ∈ hs.tail := by
        rw [hhs, List.tail_cons, List.mem_append]
        cases b
        · exact .inl (by simpa using hx)
        · exact .inr (by simpa using hx)
      generalize hsub : (if b then r else l) = sub at sc hp'
      match sub, sc, hp' with
      | .leaf sym', sc, hp' =>
        simp only [Shape.paths, List.mem_singleton, Prod.mk.injEq, List.append_eq_nil_iff] at hp'
        obtain ⟨-, rfl, rfl⟩ := hp'
        exact absurd rfl htl
      | .node l' r', sc, hp' =>
        rw [decodeBit_internal hm hd (sc.kind_node hn)]
        obtain ⟨c', e, -, hin⟩ := ih sc hp' ⟨tl, rfl⟩ htl hst
        exact ⟨c', e, fun _ => hmem _ hin, by rw [hhs]; exact List.mem_cons_of_mem _ (by simpa [hhs] using hmem _ hin)⟩

/-- Whole codes one after another (R192). -/
theorem decodeScan_codes {t : Tree} (hc : t.nodes.length ≤ Config.nodeCap) (hm : t.state = .multi) {stream : Nat → Bool}
    {l r : Shape} {hs : List Nat} (s : Spans t.nodes (.node l r) t.root hs) (code : Byte → List Bool) (more : List Byte)
    (hcode : ∀ sym ∈ more, (sym, code sym) ∈ (Shape.node l r).paths) {k rest : Nat} {out : List Byte}
    (hst : StreamHas stream k (more.flatMap code)) :
    decodeScan t stream ((more.flatMap code).length + rest) k { at_ := t.root, start := k, out := out } =
      decodeScan t stream rest (k + (more.flatMap code).length)
        { at_ := t.root, start := k + (more.flatMap code).length, out := out ++ more } := by
  induction more generalizing k out with
  | nil => simp
  | cons sym more ih =>
    rw [List.flatMap_cons] at hst ⊢
    obtain ⟨h1, h2⟩ := streamHas_append.1 hst
    have hp := hcode sym (by simp)
    have hne : code sym ≠ [] := by
      intro e
      rw [e] at hp
      simp only [Shape.paths, List.mem_append, List.mem_map] at hp
      rcases hp with ⟨q, -, e⟩ | ⟨q, -, e⟩ <;> cases e
    rw [List.length_append, Nat.add_assoc, decodeScan_path hc hm s hp hne h1,
      ih (fun x hx => hcode x (by simp [hx])) h2, Nat.add_assoc, List.append_assoc, List.singleton_append]

/-- In a MULTI tree no bit requests a missing node (R192, R48). -/
theorem decodeScan_multi_ok {t : Tree} (hc : t.nodes.length ≤ Config.nodeCap) (hm : t.state = .multi) {l r : Shape}
    {hs : List Nat} (s : Spans t.nodes (.node l r) t.root hs) (stream : Nat → Bool) (count k : Nat) (w : DecodeWalk)
    (hw : ∃ l' r' hs', Spans t.nodes (.node l' r') w.at_ hs') : ∃ w', decodeScan t stream count k w = .ok w' := by
  induction count generalizing k w with
  | zero => exact ⟨w, rfl⟩
  | succ count ih =>
    obtain ⟨h, start, out⟩ := w
    obtain ⟨l', r', hs', sw⟩ := hw
    obtain ⟨c, n, ls, rs, hd, hn, -, sc⟩ := descend_of_spans hc sw (stream k)
    rw [decodeScan]
    generalize (if stream k then r' else l') = sub at sc
    match sub, sc with
    | .leaf sym, sc =>
      rw [decodeBit_leaf hm hd (sc.kind_leaf hn).1]
      exact ih _ _ ⟨l, r, hs, s⟩
    | .node l'' r'', sc =>
      rw [decodeBit_internal hm hd (sc.kind_node hn)]
      exact ih _ _ ⟨l'', r'', _, sc⟩

/-! ### The scan of DECODE, SINGLE -/

theorem decodeScan_single {t : Tree} (hm : t.state = .single) {n : Node} (hn : t.node? t.root = some n)
    {stream : Nat → Bool} {count rest k : Nat} (hz : ∀ j, j < count → stream (k + j) = false) {h : Handle} {start : Nat}
    {out : List Byte} :
    ∃ start', decodeScan t stream (count + rest) k { at_ := h, start := start, out := out } =
      decodeScan t stream rest (k + count) { at_ := h, start := start', out := out ++ List.replicate count n.sym } := by
  induction count generalizing k start out with
  | zero => exact ⟨start, by simp⟩
  | succ count ih =>
    have e : count + 1 + rest = (count + rest) + 1 := by omega
    have h0 : stream k = false := hz 0 (by omega)
    obtain ⟨start', e'⟩ := ih (k := k + 1) (start := k + 1) (out := out ++ [n.sym])
      fun j hj => by rw [Nat.add_assoc, Nat.add_comm 1 j]; exact hz (j + 1) (by omega)
    refine ⟨start', ?_⟩
    rw [e, decodeScan, h0]
    simp only [decodeBit, hm, hn]
    rw [e']
    have h1 : k + 1 + count = k + (count + 1) := by omega
    rw [h1, List.append_assoc, List.singleton_append, List.replicate_succ]

/-! ### What the commands store -/

theorem bytesAt_eq_inputFrom (s : State) (src n : Nat) :
    s.bytesAt src n = inputFrom (fun i => s.memRead (src + i)) 0 n := by simp [State.bytesAt, inputFrom]

/-- Every check of ENCODE passed (R191). -/
theorem encodeStore_ok {s : State} {bits : List Bool} (hv : s.codes.valid = true)
    (hsrc : s.RangeOk s.srcOperand s.lengthOperand)
    (hscan : encodeScan s.codes (fun i => s.memRead (s.srcOperand + i)) s.lengthOperand 0 0 = .ok bits)
    (hdst : s.RangeOk s.dstOperand (bytesForBits bits.length))
    (hap : RangesApart s.srcOperand s.lengthOperand s.dstOperand (bytesForBits bits.length)) :
    s.encodeStore = .ok (bits.length, { base := s.dstOperand, bytes := packBits bits }) := by
  simp only [State.encodeStore, requireCodes_ok hv, checkRange_ok hsrc, hscan, length_packBits, checkRange_ok hdst,
    checkOverlap_ok hap]

/-- ENCODE stores only when every check passed. -/
theorem encodeStore_sound {s : State} {T : Nat} {st : Store} (h : s.encodeStore = .ok (T, st)) :
    s.codes.valid = true ∧ s.RangeOk s.srcOperand s.lengthOperand ∧ ∃ bits,
      encodeScan s.codes (fun i => s.memRead (s.srcOperand + i)) s.lengthOperand 0 0 = .ok bits ∧ T = bits.length ∧
      st = { base := s.dstOperand, bytes := packBits bits } ∧ s.RangeOk s.dstOperand (bytesForBits bits.length) ∧
      RangesApart s.srcOperand s.lengthOperand s.dstOperand (bytesForBits bits.length) := by
  have hv : s.codes.valid = true := by
    by_contra hv
    simp [State.encodeStore, requireCodes_error (Bool.eq_false_iff.2 hv)] at h
  have hsrc : s.RangeOk s.srcOperand s.lengthOperand := by
    by_contra hn
    simp [State.encodeStore, requireCodes_ok hv, checkRange_error hn] at h
  simp only [State.encodeStore, requireCodes_ok hv, checkRange_ok hsrc] at h
  split at h
  · cases h
  · next bits hscan =>
    rw [length_packBits] at h
    have hdst : s.RangeOk s.dstOperand (bytesForBits bits.length) := by
      by_contra hn
      simp [checkRange_error hn] at h
    simp only [checkRange_ok hdst] at h
    have hap : RangesApart s.srcOperand s.lengthOperand s.dstOperand (bytesForBits bits.length) := by
      by_contra hn
      simp [checkOverlap_error hn] at h
    simp only [checkOverlap_ok hap] at h
    cases h
    exact ⟨hv, hsrc, bits, hscan, rfl, rfl, hdst, hap⟩

/-- Every check of DECODE passed (R192). -/
theorem decodeStore_ok {s : State} {out : List Byte} (ht : s.tree.state ≠ .invalid)
    (hsrc : s.RangeOk s.srcOperand (bytesForBits s.lengthOperand))
    (hdec : decodeSymbols s.tree (s.streamBit s.srcOperand) s.lengthOperand = .ok out)
    (hdst : s.RangeOk s.dstOperand out.length)
    (hap : RangesApart s.srcOperand (bytesForBits s.lengthOperand) s.dstOperand out.length) :
    s.decodeStore = .ok { base := s.dstOperand, bytes := out } := by
  simp only [State.decodeStore, requireTree_ok ht, checkRange_ok hsrc, hdec, checkRange_ok hdst, checkOverlap_ok hap]

/-- DECODE stores only when every check passed. -/
theorem decodeStore_sound {s : State} {st : Store} (h : s.decodeStore = .ok st) :
    s.tree.state ≠ .invalid ∧ s.RangeOk s.srcOperand (bytesForBits s.lengthOperand) ∧
      decodeSymbols s.tree (s.streamBit s.srcOperand) s.lengthOperand = .ok st.bytes ∧ st.base = s.dstOperand ∧
      s.RangeOk s.dstOperand st.bytes.length ∧
      RangesApart s.srcOperand (bytesForBits s.lengthOperand) s.dstOperand st.bytes.length := by
  have ht : s.tree.state ≠ .invalid := by
    intro hn
    simp [State.decodeStore, requireTree_error hn] at h
  have hsrc : s.RangeOk s.srcOperand (bytesForBits s.lengthOperand) := by
    by_contra hn
    simp [State.decodeStore, requireTree_ok ht, checkRange_error hn] at h
  simp only [State.decodeStore, requireTree_ok ht, checkRange_ok hsrc] at h
  split at h
  · cases h
  · next out hdec =>
    have hdst : s.RangeOk s.dstOperand out.length := by
      by_contra hn
      simp [checkRange_error hn] at h
    simp only [checkRange_ok hdst] at h
    have hap : RangesApart s.srcOperand (bytesForBits s.lengthOperand) s.dstOperand out.length := by
      by_contra hn
      simp [checkOverlap_error hn] at h
    simp only [checkOverlap_ok hap] at h
    cases h
    exact ⟨ht, hsrc, hdec, rfl, hdst, hap⟩

/-- TREE_SERIALIZE stores only when every check passed (R155). -/
theorem serializeStore_sound {s : State} {st : Store} (h : s.serializeStore = .ok st) :
    s.tree.state ≠ .invalid ∧ st = { base := s.serializeDstOperand, bytes := s.tree.descriptor } ∧
      s.RangeOk s.serializeDstOperand s.tree.descriptor.length := by
  have ht : s.tree.state ≠ .invalid := by
    intro hn
    simp [State.serializeStore, requireTree_error hn] at h
  have hdst : s.RangeOk s.serializeDstOperand s.tree.descriptor.length := by
    by_contra hn
    simp [State.serializeStore, requireTree_ok ht, checkRange_error hn] at h
  simp only [State.serializeStore, requireTree_ok ht, checkRange_ok hdst] at h
  cases h
  exact ⟨ht, rfl, hdst⟩

/-! ### The symbols of a stream -/

theorem streamHas_of_holdsBits {s : State} {src : Nat} {bits : List Bool} (h : HoldsBits s src bits) :
    StreamHas (s.streamBit src) 0 bits := by
  intro j hj
  rw [Nat.zero_add]
  exact h j hj

/-- Codes of a tree, one after another, decode to the symbols they stand for (R192). -/
theorem decodeSymbols_codes {t : Tree} {sh : Shape} (hok : t.Ok) (hsh : t.HasShape (some sh)) {stream : Nat → Bool}
    (code : Byte → List Bool) (out : List Byte) (hcode : ∀ sym ∈ out, (sym, code sym) ∈ sh.codes)
    (hst : StreamHas stream 0 (out.flatMap code)) : decodeSymbols t stream (out.flatMap code).length = .ok out := by
  match sh, hsh with
  | .node l r, ⟨hm, hs, s⟩ =>
    have := decodeScan_codes (rest := 0) (out := []) hok.1 hm s code out hcode hst
    simp only [Nat.add_zero, Nat.zero_add, decodeScan, List.nil_append] at this
    simp only [decodeSymbols, this, hm, ne_eq, not_true_eq_false, and_false, if_false]
  | .leaf sym, ⟨hm, hs, s⟩ =>
    obtain ⟨-, n, hn, -, hsym⟩ := s
    have hc1 : ∀ x ∈ out, x = sym ∧ code x = [false] := by
      intro x hx
      simpa [Shape.codes] using hcode x hx
    have hbits : out.flatMap code = List.replicate out.length false := by
      clear hst
      induction out with
      | nil => rfl
      | cons x out ih =>
        rw [List.flatMap_cons, (hc1 x (by simp)).2, ih (fun y hy => hcode y (by simp [hy])) fun y hy => hc1 y (by simp [hy]),
          List.length_cons, List.replicate_succ, List.singleton_append]
    have hout : out = List.replicate out.length sym := List.eq_replicate_of_mem fun x hx => (hc1 x hx).1
    rw [hbits] at hst ⊢
    obtain ⟨start', e⟩ := decodeScan_single hm (n := n) hn (stream := stream) (count := out.length) (rest := 0) (k := 0)
      (h := t.root) (start := 0) (out := []) fun j hj => by
        have := hst j (by simpa using hj)
        simpa using this
    rw [Nat.add_zero, decodeScan] at e
    rw [List.length_replicate, decodeSymbols, e]
    simp only [hm, reduceCtorEq, false_and, if_false, List.nil_append, hsym]
    rw [← hout]

end Sys2Proof.Machine
end

