-- ==== Sys2Proof/Machine/Assembler.lean ====
section
/-! DEFINITION. The text of a host program (spec 30_encoding.md R89, R90): one operation a line, `;` starts a comment. A line is
read as words, commas and quoted characters; how often a waiting line polls STATUS is no part of the text (R251), so the reader
of a line is given it. A line that follows no form of R89 or R90 is none. -/

namespace Sys2Proof.Machine

/-- A piece of a line. -/
inductive Token where
  | word (w : String)
  | chr (c : Char)
  | comma
  deriving DecidableEq, Repr

/-- The word read so far, last letter first, if there is one. -/
def wordToken : List Char → List Token
  | [] => []
  | cs => [.word (String.ofList cs.reverse)]

/-- The pieces of a line up to its comment (R89). -/
def lineTokens : (text : List Char) → (word : List Char) → List Token
  | [], word => wordToken word
  | '\'' :: c :: '\'' :: rest, word => wordToken word ++ .chr c :: lineTokens rest []
  | c :: rest, word =>
    if c = ';' then wordToken word
    else if c = ',' then wordToken word ++ .comma :: lineTokens rest []
    else if c.isWhitespace then wordToken word ++ lineTokens rest []
    else lineTokens rest (c :: word)

/-- The value of a digit in a base. -/
def digitValue (base : Nat) (c : Char) : Option Nat :=
  let v :=
    if '0' ≤ c ∧ c ≤ '9' then c.toNat - '0'.toNat
    else if 'a' ≤ c ∧ c ≤ 'f' then c.toNat - 'a'.toNat + 10
    else if 'A' ≤ c ∧ c ≤ 'F' then c.toNat - 'A'.toNat + 10
    else base
  if v < base then some v else none

/-- The value of a nonempty string of digits. -/
def digitsValue (base : Nat) : List Char → Option Nat
  | [] => none
  | cs => cs.foldlM (fun acc c => (digitValue base c).map (base * acc + ·)) 0

/-- A number (00_scope.md R9): `0x` hexadecimal, `0b` binary, else decimal. -/
def numberValue : List Char → Option Nat
  | '0' :: 'x' :: cs => digitsValue 16 cs
  | '0' :: 'b' :: cs => digitsValue 2 cs
  | cs => digitsValue 10 cs

/-- The value of an operand: a number, or "a quoted character 'c' stands for its byte value" (R89). The spec gives ASCII byte
values only; DESIGN CHOICE (notes/assumptions/11.md): a quoted character outside ASCII has no value, so its line follows no
form. -/
def Token.value : Token → Option Nat
  | .word w => numberValue w.toList
  | .chr c => if c.toNat < 0x80 then some c.toNat else none
  | .comma => none

/-- An operand as a value of n bits, if it fits. -/
def Token.bits (n : Nat) (t : Token) : Option (BitVec n) :=
  match t.value with
  | none => none
  | some v => if v < 2 ^ n then some (BitVec.ofNat n v) else none

/-- The operands of a line: none at all, or one or more separated by commas. -/
def operands : List Token → Option (List Token)
  | [] => some []
  | [.comma] => none
  | [t] => some [t]
  | t :: .comma :: rest =>
    match t, operands rest with
    | .comma, _ => none
    | _, none => none
    | _, some [] => none
    | t, some ts => some (t :: ts)
  | _ => none

/-- The register of a name (10_state.md R43). -/
def regNamed (name : String) : Option Reg :=
  [("ID", Reg.id), ("CTRL", .ctrl), ("STATUS", .status), ("IRQ_EN", .irqEn), ("CMD", .cmd), ("ARG0", .arg 0), ("ARG1", .arg 1),
    ("ARG2", .arg 2), ("ARG3", .arg 3), ("RES0", .res 0), ("RES1", .res 1), ("RES2", .res 2), ("RES3", .res 3),
    ("ERR_INFO0", .errInfo0), ("ERR_INFO1", .errInfo1), ("PARAMS", .params), ("DMEM_LAST", .dmemLast)].lookup name

/-- A command from its mnemonic and its free fields (R89). -/
def instrNamed (mnemonic : String) (fields : List Token) : Option Instr :=
  match fields with
  | [] =>
    [("NOP", Instr.nop), ("PQ_PEEK", .pqPeek), ("PQ_POP", .pqPop), ("PQ_SIZE", .pqSize), ("FREQ_BUILD", .freqBuild),
      ("TREE_BUILD", .treeBuild), ("TREE_SERIALIZE", .treeSerialize), ("TREE_LOAD", .treeLoad), ("CODE_DERIVE", .codeDerive),
      ("ENCODE", .encode), ("DECODE", .decode)].lookup mnemonic
  | [f] =>
    if mnemonic = "PQ_NEW" then
      if f = .word "min" then some (.pqNew .min) else if f = .word "max" then some (.pqNew .max) else none
    else if mnemonic = "PQ_INSERT" then (f.bits 16).map .pqInsert
    else if mnemonic = "FREQ_READ" then (f.bits 8).map .freqRead
    else if mnemonic = "FREQ_WRITE" then (f.bits 8).map .freqWrite
    else if mnemonic = "TREE_NODE" then (f.bits 9).map .treeNode
    else none
  | [f, g] =>
    if mnemonic = "CODE_READ" then
      match f.bits 8, g.bits 3 with
      | some sym, some widx => some (.codeRead sym widx)
      | _, _ => none
    else none
  | _ => none

/-- Every operand as a value of n bits. -/
def allBits (n : Nat) : List Token → Option (List (BitVec n))
  | [] => some []
  | t :: ts =>
    match t.bits n, allBits n ts with
    | some v, some vs => some (v :: vs)
    | _, _ => none

/-- A command, read from its mnemonic and what follows it. -/
def instrText : List Token → Option Instr
  | .word mnemonic :: rest => (operands rest).bind (instrNamed mnemonic)
  | _ => none

/-- The lines whose operands are one or more values. `polls` says how often each `wait` of the line polls (R251). -/
def valuesLine (op : String) (polls : List Nat) (args : List Token) : Option Line :=
  if op = "wr" then
    match args with
    | [.word r, v] =>
      match regNamed r, v.bits 32 with
      | some r, some v => some (.wr r v)
      | _, _ => none
    | _ => none
  else if op = "rd" then
    match args with
    | [.word r] => (regNamed r).map .rd
    | _ => none
  else if op = "mw" then
    match args with
    | a :: b :: bs =>
      match a.value, allBits 8 (b :: bs) with
      | some a, some bytes => some (.mw a bytes)
      | _, _ => none
    | _ => none
  else if op = "mr" then
    match args with
    | [a, n] =>
      match a.value, n.value with
      | some a, some n => some (.mr a n)
      | _, _ => none
    | _ => none
  else if op = "setargs" then
    match allBits 32 args with
    | some (v :: vs) => if vs.length < 4 then some (.setargs (v :: vs)) else none
    | _ => none
  else if op = "pq_push" then
    match args with
    | [k, t] =>
      match k.bits 40, t.bits 16 with
      | some k, some t => some (.pqPush k t (polls.getD 0 0))
      | _, _ => none
    | _ => none
  else if op = "compress" then
    match allBits 32 args with
    | some [src, len, ddst, bdst] => some (.compress src len ddst bdst polls)
    | _ => none
  else if op = "decompress" then
    match allBits 32 args with
    | some [dsrc, dlen, bsrc, bcount, dst] => some (.decompress dsrc dlen bsrc bcount dst polls)
    | _ => none
  else none

/-- One line of text (R89, R90); an empty line, or one that is only a comment, is no operation. -/
def readLine (polls : List Nat) (text : String) : Option (Option Line) :=
  match lineTokens text.toList [] with
  | [] => some none
  | .word op :: rest =>
    (if op = "cmd" then (instrText rest).map .cmd
    else if op = "run" then (instrText rest).map fun i => .run i (polls.getD 0 0)
    else if op = "wait" then (if rest = [] then some (.wait (polls.getD 0 0)) else none)
    else (operands rest).bind (valuesLine op polls)).map some
  | _ => none

/-- A program as lines of text, each with its polls; none if a line follows no form. -/
def readProgram : List (String × List Nat) → Option (List Line)
  | [] => some []
  | (text, polls) :: rest =>
    match readLine polls text, readProgram rest with
    | some line, some lines => some (line.toList ++ lines)
    | _, _ => none

end Sys2Proof.Machine
end

