-- ==== Sys2Proof/Tests/Slice0.lean ====
section
/-! SUPPORT. The model's own tests: words written out from spec 30_encoding.md, the checks of WellFormed on ill-formed terms, one
step of each command on the vectors of spec 95_test_vectors.md (each test names its vector), and, for every statement of
Sys2Proof/Certificates/Slice0/Obligations.lean that has hypotheses, a state that meets them (`test_witness_…`). -/

namespace Sys2Proof.Tests

open Sys2Proof.Machine

/-! ### States and trees the tests start from -/

/-- A block of 0x1000 bytes after reset (95: "DMEM_BYTES = 0x1000"), with these bytes in DMEM and these operands latched. -/
def block (dmem : Memory) (l₀ l₁ l₂ : Word) : State :=
  { State.reset with dmem := dmem, dmemLast := 0xFFF#32, larg := #v[l₀, l₁, l₂, 0#32] }

/-- "aaaabbbcc" at offset 0 (vector F1). -/
def aaaabbbcc : Memory :=
  [(0, 0x61#8), (1, 0x61#8), (2, 0x61#8), (3, 0x61#8), (4, 0x62#8), (5, 0x62#8), (6, 0x62#8), (7, 0x63#8), (8, 0x63#8)]

/-- FREQ of vector T1. -/
def freqT1 : Vector Word 256 :=
  (((Vector.replicate 256 0#32).set 0x61 4#32).set 0x62 3#32).set 0x63 2#32

/-- The arena of vector T1. -/
def nodesT1 : List Node :=
  [ { kind := .leaf, sym := 0x61#8, left := 0x1FF#9, right := 0x1FF#9, weight := 4#40 },
    { kind := .leaf, sym := 0x62#8, left := 0x1FF#9, right := 0x1FF#9, weight := 3#40 },
    { kind := .leaf, sym := 0x63#8, left := 0x1FF#9, right := 0x1FF#9, weight := 2#40 },
    { kind := .internal, sym := 0x00#8, left := 2#9, right := 1#9, weight := 5#40 },
    { kind := .internal, sym := 0x00#8, left := 0#9, right := 3#9, weight := 9#40 } ]

/-- The tree of vector T1. -/
def treeT1 : Tree := { nodes := nodesT1, root := 4#9, state := .multi }

/-- Its shape. -/
def shapeT1 : Shape := .node (.leaf 0x61#8) (.node (.leaf 0x63#8) (.leaf 0x62#8))

/-- The tree of vector T5, a lone leaf. -/
def treeT5 : Tree :=
  { nodes := [{ kind := .leaf, sym := 0x7A#8, left := 0x1FF#9, right := 0x1FF#9, weight := 4#40 }], root := 0#9,
    state := .single }

/-- A block that holds the tree of T1 and its codes. -/
def blockT1 (dmem : Memory) (l₀ l₁ l₂ : Word) : State :=
  { block dmem l₀ l₁ l₂ with tree := treeT1, codes := deriveCodes treeT1 }

/-- The state a step or a command answers with. -/
def after (o : Host.Outcome State Fault Refusal) : Option State :=
  match o with
  | .next t => some t
  | .fault _ => none
  | .refused _ => none

/-- STATUS after a command. -/
def statusAfter (o : Host.Outcome State Fault Refusal) : Option Word := (after o).map State.statusWord

/-- RES0-RES3 after a command. -/
def resAfter (o : Host.Outcome State Fault Refusal) : Option (List Word) := (after o).map fun t => t.res.toList

/-- ERRCODE and ERR_INFO0-1 after a command that failed. -/
def errorAfter (o : Host.Outcome State Fault Refusal) : Option (ErrCode × Word × Word) :=
  (after o).map fun t => (t.status.errCode, t.errInfo0, t.errInfo1)

/-! ### Decoding (30_encoding.md R84, the patterns bit by bit) -/

theorem test_decode_nop : decode 0b00000000000000000000000000000000#32 = some .nop := by decide
theorem test_decode_pqNew_min : decode 0b00000000000000000000000000000001#32 = some (.pqNew .min) := by decide
theorem test_decode_pqNew_max : decode 0b00000000000000000000000100000001#32 = some (.pqNew .max) := by decide
theorem test_decode_pqInsert : decode 0b10111110111011110000000000000010#32 = some (.pqInsert 0xBEEF#16) := by decide
theorem test_decode_pqPeek : decode 0b00000000000000000000000000000011#32 = some .pqPeek := by decide
theorem test_decode_pqPop : decode 0b00000000000000000000000000000100#32 = some .pqPop := by decide
theorem test_decode_pqSize : decode 0b00000000000000000000000000000101#32 = some .pqSize := by decide
theorem test_decode_freqBuild : decode 0b00000000000000000000000000010000#32 = some .freqBuild := by decide
theorem test_decode_freqRead : decode 0b00000000011000100000000000010001#32 = some (.freqRead 0x62#8) := by decide
theorem test_decode_freqWrite : decode 0b00000000011110100000000000010010#32 = some (.freqWrite 0x7A#8) := by decide
theorem test_decode_treeBuild : decode 0b00000000000000000000000000100000#32 = some .treeBuild := by decide
theorem test_decode_treeNode : decode 0b00000001000000010000000000100001#32 = some (.treeNode 0x101#9) := by decide
theorem test_decode_treeSerialize : decode 0b00000000000000000000000000100010#32 = some .treeSerialize := by decide
theorem test_decode_treeLoad : decode 0b00000000000000000000000000100011#32 = some .treeLoad := by decide
theorem test_decode_codeDerive : decode 0b00000000000000000000000000110000#32 = some .codeDerive := by decide
theorem test_decode_codeRead : decode 0b00000101011000010000000000110001#32 = some (.codeRead 0x61#8 5#3) := by decide
theorem test_decode_encode : decode 0b00000000000000000000000001000000#32 = some .encode := by decide
theorem test_decode_decode : decode 0b00000000000000000000000001000001#32 = some .decode := by decide

/-- X1-X10: the illegal words of 95_test_vectors.md section 2.1. -/
theorem test_illegal_words :
    [0x00000006#32, 0x000000FF#32, 0x00000104#32, 0x00000200#32, 0x00010003#32, 0x01000011#32, 0x02000021#32, 0x08000031#32,
      0x00008002#32, 0xFFFFFFFF#32].map decode = List.replicate 10 none := by decide

/-- A word longer than 32 bits is no command (R88); zeros above the table's bits are no fields. -/
theorem test_decodeTableWord : decodeTableWord 32 0x00620011 = some (.freqRead 0x62#8) ∧ decodeTableWord 40 0x20 = none := by
  decide

/-! ### WellFormed: an ill-formed term for each check, which the check refuses -/

theorem test_regAccess_width_refused : regAccessWf 0x10 2 = false := by decide
theorem test_regAccess_alignment_refused : regAccessWf 0x12 4 = false := by decide
theorem test_regAccess_window_refused : regAccessWf 0x80 4 = false := by decide
theorem test_regAccess_accepted : regAccessWf 0x7C 4 = true := by decide
theorem test_dmemOffset_refused : dmemOffsetWf 0x1000 0x1000 = false := by decide
theorem test_dmemOffset_accepted : dmemOffsetWf 0x1000 0xFFF = true := by decide
theorem test_every_command_wf : (Instr.codeRead 0xFF#8 7#3).wf = true := by decide

/-! ### The host port -/

/-- H1: the constants and the unmapped offsets after reset. -/
theorem test_reset_registers :
    [Reg.id, .ctrl, .status, .irqEn, .cmd, .params, .dmemLast, .unmapped].map (block [] 0#32 0#32 0#32).readReg =
      [0x48554631#32, 0#32, 0#32, 0#32, 0#32, 0x01FF0100#32, 0x00000FFF#32, 0#32] := by decide +kernel

/-- The window (R43): the offsets of the registers, and the refused accesses of R68. -/
theorem test_window :
    registerAt 0x10 4 = some .cmd ∧ registerAt 0x20 4 = some (.arg 3) ∧ registerAt 0x24 4 = some (.res 0) ∧
      registerAt 0x7C 4 = some .unmapped ∧ registerAt 0x80 4 = none ∧ registerAt 0x12 4 = none ∧ registerAt 0x10 1 = none := by
  decide

/-- H6, H7: what STATUS writes clear. -/
theorem test_status_write :
    let failed := (block [] 0#32 0#32 0#32).fail { code := .illegalCmd, info0 := 6#32, info1 := 0#32 }
    (failed.writeStatus 0x00000004#32).statusWord = 0x00000012#32 ∧
      (failed.writeStatus 0xFFFFFFFF#32).statusWord = 0x00000010#32 := by decide +kernel

/-- H9: a CMD write while BUSY = 1 sets OVERRUN and leaves the latched command. -/
theorem test_overrun :
    let s := ((block [] 0#32 0#32 0#32).writeCmd 0x00000020#32).writeCmd 0x00000000#32
    s.statusWord = 0x00000009#32 ∧ s.lastCmd = 0x00000020#32 ∧ s.lcmd = 0x00000020#32 := by decide +kernel

/-- H12: irq follows DONE and DONE_IE. -/
theorem test_irq :
    let s := { block [] 0#32 0#32 0#32 with irqEn := 1#3 }
    (s.accept 0#32).irq = false ∧ (s.accept 0#32).complete.irq = true ∧
      ((s.accept 0#32).complete.writeStatus 2#32).irq = false := by decide +kernel

/-- R66: byte lane 1 of a register is its bits [15:8]. -/
theorem test_register_byte : registerByte 0x48554631#32 1 = 0x46#8 := by decide

/-- U6: a host DMEM access while BUSY = 1 is HOST_RACE; U8: one outside DMEM is refused. -/
theorem test_dmem_access :
    (hostDmemRead 0 { block [] 0#32 0#32 0#32 with status := { StatusFlags.reset with busy := true } } matches
        .fault .hostRace) = true ∧
      (hostDmemRead 0x1000 (block [] 0#32 0#32 0#32) matches .refused .dmemOffsetOutside) = true := by decide +kernel

/-- Z2: a soft reset abandons a running TREE_SERIALIZE; only its eight bytes may change. -/
theorem test_abandoned_write_set :
    let s := { blockT1 [] 0x100#32 0#32 0#32 with lcmd := 0x22#32, status := { StatusFlags.reset with busy := true } }
    (s.pendingStore.map fun st => (st.base, st.bytes.length)) = some (0x100, 8) ∧ s.resetBlock.statusWord = 0#32 := by
  decide +kernel

/-- R90: the `run` pseudo-instruction, with one read of STATUS before the command ends. -/
theorem test_run_line :
    Line.steps (.run .treeBuild 1) =
      [.regWrite 0x10 4 0x20#32, .waitIdle 0] := by decide

/-- R90: with BUSY = 0 the loop of `wait` ends at its first read. -/
theorem test_wait_idle :
    ((after (step ((block [] 0#32 0#32 0#32).withProgram [.wait 3]))).map fun t => (t.inputs, t.replies)) =
      some ([], [.reg 0x08 0#32]) := by decide +kernel

/-- R89: the lines of its examples (R183, R141), a quoted `;`, and lines that follow no form. -/
theorem test_readLine :
    readLine [] "cmd CODE_READ 0x62, 0    ; -> RES0 = 2" = some (some (.cmd (.codeRead 0x62#8 0#3))) ∧
      readLine [] "mw 0, 'a', 0x61, ';'" = some (some (.mw 0 [0x61#8, 0x61#8, 0x3B#8])) ∧
      readLine [2] "run PQ_NEW max" = some (some (.run (.pqNew .max) 2)) ∧ readLine [] " ; ARG0 = 5" = some none ∧
      readLine [] "cmd TREE_NODE 512" = none ∧ readLine [] "wr ARG0 5" = none ∧ readLine [] "wr ARG0, '€'" = none ∧ readLine [] "cmd NOP 0" = none := by
  decide +kernel

/-- H2 as a host program: the two STATUS reads of `run NOP`. -/
theorem test_run_nop :
    ((after (Sys2Proof.core.run 4 ((block [] 0#32 0#32 0#32).withProgram [.run .nop 1]))).map fun t => t.replies) =
      some [.reg 0x08 2#32, .reg 0x08 1#32] := by decide +kernel

/-- The placed word is the next executed (host contract), here TREE_NODE 0 from reset: BAD_HANDLE(0, 0). -/
theorem test_withFetchWord :
    errorAfter (step (State.reset.withFetchWord 32 0x00000021)) = some (.badHandle, 0#32, 0#32) := by decide +kernel

/-! ### Commands -/

/-- H2. -/
theorem test_nop : statusAfter (exec .nop ((block [] 0#32 0#32 0#32).accept 0#32)) = some 0x00000002#32 := by decide +kernel

/-- R128's example. -/
theorem test_pqNew :
    statusAfter (exec (.pqNew .max) { block [] 0#32 0#32 0#32 with queue := { policy := .min, heap := [⟨3#40, 0#16⟩] } }) =
      some 0x00008002#32 := by decide +kernel

/-- R129's example: [(3,0)] and (1,1) give [(1,1), (3,0)]. -/
theorem test_pqInsert :
    ((after (exec (.pqInsert 1#16)
        { block [] 1#32 0#32 0#32 with queue := { policy := .min, heap := [⟨3#40, 0#16⟩] } })).map fun t => t.queue.heap) =
      some [⟨1#40, 1#16⟩, ⟨3#40, 0#16⟩] := by decide +kernel

/-- Q7, the latched operands: the key is LARG1[7:0] ++ LARG0. -/
theorem test_pqInsert_key : (block [] 0x89ABCDEF#32 0xFFFFFF12#32 0#32).keyOperand = 0x1289ABCDEF#40 := by decide +kernel

/-- Q7: what PQ_PEEK shows of it. -/
theorem test_pqPeek :
    resAfter (exec .pqPeek
        { block [] 0#32 0#32 0#32 with queue := { policy := .min, heap := [⟨0x1289ABCDEF#40, 0xBEEF#16⟩] } }) =
      some [0x89ABCDEF#32, 0x00000012#32, 0x0000BEEF#32, 1#32] := by decide +kernel

/-- Q5: an empty queue is not an error. -/
theorem test_pqPeek_empty :
    resAfter (exec .pqPeek (block [] 0#32 0#32 0#32)) = some [0#32, 0#32, 0#32, 0#32] := by decide +kernel

/-- Q1, the first pop: (1,1), leaving the heap of R127. -/
theorem test_pqPop :
    let s := { block [] 0#32 0#32 0#32 with
      queue := { policy := .min, heap := [⟨1#40, 1#16⟩, ⟨1#40, 3#16⟩, ⟨4#40, 2#16⟩, ⟨3#40, 0#16⟩, ⟨5#40, 4#16⟩] } }
    ((after (exec .pqPop s)).map fun t => (t.res.toList, t.queue.heap)) =
      some ([1#32, 0#32, 1#32, 1#32], [⟨1#40, 3#16⟩, ⟨3#40, 0#16⟩, ⟨4#40, 2#16⟩, ⟨5#40, 4#16⟩]) := by decide +kernel

/-- Q3 and R133 (3): equal keys come out as A, C, B. -/
theorem test_equal_keys :
    let h := heapInsert .min (heapInsert .min (heapInsert .min [] ⟨5#40, 0xA#16⟩) ⟨5#40, 0xB#16⟩) ⟨5#40, 0xC#16⟩
    (heapPop .min h).map (fun x => (x.1.tag, (heapPop .min x.2).map fun y => (y.1.tag, y.2))) =
      some (0xA#16, some (0xC#16, [⟨5#40, 0xB#16⟩])) := by decide +kernel

/-- Q4. -/
theorem test_pqSize :
    resAfter (exec .pqSize
        { block [] 0#32 0#32 0#32 with queue := { policy := .min, heap := List.replicate 5 ⟨1#40, 1#16⟩ } }) =
      some [5#32, 0#32, 0#32, 0#32] := by decide +kernel

/-- F1. -/
theorem test_freqBuild :
    ((after (exec .freqBuild (block aaaabbbcc 0#32 9#32 0#32))).map fun t =>
        (t.res[0], t.freq[0x61], t.freq[0x62], t.freq[0x63], t.freq[0x64])) =
      some (3#32, 4#32, 3#32, 2#32, 0#32) := by decide +kernel

/-- F4. -/
theorem test_freqBuild_badAddr :
    errorAfter (exec .freqBuild (block aaaabbbcc 0xFF8#32 9#32 0#32)) = some (.badAddr, 0xFF8#32, 9#32) := by decide +kernel

/-- F2. -/
theorem test_freqRead :
    resAfter (exec (.freqRead 0x62#8) { block [] 0#32 0#32 0#32 with freq := freqT1 }) =
      some [3#32, 0#32, 0#32, 0#32] := by decide +kernel

/-- F7. -/
theorem test_freqWrite :
    ((after (exec (.freqWrite 0x7A#8) (block [] 7#32 0#32 0#32))).map fun t => (t.freq[0x7A], t.freq[0x7B])) =
      some (7#32, 0#32) := by decide +kernel

/-- T1: the arena, the root and the results. -/
theorem test_treeBuild :
    ((after (exec .treeBuild { block [] 0#32 0#32 0#32 with freq := freqT1 })).map fun t =>
        (t.tree, t.queue.heap, t.statusWord, t.res.toList)) =
      some (treeT1, [], 0x00003002#32, [4#32, 5#32, 3#32, 0#32]) := by decide +kernel

/-- T6: an all-zero table. -/
theorem test_treeBuild_empty :
    ((after (exec .treeBuild (block [] 0#32 0#32 0#32))).map fun t => (t.statusWord, t.res.toList)) =
      some (0x00001002#32, [0x1FF#32, 0#32, 0#32, 0#32]) := by decide +kernel

/-- T1.4. -/
theorem test_treeNode :
    resAfter (exec (.treeNode 4#9) (blockT1 [] 0#32 0#32 0#32)) = some [1#32, 0x00030000#32, 9#32, 0#32] := by decide +kernel

/-- T1.6. -/
theorem test_treeNode_badHandle :
    errorAfter (exec (.treeNode 0x1FF#9) (blockT1 [] 0#32 0#32 0#32)) = some (.badHandle, 0x1FF#32, 5#32) := by
  decide +kernel

/-- S1. -/
theorem test_treeSerialize :
    ((after (exec .treeSerialize (blockT1 [] 0x100#32 0#32 0#32))).map fun t => (t.res[0], t.dmem)) =
      some (8#32, [(0x100, 0x00#8), (0x101, 0x01#8), (0x102, 0x61#8), (0x103, 0x00#8), (0x104, 0x01#8), (0x105, 0x63#8),
        (0x106, 0x01#8), (0x107, 0x62#8)]) := by decide +kernel

/-- S9. -/
theorem test_treeSerialize_badAddr :
    errorAfter (exec .treeSerialize (blockT1 [] 0xFFC#32 0#32 0#32)) = some (.badAddr, 0xFFC#32, 8#32) := by decide +kernel

/-- L4. -/
theorem test_treeLoad :
    ((after (exec .treeLoad (block [(0x100, 0x01#8), (0x101, 0x7A#8)] 0x100#32 2#32 0#32))).map fun t =>
        (t.tree.state, t.tree.nodes, t.res.toList)) =
      some (.single, [{ kind := .leaf, sym := 0x7A#8, left := 0x1FF#9, right := 0x1FF#9, weight := 0#40 }],
        [0#32, 1#32, 1#32, 0#32]) := by decide +kernel

/-- L10: a repeated symbol. -/
theorem test_treeLoad_repeated :
    errorAfter (exec .treeLoad
        (block [(0, 0x00#8), (1, 0x01#8), (2, 0x61#8), (3, 0x01#8), (4, 0x61#8)] 0#32 5#32 0#32)) =
      some (.descMalformed, 4#32, 3#32) := by decide +kernel

/-- K1. -/
theorem test_codeDerive :
    ((after (exec .codeDerive { block [] 0#32 0#32 0#32 with tree := treeT1 })).map fun t =>
        (t.statusWord, t.res.toList, [0x61#8, 0x62#8, 0x63#8].map t.codes.code)) =
      some (0x00007002#32, [3#32, 2#32, 0#32, 0#32], [[false], [true, true], [true, false]]) := by decide +kernel

/-- K3: the lone leaf's code is "0". -/
theorem test_codeDerive_single :
    ((after (exec .codeDerive { block [] 0#32 0#32 0#32 with tree := treeT5 })).map fun t =>
        (t.statusWord, t.res[0], t.res[1], t.codes.code 0x7A#8)) =
      some (0x00006002#32, 1#32, 1#32, [false]) := by decide +kernel

/-- K1.b. -/
theorem test_codeRead :
    resAfter (exec (.codeRead 0x62#8 0#3) (blockT1 [] 0#32 0#32 0#32)) = some [2#32, 0xC0000000#32, 0#32, 0#32] := by
  decide +kernel

/-- K10. -/
theorem test_codeRead_noCodes :
    errorAfter (exec (.codeRead 0x61#8 0#3) (block [] 0#32 0#32 0#32)) = some (.noCodes, 0#32, 0#32) := by decide +kernel

/-- N1. -/
theorem test_encode :
    ((after (exec .encode (blockT1 aaaabbbcc 0#32 9#32 0x200#32))).map fun t =>
        (t.res[0], t.res[1], t.memRead 0x200, t.memRead 0x201)) =
      some (14#32, 2#32, 0x0F#8, 0xE8#8) := by decide +kernel

/-- N9. -/
theorem test_encode_overlap :
    errorAfter (exec .encode (blockT1 aaaabbbcc 0#32 9#32 8#32)) = some (.rangeOverlap, 0#32, 8#32) := by decide +kernel

/-- D1. -/
theorem test_decode :
    ((after (exec .decode (blockT1 [(0x200, 0x0F#8), (0x201, 0xE8#8)] 0x200#32 14#32 0x300#32))).map fun t =>
        (t.res[0], t.bytesAt 0x300 9)) =
      some (9#32, [0x61#8, 0x61#8, 0x61#8, 0x61#8, 0x62#8, 0x62#8, 0x62#8, 0x63#8, 0x63#8]) := by decide +kernel

/-- D2. -/
theorem test_decode_truncated :
    errorAfter (exec .decode (blockT1 [(0x200, 0x0F#8), (0x201, 0xE8#8)] 0x200#32 13#32 0x300#32)) =
      some (.truncatedStream, 12#32, 8#32) := by decide +kernel

/-! ### Witnesses: states that meet the hypotheses of each statement together -/

/-- Busy with a legal command. -/
def running (w : Word) (inputs : List Input) : State :=
  { blockT1 aaaabbbcc 0#32 9#32 0x200#32 with
    lcmd := w, status := { StatusFlags.reset with busy := true }, inputs := inputs }

/-- Idle, with this input next. -/
def idle (inputs : List Input) : State := { blockT1 aaaabbbcc 0#32 9#32 0x200#32 with inputs := inputs }

theorem exec_next (i : Instr) (s : State) : ∃ t, exec i s = .next t := by
  obtain ⟨r, e, -⟩ := exec_eq_finish i s
  cases r with
  | ok t => exact ⟨_, e⟩
  | error r => exact ⟨_, e⟩

theorem treeT1_shape : treeT1.HasShape (some shapeT1) :=
  ⟨rfl, [4, 0, 3, 2, 1], _, [0], [3, 2, 1], rfl, rfl, rfl, ⟨rfl, _, rfl, rfl, rfl⟩, _, [2], [1], rfl, rfl, rfl,
    ⟨rfl, _, rfl, rfl, rfl⟩, rfl, _, rfl, rfl, rfl⟩

theorem treeT1_ok : treeT1.Ok := by
  obtain ⟨h, hs, sp⟩ := treeT1_shape
  refine ⟨by decide, ?_, ⟨shapeT1, [4, 0, 3, 2, 1], ?_, by decide, by decide⟩, _, rfl, rfl⟩
  · intro n hn
    fin_cases hn <;> simp [Node.Ok, Config.nil]
  · exact ⟨_, [0], [3, 2, 1], rfl, rfl, rfl, ⟨rfl, _, rfl, rfl, rfl⟩, _, [2], [1], rfl, rfl, rfl,
      ⟨rfl, _, rfl, rfl, rfl⟩, rfl, _, rfl, rfl, rfl⟩

theorem treeT5_shape : treeT5.HasShape (some (.leaf 0x7A#8)) := ⟨rfl, [0], rfl, _, rfl, rfl, rfl⟩

theorem treeT5_ok : treeT5.Ok := by
  refine ⟨by decide, ?_, ⟨.leaf 0x7A#8, [0], ⟨rfl, _, rfl, rfl, rfl⟩, by decide, by decide⟩, rfl, _, rfl, rfl⟩
  intro n hn
  fin_cases hn
  exact ⟨rfl, rfl⟩

theorem emptyTree_ok : ({ nodes := [], root := Config.nil, state := .empty } : Tree).Ok :=
  ⟨by decide, by simp, rfl, rfl⟩

theorem codesT1_ok (dmem : Memory) (l₀ l₁ l₂ : Word) : (blockT1 dmem l₀ l₁ l₂).CodesOk :=
  fun _ => ⟨by show treeT1.state ≠ .invalid; decide, rfl⟩

theorem codesT1_valid (dmem : Memory) (l₀ l₁ l₂ : Word) : (blockT1 dmem l₀ l₁ l₂).codes.valid = true :=
  (deriveCodes_spec treeT1_shape (by rintro x ⟨⟩; rfl) (by rintro x ⟨⟩; decide)).valid

/-- Three elements in heap order. -/
def three : Queue := { policy := .min, heap := [⟨1#40, 1#16⟩, ⟨3#40, 0#16⟩, ⟨2#40, 2#16⟩] }

theorem three_ok (s : State) : ({ s with queue := three } : State).QueueOk := by
  refine ⟨by show three.size ≤ 256; decide, ?_⟩
  show HeapOrdered three.policy three.heap
  unfold HeapOrdered
  decide

theorem resetTree_ok : State.reset.tree.Ok := ⟨by decide, by simp [State.reset, Tree.reset], rfl, rfl⟩

theorem test_witness_DecodedWordIsEncoding : ∃ w i, decode w = some i := ⟨0x00620011#32, _, test_decode_freqRead⟩

theorem test_witness_OneRowSelects : ∃ (w : Word) (j k : Fin opcodeTable.length),
    opcodeTable[j].selects w = true ∧ opcodeTable[k].selects w = true :=
  ⟨0x00620011#32, ⟨7, by decide⟩, ⟨7, by decide⟩, by decide, by decide⟩

theorem test_witness_StepRunsLatchedCommand :
    (∃ (s : State) (i : Instr), s.status.busy = true ∧ decode s.lcmd = some i ∧ s.inputs = []) ∧
      (∃ (s : State) (i : Instr) (rest : List Input), s.status.busy = true ∧ decode s.lcmd = some i ∧
        s.inputs = Input.engine :: rest) ∧
      (∃ s : State, s.status.busy = true ∧ decode s.lcmd = none ∧ s.inputs = []) ∧
      ∃ (s : State) (rest : List Input), s.status.busy = true ∧ decode s.lcmd = none ∧ s.inputs = Input.engine :: rest :=
  ⟨⟨running 0x20#32 [], _, rfl, test_decode_treeBuild, rfl⟩,
    ⟨running 0x20#32 [.engine, .engine], _, _, rfl, test_decode_treeBuild, rfl⟩,
    ⟨running 0x06#32 [], rfl, by decide, rfl⟩, running 0x06#32 [.engine], _, rfl, by decide, rfl⟩

theorem test_witness_PlacedWordRunsNext : ∃ nbits w i, decodeTableWord nbits w = some i :=
  ⟨32, 0x00620011, _, test_decodeTableWord.1⟩

theorem test_witness_AcceptedCommandCompletes :
    (∃ s : State, s.inputs = [] ∧ s.status.busy = true) ∧ (∃ s : State, s.inputs = [] ∧ s.status.busy = false) ∧
      (∃ (s : State) (rest : List Input), s.inputs = Input.engine :: rest ∧ s.status.busy = true) ∧
      ∃ (s : State) (rest : List Input), s.inputs = Input.engine :: rest ∧ s.status.busy = false :=
  ⟨⟨running 0x20#32 [], rfl, rfl⟩, ⟨State.reset, rfl, rfl⟩, ⟨running 0x06#32 [.engine], _, rfl, rfl⟩, idle [.engine], _, rfl, rfl⟩

theorem test_witness_OnlyTheseCommandsWrite :
    (∃ s t, exec .pqPeek s = .next t) ∧ ∃ s t, exec .freqBuild s = .next t ∧ t.status.errCode ≠ .ok :=
  ⟨⟨idle [], exec_next _ _⟩, block [] 0xFF8#32 9#32 0#32, _, rfl, by decide +kernel⟩

theorem test_witness_OnlyTheseChangeTreeState :
    (∃ s t : State, step s = .next t ∧ t.tree.state ≠ s.tree.state ∧ ∃ rest, s.inputs = .reset :: rest) ∧
      (∃ s t : State, step s = .next t ∧ t.tree.state ≠ s.tree.state ∧ ∃ v rest, s.inputs = .regWrite 0x04 4 v :: rest) ∧
      ∃ s t : State, step s = .next t ∧ t.tree.state ≠ s.tree.state ∧ s.inputs = [] :=
  ⟨⟨idle [.reset], _, rfl, by decide, _, rfl⟩, ⟨idle [.regWrite 0x04 4 1#32], _, rfl, by decide, _, _, rfl⟩,
    { block [] 0#32 0#32 0#32 with lcmd := 0x20#32, status := { StatusFlags.reset with busy := true } }, _, rfl,
    by decide +kernel, rfl⟩

theorem test_witness_OverrunIsSticky :
    (∃ s t : State, step s = .next t ∧ s.status.overrun = false ∧ t.status.overrun = true) ∧
      ∃ s t : State, step s = .next t ∧ s.status.overrun = true ∧ t.status.overrun = false :=
  ⟨⟨running 0x20#32 [.regWrite 0x10 4 0#32], _, rfl, rfl, rfl⟩,
    (idle [.regWrite 0x08 4 8#32]).overrun, _, rfl, rfl, rfl⟩

theorem test_witness_BusyFollowsLifecycle :
    (∃ s t : State, step s = .next t ∧ s.status.busy = false ∧ t.status.busy = true) ∧
      (∃ s t : State, step s = .next t ∧ s.status.busy = true ∧ t.status.busy = false ∧ s.inputs = []) ∧
      ∃ s t : State, step s = .next t ∧ s.status.busy = true ∧ t.status.busy = false ∧ ∃ rest, s.inputs = .reset :: rest :=
  ⟨⟨idle [.regWrite 0x10 4 0x20#32], _, rfl, rfl, rfl⟩, ⟨running 0x00#32 [], _, rfl, rfl, rfl, rfl⟩,
    running 0x00#32 [.reset], _, rfl, rfl, rfl, _, rfl⟩

theorem test_witness_RunningCommandUndisturbed :
    ∃ (s t : State) (x : Input) (rest : List Input), s.status.busy = true ∧ s.inputs = x :: rest ∧ x ≠ .engine ∧ x ≠ .reset ∧
      (∀ v, x = .regWrite 0x04 4 v → v.getLsbD 0 = false) ∧ step s = .next t :=
  ⟨running 0x20#32 [.regWrite 0x14 4 9#32], _, _, _, rfl, rfl, by decide, by decide, by rintro v ⟨⟩, rfl⟩

theorem test_witness_RegisterReads :
    (∃ (s : State) (rest : List Input), s.inputs = Input.regRead 0x00 4 :: rest) ∧ (∃ (s : State) (rest : List Input), s.inputs = Input.regRead 0x44 4 :: rest) ∧
      ∃ (s : State) (rest : List Input), s.inputs = Input.regRead 0x7C 4 :: rest :=
  ⟨⟨idle [.regRead 0x00 4], _, rfl⟩, ⟨idle [.regRead 0x44 4], _, rfl⟩, idle [.regRead 0x7C 4], _, rfl⟩

theorem test_witness_StatusLayout : ∃ s : State, s.queue.size ≤ 256 := ⟨State.reset, by decide⟩

theorem test_witness_ArgAndIrqEnWrite :
    (∃ (s : State) (v : Word) (rest : List Input), s.inputs = .regWrite (0x14 + 4 * (3 : Fin 4).val) 4 v :: rest) ∧
      ∃ (s : State) (v : Word) (rest : List Input), s.inputs = .regWrite 0x0C 4 v :: rest :=
  ⟨⟨running 0x20#32 [.regWrite 0x20 4 9#32], _, _, rfl⟩, idle [.regWrite 0x0C 4 0xFFFFFFFF#32], _, _, rfl⟩

theorem test_witness_StatusWrite : ∃ (s : State) (v : Word) (rest : List Input), s.inputs = .regWrite 0x08 4 v :: rest :=
  ⟨running 0x20#32 [.regWrite 0x08 4 0xFFFFFFFF#32], _, _, rfl⟩

theorem test_witness_CmdWrite :
    (∃ (s : State) (v : Word) (rest : List Input), s.inputs = .regWrite 0x10 4 v :: rest ∧ s.status.busy = false) ∧
      ∃ (s : State) (v : Word) (rest : List Input), s.inputs = .regWrite 0x10 4 v :: rest ∧ s.status.busy = true :=
  ⟨⟨idle [.regWrite 0x10 4 0xFFFFFFFF#32], _, _, rfl, rfl⟩, running 0x20#32 [.regWrite 0x10 4 0#32], _, _, rfl, rfl⟩

theorem test_witness_IgnoredWrites :
    (∃ (s : State) (rest : List Input), s.inputs = Input.regWrite 0x04 4 0#32 :: rest) ∧ (∃ (s : State) (rest : List Input), s.inputs = Input.regWrite 0x00 4 5#32 :: rest) ∧
      (∃ (s : State) (rest : List Input), s.inputs = Input.regWrite 0x24 4 5#32 :: rest) ∧ ∃ (s : State) (rest : List Input), s.inputs = Input.regWrite 0x7C 4 5#32 :: rest :=
  ⟨⟨idle [.regWrite 0x04 4 0#32], _, rfl⟩, ⟨idle [.regWrite 0x00 4 5#32], _, rfl⟩, ⟨idle [.regWrite 0x24 4 5#32], _, rfl⟩,
    idle [.regWrite 0x7C 4 5#32], _, rfl⟩

theorem test_witness_WaitReadsUntilIdle :
    (∃ (s : State) (later : Nat) (rest : List Input), s.inputs = .waitIdle later :: rest ∧ s.status.busy = false) ∧
      ∃ (s : State) (rest : List Input), s.inputs = .waitIdle 0 :: rest ∧ s.status.busy = true :=
  ⟨⟨idle [.waitIdle 3], _, _, rfl, rfl⟩, running 0x20#32 [.waitIdle 0], _, rfl, rfl⟩

theorem test_witness_RegisterAccessRefused :
    (∃ (s : State) (rest : List Input), s.inputs = Input.regRead 0x80 4 :: rest) ∧ (∃ (s : State) (rest : List Input), s.inputs = Input.regRead 0x7C 2 :: rest) ∧
      ∃ (s : State) (rest : List Input), s.inputs = Input.regWrite 0x7C 4 0#32 :: rest :=
  ⟨⟨idle [.regRead 0x80 4], _, rfl⟩, ⟨idle [.regRead 0x7C 2], _, rfl⟩, idle [.regWrite 0x7C 4 0#32], _, rfl⟩

theorem test_witness_HostDmemAccess :
    (∃ (s : State) (rest : List Input), 0xFFF < s.dmemBytes ∧ s.status.busy = false ∧ s.inputs = .dmemRead 0xFFF :: rest) ∧
      (∃ (s : State) (rest : List Input), 0xFFF < s.dmemBytes ∧ s.status.busy = false ∧ s.inputs = .dmemWrite 0xFFF 1#8 :: rest) ∧
      (∃ (s : State) (rest : List Input), 0xFFF < s.dmemBytes ∧ s.status.busy = true ∧ s.inputs = .dmemRead 0xFFF :: rest) ∧
      (∃ (s : State) (rest : List Input), s.dmemBytes ≤ 0x1000 ∧ s.inputs = .dmemRead 0x1000 :: rest) ∧
      ∃ (s : State) (f : Fault), step s = .fault f :=
  ⟨⟨idle [.dmemRead 0xFFF], _, by decide, rfl, rfl⟩, ⟨idle [.dmemWrite 0xFFF 1#8], _, by decide, rfl, rfl⟩,
    ⟨running 0x20#32 [.dmemRead 0xFFF], _, by decide, rfl, rfl⟩, ⟨idle [.dmemRead 0x1000], _, by decide, rfl⟩,
    running 0x20#32 [.dmemRead 0], .hostRace, rfl⟩

theorem test_witness_ResetValues :
    (∃ t s rest, step s = .next t ∧ s.inputs = Input.reset :: rest) ∧
      ∃ t s rest, ∃ v : Word, step s = .next t ∧ v.getLsbD 0 = true ∧ s.inputs = Input.regWrite 0x04 4 v :: rest :=
  ⟨⟨_, running 0x20#32 [.reset], _, rfl, rfl⟩, _, running 0x22#32 [.regWrite 0x04 4 1#32], _, _, rfl, by decide, rfl⟩

theorem test_witness_ResetKeepsDmem :
    (∃ (s : State) (rest : List Input), s.inputs = .reset :: rest ∧ s.status.busy = false) ∧
      (∃ (s : State) (rest : List Input), s.inputs = .reset :: rest ∧ s.status.busy = true ∧ decode s.lcmd = none) ∧
      (∃ (s : State) (rest : List Input) (i : Instr), s.inputs = .reset :: rest ∧ s.status.busy = true ∧
        decode s.lcmd = some i ∧ s.storeOf i = none) ∧
      (∃ (s : State) (rest : List Input) (i : Instr) (st : Store), s.inputs = .reset :: rest ∧ s.status.busy = true ∧
        decode s.lcmd = some i ∧ s.storeOf i = some st) ∧
      ∃ (s : State) (v : Word) (rest : List Input), v.getLsbD 0 = true ∧ s.inputs = .regWrite 0x04 4 v :: rest :=
  ⟨⟨idle [.reset], _, rfl, rfl⟩, ⟨running 0x06#32 [.reset], _, rfl, rfl, by decide⟩,
    ⟨running 0x20#32 [.reset], _, _, rfl, rfl, test_decode_treeBuild, rfl⟩,
    ⟨running 0x22#32 [.reset], _, _, _, rfl, rfl, test_decode_treeSerialize,
    (Option.some_get (by decide +kernel : ((running 0x22#32 [.reset]).storeOf .treeSerialize).isSome = true)).symm⟩,
    running 0x22#32 [.regWrite 0x04 4 1#32], _, _, by decide, rfl⟩

theorem test_witness_WriteSetIsWhatIsStored :
    (∃ s st, State.storeOf s .encode = some st) ∧ ∃ s : State, s.storeOf .nop = none :=
  ⟨⟨blockT1 aaaabbbcc 0#32 9#32 0x200#32, _, (Option.some_get (by decide +kernel :
      ((blockT1 aaaabbbcc 0#32 9#32 0x200#32).storeOf .encode).isSome = true)).symm⟩, State.reset, rfl⟩

theorem test_witness_MemoryOkKept : ∃ s t : State, s.MemoryOk ∧ step s = .next t :=
  ⟨idle [.dmemWrite 0xFFF 1#8], _, by unfold State.MemoryOk; decide +kernel, rfl⟩

theorem test_witness_StatusOkKept : ∃ s t : State, s.StatusOk ∧ step s = .next t :=
  ⟨running 0x00#32 [], _, ⟨fun _ => ⟨rfl, rfl, rfl⟩, by decide⟩, rfl⟩

theorem test_witness_HeapInvariantKept : ∃ s t : State, s.QueueOk ∧ step s = .next t :=
  ⟨{ running 0x04#32 [] with queue := three }, _, three_ok _, rfl⟩

theorem test_witness_TreeOkKept : ∃ s t : State, s.tree.Ok ∧ step s = .next t :=
  ⟨running 0x20#32 [.reset], _, treeT1_ok, rfl⟩

theorem test_witness_CodesOkKept : ∃ s t : State, s.CodesOk ∧ s.codes.valid = true ∧ step s = .next t :=
  ⟨idle [.regRead 0 4], _, codesT1_ok aaaabbbcc 0#32 9#32 0x200#32, codesT1_valid aaaabbbcc 0#32 9#32 0x200#32, rfl⟩

theorem test_witness_StrictBinaryTree :
    (∃ t : Tree, t.Ok ∧ t.state = .empty) ∧ (∃ t : Tree, t.Ok ∧ t.state = .single) ∧ ∃ t : Tree, t.Ok ∧ t.state = .multi :=
  ⟨⟨_, emptyTree_ok, rfl⟩, ⟨_, treeT5_ok, rfl⟩, _, treeT1_ok, rfl⟩

theorem test_witness_NopWritesNothing :
    (∃ w : Word, w.extractLsb' 0 8 = 0x00#8 ∧ w ≠ 0#32) ∧
      ∃ (s : State) (rest : List Input), s.status.busy = true ∧ s.inputs = .regWrite 0x10 4 0#32 :: rest :=
  ⟨⟨0x00010000#32, by decide, by decide⟩, running 0x20#32 [.regWrite 0x10 4 0#32], _, rfl, rfl⟩

theorem test_witness_PqInsertAppendsAndPercolates : (∃ s : State, s.queue.size < 256) ∧ ∃ s : State, 256 ≤ s.queue.size :=
  ⟨⟨State.reset, by decide⟩, { State.reset with queue := { policy := .min, heap := List.replicate 256 ⟨1#40, 1#16⟩ } },
    (List.length_replicate (n := 256)).ge⟩

theorem test_witness_PqPeekShowsRoot :
    (∃ s : State, s.queue.heap = []) ∧ ∃ (s : State) (e : Elem) (rest : List Elem), s.queue.heap = e :: rest :=
  ⟨⟨State.reset, rfl⟩, { State.reset with queue := three }, _, _, rfl⟩

theorem test_witness_FreqWriteSetsCount : ∃ sym other : Byte, other ≠ sym := ⟨0x7A#8, 0x7B#8, by decide⟩

theorem test_witness_PqPopRemovesRoot : (∃ s : State, s.queue.heap = []) ∧ ∃ s : State, s.queue.heap ≠ [] :=
  ⟨⟨State.reset, rfl⟩, { State.reset with queue := { policy := .max, heap := [⟨9#40, 7#16⟩] } }, by simp⟩

theorem test_witness_PqSizeShowsSize : ∃ s : State, s.queue.size ≤ 256 := ⟨State.reset, by decide⟩

theorem test_witness_QueueOrder :
    (∃ s t : State, s.QueueOk ∧ exec .pqPeek s = .next t ∧ s.queue.heap ≠ []) ∧
      (∃ s : State, s.QueueOk ∧ s.queue.size = 3) ∧
      ∃ s : State, s.queue = { policy := .min, heap := [] } ∧ s.larg[0] = 5#32 ∧ s.larg[1] = 0#32 :=
  ⟨⟨_, _, three_ok (idle []), rfl, by decide⟩, ⟨_, three_ok (idle []), rfl⟩, block [] 5#32 0#32 0#32, rfl, rfl, rfl⟩

theorem test_witness_FreqBuildCountsBytes :
    (∃ s : State, s.RangeOk s.larg[0].toNat s.larg[1].toNat) ∧ (∃ s : State, s.larg[1] = 0#32 ∧ s.RangeOk s.larg[0].toNat s.larg[1].toNat) ∧
      ∃ s : State, ¬s.RangeOk s.larg[0].toNat s.larg[1].toNat :=
  ⟨⟨block aaaabbbcc 0xFF7#32 9#32 0#32, by unfold State.RangeOk; decide +kernel⟩,
    ⟨block aaaabbbcc 0x1000#32 0#32 0#32, rfl, by unfold State.RangeOk; decide +kernel⟩,
    block aaaabbbcc 0xFF8#32 9#32 0#32, by unfold State.RangeOk; decide +kernel⟩

theorem test_witness_TreeBuildPairsLowest :
    ∃ (s : State) (symbols : List Byte), symbols.Pairwise (fun a b => a.toNat < b.toNat) ∧
      (∀ sym : Byte, sym ∈ symbols ↔ s.freq[sym.toNat] ≠ 0#32) ∧ 2 ≤ symbols.length :=
  ⟨{ block [] 0#32 0#32 0#32 with freq := freqT1 }, [0x61#8, 0x62#8, 0x63#8], by decide, by decide +kernel, by decide⟩

theorem test_witness_TreeBuildPairsLowest_degenerate :
    (∃ s : State, ∀ sym : Byte, sym ∈ ([] : List Byte) ↔ s.freq[sym.toNat] ≠ 0#32) ∧
      ∃ s : State, ∀ sym : Byte, sym ∈ [0x7A#8] ↔ s.freq[sym.toNat] ≠ 0#32 :=
  ⟨⟨block [] 0#32 0#32 0#32, by decide +kernel⟩,
    { block [] 0#32 0#32 0#32 with freq := (Vector.replicate 256 0#32).set 0x7A 4#32 }, by decide +kernel⟩

theorem test_witness_BuiltTreeNumbers :
    ∃ (s t : State) (symbols : List Byte), symbols.Nodup ∧ (∀ sym : Byte, sym ∈ symbols ↔ s.freq[sym.toNat] ≠ 0#32) ∧
      exec .treeBuild s = .next t ∧ 2 ≤ symbols.length :=
  ⟨{ block [] 0#32 0#32 0#32 with freq := freqT1 }, _, [0x61#8, 0x62#8, 0x63#8], by decide, by decide +kernel, rfl, by decide⟩

theorem test_witness_TreeNodeShowsRecord :
    (∃ (h : Handle) (s : State) (n : Node), s.tree.nodeCount ≤ 511 ∧ s.tree.nodes[h.toNat]? = some n) ∧
      (∃ (h : Handle) (s : State), s.tree.nodeCount ≤ 511 ∧ s.tree.nodeCount ≤ h.toNat) ∧
      ∃ s : State, s.tree.nodeCount ≤ 511 :=
  ⟨⟨4#9, blockT1 [] 0#32 0#32 0#32, _, by decide, rfl⟩, ⟨5#9, blockT1 [] 0#32 0#32 0#32, by decide, by decide⟩,
    blockT1 [] 0#32 0#32 0#32, by decide⟩

theorem test_witness_TreeSerializeStoresDescriptor :
    (∃ s : State, s.tree.Ok ∧ s.tree.state = .invalid) ∧
      (∃ s : State, s.tree.Ok ∧ s.tree.HasShape none ∧ s.RangeOk s.larg[0].toNat 0) ∧
      (∃ s : State, s.tree.Ok ∧ s.tree.HasShape (some shapeT1) ∧ s.RangeOk s.larg[0].toNat shapeT1.descriptor.length) ∧
      ∃ s : State, s.tree.Ok ∧ s.tree.HasShape (some shapeT1) ∧ ¬s.RangeOk s.larg[0].toNat shapeT1.descriptor.length :=
  ⟨⟨State.reset, resetTree_ok, rfl⟩,
    ⟨{ State.reset with tree := { nodes := [], root := Config.nil, state := .empty } }, emptyTree_ok, rfl, .inl rfl⟩,
    ⟨blockT1 [] 0xFF8#32 0#32 0#32, treeT1_ok, treeT1_shape, by unfold State.RangeOk; decide +kernel⟩,
    blockT1 [] 0xFF9#32 0#32 0#32, treeT1_ok, treeT1_shape, by unfold State.RangeOk; decide +kernel⟩

/-- The descriptor of vector S1 at 0x100. -/
def descS1 : Memory :=
  [(0x100, 0x00#8), (0x101, 0x01#8), (0x102, 0x61#8), (0x103, 0x00#8), (0x104, 0x01#8), (0x105, 0x63#8), (0x106, 0x01#8),
    (0x107, 0x62#8)]

theorem test_witness_TreeLoadRebuildsTree :
    (∃ s : State, ¬s.RangeOk s.larg[0].toNat s.larg[1].toNat) ∧ (∃ s : State, s.larg[1].toNat = 0) ∧
      ∃ (s : State) (sh : Shape), s.RangeOk s.larg[0].toNat s.larg[1].toNat ∧
        s.bytesAt s.larg[0].toNat s.larg[1].toNat = sh.descriptor ∧ sh.symbols.Nodup :=
  ⟨⟨block [] 0xFFE#32 8#32 0#32, by unfold State.RangeOk; decide +kernel⟩, ⟨block [] 0#32 0#32 0#32, by decide +kernel⟩,
    block descS1 0x100#32 8#32 0#32, shapeT1, by unfold State.RangeOk; decide +kernel, by decide +kernel, by decide⟩

theorem test_witness_TreeLoadFindsFirstFault :
    (∃ (s : State) (pos sub : Nat), s.RangeOk s.larg[0].toNat s.larg[1].toNat ∧ 0 < s.larg[1].toNat ∧
      descriptorFault (fun i => s.memRead (s.larg[0].toNat + i)) s.larg[1].toNat 513 1 0 0 [] = some (pos, sub)) ∧
      ∃ s : State, s.RangeOk s.larg[0].toNat s.larg[1].toNat ∧ 0 < s.larg[1].toNat ∧
        descriptorFault (fun i => s.memRead (s.larg[0].toNat + i)) s.larg[1].toNat 513 1 0 0 [] = none :=
  ⟨⟨block descS1 0x100#32 7#32 0#32, 7, 1, by unfold State.RangeOk; decide +kernel, by decide +kernel, by decide +kernel⟩,
    block descS1 0x100#32 8#32 0#32, by unfold State.RangeOk; decide +kernel, by decide +kernel, by decide +kernel⟩

theorem test_witness_DescriptorRoundTrip :
    ∃ s t u : State, s.tree.Ok ∧ s.tree.state ≠ .invalid ∧ exec .treeSerialize s = .next t ∧ t.status.err = false ∧
      u.larg[0] = s.larg[0] ∧ u.larg[1] = t.res[0] ∧ (∀ a, u.memRead a = t.memRead a) ∧ u.dmemLast = t.dmemLast :=
  ⟨blockT1 [] 0x100#32 0#32 0#32, _,
    ((blockT1 [] 0x100#32 0#32 0#32).memWrite { base := 0x100, bytes := shapeT1.descriptor }).withArgs 0x100#32 8#32 0#32,
    treeT1_ok, by decide, rfl, by decide +kernel, by decide +kernel, by decide +kernel, fun _ => rfl, rfl⟩

theorem test_witness_CodeDeriveGivesPaths :
    (∃ s : State, s.tree.Ok ∧ s.tree.state = .invalid) ∧ (∃ s : State, s.tree.Ok ∧ s.tree.HasShape none) ∧
      (∃ (s : State) (sym : Byte), s.tree.Ok ∧ s.tree.HasShape (some (.leaf sym))) ∧
      ∃ s : State, s.tree.Ok ∧ s.tree.HasShape (some shapeT1) :=
  ⟨⟨State.reset, resetTree_ok, rfl⟩,
    ⟨{ State.reset with tree := { nodes := [], root := Config.nil, state := .empty } }, emptyTree_ok, rfl⟩,
    ⟨{ State.reset with tree := treeT5 }, _, treeT5_ok, treeT5_shape⟩, { State.reset with tree := treeT1 }, treeT1_ok, treeT1_shape⟩

theorem test_witness_CodesArePrefixFree :
    ∃ (s t : State) (a b : Byte) (c d : List Bool), s.tree.Ok ∧ s.tree.state = .multi ∧ exec .codeDerive s = .next t ∧
      t.codes.Has a c ∧ t.codes.Has b d ∧ a ≠ b ∧ c ≠ [] ∧ d ≠ [] := by
  have d := deriveCodes_spec treeT1_shape (by rintro x ⟨⟩; rfl) (by rintro x ⟨⟩; decide)
  exact ⟨{ State.reset with tree := treeT1 }, _, 0x61#8, 0x62#8, [false], [true, true], treeT1_ok, rfl, rfl,
    d.has (by decide) (p := (0x61#8, [false])) (by decide), d.has (by decide) (p := (0x62#8, [true, true])) (by decide),
    by decide, by decide, by decide⟩

theorem test_witness_CodeReadShowsCode :
    (∃ s : State, s.codes.valid = false) ∧
      ∃ (s : State) (bits : List Bool), s.codes.valid = true ∧ s.tree.Ok ∧ s.CodesOk ∧ s.codes.Has 0x62#8 bits :=
  ⟨⟨State.reset, rfl⟩, blockT1 [] 0#32 0#32 0#32, _, codesT1_valid _ _ _ _, treeT1_ok, codesT1_ok _ _ _ _,
    CodeTable.has_code _ _⟩

theorem test_witness_EncodeStoresCodes :
    ∃ (s : State) (code : Byte → List Bool), s.codes.valid = true ∧ (∀ sym, s.codes.Has sym (code sym)) ∧
      let src := s.larg[0].toNat
      let n := s.larg[1].toNat
      let dst := s.larg[2].toNat
      let bits := (s.bytesAt src n).flatMap code
      let nb := (bits.length + 7) / 8
      s.RangeOk src n ∧ (∀ b ∈ s.bytesAt src n, code b ≠ []) ∧ bits.length ≤ 2 ^ 32 - 1 ∧ s.RangeOk dst nb ∧
        RangesApart src n dst nb :=
  ⟨blockT1 aaaabbbcc 0#32 9#32 9#32, _, codesT1_valid _ _ _ _, CodeTable.has_code _,
    by unfold State.RangeOk; decide +kernel, by decide +kernel, by decide +kernel, by unfold State.RangeOk; decide +kernel,
    by unfold RangesApart; decide +kernel⟩

/-- Each error of ENCODE but the overflow: N14, N8, N7, N12, N9 of 95_test_vectors.md. -/
theorem test_witness_EncodeErrors :
    (∃ s : State, s.codes.valid = false) ∧
      (∃ s : State, s.codes.valid = true ∧ ¬s.RangeOk s.larg[0].toNat s.larg[1].toNat) ∧
      (∃ s : State, s.codes.valid = true ∧ s.RangeOk s.larg[0].toNat s.larg[1].toNat ∧ 2 < s.larg[1].toNat ∧
        (∀ b ∈ s.bytesAt s.larg[0].toNat 2, s.codes.code b ≠ []) ∧ s.codes.code (s.memRead (s.larg[0].toNat + 2)) = []) ∧
      (∃ s : State, s.codes.valid = true ∧ s.RangeOk s.larg[0].toNat s.larg[1].toNat ∧
        (∀ b ∈ s.bytesAt s.larg[0].toNat s.larg[1].toNat, s.codes.code b ≠ []) ∧ ¬s.RangeOk s.larg[2].toNat 2 ∧
        (((s.bytesAt s.larg[0].toNat s.larg[1].toNat).flatMap s.codes.code).length + 7) / 8 = 2) ∧
      ∃ s : State, s.codes.valid = true ∧ s.RangeOk s.larg[0].toNat s.larg[1].toNat ∧
        (∀ b ∈ s.bytesAt s.larg[0].toNat s.larg[1].toNat, s.codes.code b ≠ []) ∧ s.RangeOk s.larg[2].toNat 2 ∧
        (((s.bytesAt s.larg[0].toNat s.larg[1].toNat).flatMap s.codes.code).length + 7) / 8 = 2 ∧
        ¬RangesApart s.larg[0].toNat s.larg[1].toNat s.larg[2].toNat 2 :=
  ⟨⟨State.reset, rfl⟩,
    ⟨blockT1 [] 0xFFE#32 9#32 0x200#32, codesT1_valid _ _ _ _, by unfold State.RangeOk; decide +kernel⟩,
    ⟨blockT1 [(0, 0x61#8), (1, 0x62#8), (2, 0x64#8)] 0#32 3#32 0x200#32, codesT1_valid _ _ _ _,
      by unfold State.RangeOk; decide +kernel, by decide +kernel, by decide +kernel, by decide +kernel⟩,
    ⟨blockT1 aaaabbbcc 0#32 9#32 0xFFF#32, codesT1_valid _ _ _ _, by unfold State.RangeOk; decide +kernel, by decide +kernel,
      by unfold State.RangeOk; decide +kernel, by decide +kernel⟩,
    blockT1 aaaabbbcc 0#32 9#32 8#32, codesT1_valid _ _ _ _, by unfold State.RangeOk; decide +kernel, by decide +kernel,
      by unfold State.RangeOk; decide +kernel, by decide +kernel, by unfold RangesApart; decide +kernel⟩

/-- The overflow of ENCODE (N16's error), with every code 255 bits long: 2^32 - 1 is 255 * 16843009. -/
theorem test_witness_EncodeErrors_overflow :
    ∃ (s : State) (code : Byte → List Bool) (i : Nat), s.codes.valid = true ∧ (∀ sym, s.codes.Has sym (code sym)) ∧
      s.RangeOk s.larg[0].toNat s.larg[1].toNat ∧ i < s.larg[1].toNat ∧
      (∀ b ∈ s.bytesAt s.larg[0].toNat (i + 1), code b ≠ []) ∧
      ((s.bytesAt s.larg[0].toNat i).flatMap code).length ≤ 2 ^ 32 - 1 ∧
      2 ^ 32 - 1 < ((s.bytesAt s.larg[0].toNat (i + 1)).flatMap code).length := by
  obtain ⟨w, hw, hf⟩ : ∃ w : List Bool, w.length = 255 ∧ ∀ (j : Nat) (h : j < w.length), w[j] = false :=
    ⟨List.replicate 255 false, List.length_replicate, fun _ _ => List.getElem_replicate ..⟩
  have len : ∀ l : List Byte, (l.flatMap fun _ => w).length = l.length * 255 := by
    intro l
    induction l with
    | nil => rfl
    | cons b l ih => rw [List.flatMap_cons, List.length_append, ih, hw, List.length_cons]; omega
  have ne : w ≠ [] := by intro h; rw [h] at hw; cases hw
  refine ⟨{ block [] 0#32 0x02000000#32 0#32 with
      dmemLast := 0xFFFFFFFF#32
      codes := { valid := true, len := Vector.replicate 256 255#8, val := Vector.replicate 256 0#256 } },
    fun _ => w, 16843009, rfl, ?_, .inr (by show 0 + 0x02000000 ≤ 0xFFFFFFFF + 1; decide),
    by show 16843009 < 0x02000000; decide, fun b _ => ne, ?_, ?_⟩
  · intro sym
    constructor
    · rw [hw]
      show 255 = ((Vector.replicate 256 255#8)[sym.toNat]).toNat
      rw [Vector.getElem_replicate]
      rfl
    · intro j h
      rw [hf j h]
      show false = ((Vector.replicate 256 0#256)[sym.toNat]).getLsbD (255 - j)
      rw [Vector.getElem_replicate, BitVec.getLsbD_zero]
  · rw [len, State.bytesAt, List.length_map, List.length_range]; decide
  · rw [len, State.bytesAt, List.length_map, List.length_range]; decide

/-- The codes of T1. -/
def codeT1 (sym : Byte) : List Bool := if sym = 0x61#8 then [false] else if sym = 0x63#8 then [true, false] else [true, true]

theorem test_witness_DecodeStoresSymbols :
    (∃ s : State, s.tree.Ok ∧ s.tree.state ≠ .invalid ∧ s.larg[1].toNat = 0) ∧
      ∃ (s : State) (out : List Byte), s.tree.Ok ∧ s.tree.state ≠ .invalid ∧
        s.RangeOk s.larg[0].toNat ((s.larg[1].toNat + 7) / 8) ∧ s.tree.HasShape (some shapeT1) ∧
        (∀ sym ∈ out, (sym, codeT1 sym) ∈ shapeT1.codes) ∧ HoldsBits s s.larg[0].toNat (out.flatMap codeT1) ∧
        (out.flatMap codeT1).length = s.larg[1].toNat ∧ s.RangeOk s.larg[2].toNat out.length ∧
        RangesApart s.larg[0].toNat ((s.larg[1].toNat + 7) / 8) s.larg[2].toNat out.length := by
  refine ⟨⟨blockT1 [] 0#32 0#32 0#32, treeT1_ok, by decide, by decide +kernel⟩,
    blockT1 [(0x200, 0x0F#8), (0x201, 0xE8#8)] 0x200#32 14#32 0x202#32,
    [0x61#8, 0x61#8, 0x61#8, 0x61#8, 0x62#8, 0x62#8, 0x62#8, 0x63#8, 0x63#8], treeT1_ok, by decide,
    by unfold State.RangeOk; decide +kernel, treeT1_shape, by decide +kernel, ?_, by decide +kernel,
    by unfold State.RangeOk; decide +kernel, by unfold RangesApart; decide +kernel⟩
  unfold HoldsBits
  decide +kernel

/-- Each error of DECODE: D12, D13, D11, D9, D2, D15 of 95_test_vectors.md. -/
theorem test_witness_DecodeErrors :
    (∃ s : State, s.tree.Ok ∧ s.tree.state = .invalid) ∧
      (∃ s : State, s.tree.Ok ∧ s.tree.state ≠ .invalid ∧ ¬s.RangeOk s.larg[0].toNat ((s.larg[1].toNat + 7) / 8)) ∧
      (∃ s : State, s.tree.Ok ∧ s.tree.state = .empty ∧ s.RangeOk s.larg[0].toNat ((s.larg[1].toNat + 7) / 8) ∧
        0 < s.larg[1].toNat) ∧
      (∃ s : State, s.tree.Ok ∧ s.tree.state = .single ∧ s.RangeOk s.larg[0].toNat ((s.larg[1].toNat + 7) / 8) ∧
        3 < s.larg[1].toNat ∧ (∀ j, j < 3 → s.streamBit s.larg[0].toNat j = false) ∧ s.streamBit s.larg[0].toNat 3 = true) ∧
      (∃ (s : State) (out : List Byte) (part : List Bool), s.tree.Ok ∧ s.tree.HasShape (some shapeT1) ∧ part ≠ [] ∧
        s.RangeOk s.larg[0].toNat ((s.larg[1].toNat + 7) / 8) ∧ (∀ sym ∈ out, (sym, codeT1 sym) ∈ shapeT1.codes) ∧
        HoldsBits s s.larg[0].toNat (out.flatMap codeT1 ++ part) ∧ (out.flatMap codeT1 ++ part).length = s.larg[1].toNat ∧
        ∃ sym c, (sym, c) ∈ shapeT1.codes ∧ part <+: c ∧ part ≠ c) ∧
      ∃ (s : State) (out : List Byte), s.tree.Ok ∧ s.tree.HasShape (some shapeT1) ∧
        s.RangeOk s.larg[0].toNat ((s.larg[1].toNat + 7) / 8) ∧ (∀ sym ∈ out, (sym, codeT1 sym) ∈ shapeT1.codes) ∧
        HoldsBits s s.larg[0].toNat (out.flatMap codeT1) ∧ (out.flatMap codeT1).length = s.larg[1].toNat ∧
        s.RangeOk s.larg[2].toNat out.length ∧
        ¬RangesApart s.larg[0].toNat ((s.larg[1].toNat + 7) / 8) s.larg[2].toNat out.length := by
  refine ⟨⟨State.reset, resetTree_ok, rfl⟩,
    ⟨blockT1 [] 0xFFF#32 14#32 0x300#32, treeT1_ok, by decide, by unfold State.RangeOk; decide +kernel⟩,
    ⟨{ block [] 0x200#32 1#32 0x300#32 with tree := { nodes := [], root := Config.nil, state := .empty } }, emptyTree_ok, rfl,
      by unfold State.RangeOk; decide +kernel, by decide +kernel⟩,
    ⟨{ block [(0x200, 0x10#8)] 0x200#32 4#32 0x300#32 with tree := treeT5 }, treeT5_ok, rfl,
      by unfold State.RangeOk; decide +kernel, by decide +kernel, by decide +kernel, by decide +kernel⟩,
    ⟨blockT1 [(0x200, 0x0F#8), (0x201, 0xE8#8)] 0x200#32 13#32 0x300#32,
      [0x61#8, 0x61#8, 0x61#8, 0x61#8, 0x62#8, 0x62#8, 0x62#8, 0x63#8], [true], treeT1_ok, treeT1_shape, by decide,
      by unfold State.RangeOk; decide +kernel, by decide +kernel, ?_, by decide +kernel, 0x62#8, [true, true], by decide, by decide, by decide⟩,
    blockT1 [(0x200, 0x0F#8), (0x201, 0xE8#8)] 0x200#32 14#32 0x201#32,
    [0x61#8, 0x61#8, 0x61#8, 0x61#8, 0x62#8, 0x62#8, 0x62#8, 0x63#8, 0x63#8], treeT1_ok, treeT1_shape,
    by unfold State.RangeOk; decide +kernel, by decide +kernel, ?_, by decide +kernel,
    by unfold State.RangeOk; decide +kernel, by unfold RangesApart; decide +kernel⟩
  · unfold HoldsBits
    decide +kernel
  · unfold HoldsBits
    decide +kernel

theorem test_witness_DecodeErrors_output :
    ∃ (s : State) (out : List Byte), s.tree.Ok ∧ s.tree.HasShape (some shapeT1) ∧
      s.RangeOk s.larg[0].toNat ((s.larg[1].toNat + 7) / 8) ∧ (∀ sym ∈ out, (sym, codeT1 sym) ∈ shapeT1.codes) ∧
      HoldsBits s s.larg[0].toNat (out.flatMap codeT1) ∧ (out.flatMap codeT1).length = s.larg[1].toNat ∧
      ¬s.RangeOk s.larg[2].toNat out.length := by
  refine ⟨blockT1 [(0x200, 0x0F#8), (0x201, 0xE8#8)] 0x200#32 14#32 0xFF8#32,
    [0x61#8, 0x61#8, 0x61#8, 0x61#8, 0x62#8, 0x62#8, 0x62#8, 0x63#8, 0x63#8], treeT1_ok, treeT1_shape,
    by unfold State.RangeOk; decide +kernel, by decide +kernel, ?_, by decide +kernel,
    by unfold State.RangeOk; decide +kernel⟩
  unfold HoldsBits
  decide +kernel

theorem test_witness_DecodeErrors_multi :
    ∃ s t : State, s.tree.Ok ∧ s.tree.state = .multi ∧ exec .decode s = .next t := by
  obtain ⟨t, h⟩ := exec_next .decode (blockT1 [(0x200, 0x0F#8)] 0x200#32 8#32 0x300#32)
  exact ⟨_, t, treeT1_ok, rfl, h⟩

/-- N1, then D1 at 0x300, on the state ENCODE leaves. -/
theorem test_witness_EncodeDecodeRoundTrip :
    ∃ s t u : State, s.tree.Ok ∧ s.CodesOk ∧ exec .encode s = .next t ∧ Completed s t ∧ u.tree.Ok ∧
      (∀ sh, s.tree.HasShape sh → u.tree.HasShape sh) ∧ (∀ a, u.memRead a = t.memRead a) ∧ u.dmemLast = t.dmemLast ∧
      u.larg[0] = s.larg[2] ∧ u.larg[1] = t.res[0] ∧ u.RangeOk u.larg[2].toNat s.larg[1].toNat ∧
      RangesApart s.larg[2].toNat ((t.res[0].toNat + 7) / 8) u.larg[2].toNat s.larg[1].toNat := by
  let s := blockT1 aaaabbbcc 0#32 9#32 0x200#32
  obtain ⟨x, hx⟩ : ∃ x, s.encodeStore = .ok x := by
    match h : s.encodeStore with
    | .ok x => exact ⟨x, rfl⟩
    | .error e =>
      have : s.encodeStore.toOption.isSome = true := by decide +kernel
      rw [h] at this
      cases this
  let t := ((s.memWrite x.2).setRes 0 (BitVec.ofNat 32 x.1)).setRes 1 (BitVec.ofNat 32 x.2.bytes.length)
  have he : exec .encode s = .next t.complete := by simp only [exec, execEncode, hx]; rfl
  have hT : x.1 = 14 := by
    have : s.encodeStore.toOption.map Prod.fst = some 14 := by decide +kernel
    rw [hx] at this
    simpa [Except.toOption] using this
  refine ⟨s, t.complete, t.complete.withArgs 0x200#32 14#32 0x300#32, treeT1_ok, codesT1_ok _ _ _ _, he,
    SameRest.completed (by constructor <;> rfl), treeT1_ok, fun sh h => h, fun a => rfl, rfl, rfl, ?_, ?_, ?_⟩
  · show 14#32 = t.complete.res[0]
    simp [t, hT]
  · exact .inr (by show 0x300 + 9 ≤ 0x1000; decide)
  · have : t.complete.res[0] = 14#32 := by simp [t, hT]
    rw [this]
    exact .inr (.inr (.inr (by show 0x200 + (14 + 7) / 8 ≤ 0x300; decide)))

theorem test_witness_CompressThenDecompress :
    ∃ (s₀ : State) (src n d e r : Word), s₀.RangeOk src.toNat n.toNat ∧ s₀.RangeOk d.toNat 8 ∧
      RangesApart src.toNat n.toNat d.toNat 8 ∧ RangesApart d.toNat 8 e.toNat 2 ∧ s₀.RangeOk r.toNat n.toNat ∧
      RangesApart e.toNat 2 r.toNat n.toNat :=
  ⟨block aaaabbbcc 0#32 0#32 0#32, 0#32, 9#32, 0x100#32, 0x200#32, 0x300#32, by unfold State.RangeOk; decide +kernel,
    by unfold State.RangeOk; decide +kernel, by unfold RangesApart; decide +kernel, by unfold RangesApart; decide +kernel,
    by unfold State.RangeOk; decide +kernel, by unfold RangesApart; decide +kernel⟩

end Sys2Proof.Tests
end

-- Host register accesses (20_memory.md R68)
section

namespace Sys2Proof.Proofs

open Sys2Proof.Machine

theorem regAccessWf_iff {off bytes : Nat} :
    regAccessWf off bytes = true ↔ bytes = 4 ∧ off % 4 = 0 ∧ off < 0x80 := by
  simp [regAccessWf, and_assoc]

/-- A well-formed access reaches a register (R43). -/
theorem exists_registerAt {off bytes : Nat} (h : regAccessWf off bytes = true) : ∃ r, registerAt off bytes = some r :=
  Option.isSome_iff_exists.mp (by rw [registerAt_isSome, h])

theorem hostRegRead_of_registerAt {off bytes : Nat} {r : Reg} (s : State) (h : registerAt off bytes = some r) :
    hostRegRead off bytes s = .next (s.reply (.reg off (s.readReg r))) := by
  simp only [hostRegRead, h]

theorem hostRegWrite_of_registerAt {off bytes : Nat} {r : Reg} (v : Word) (s : State)
    (h : registerAt off bytes = some r) : hostRegWrite off bytes v s = .next (s.writeReg v r) := by
  simp only [hostRegWrite, h]

theorem step_regRead {s : State} {off bytes : Nat} {rest : List Input} (h : s.inputs = .regRead off bytes :: rest) :
    step s = hostRegRead off bytes (s.withInputs rest) := by
  simp only [step, takeTurn, h]

theorem step_regWrite {s : State} {off bytes : Nat} {v : Word} {rest : List Input}
    (h : s.inputs = .regWrite off bytes v :: rest) : step s = hostRegWrite off bytes v (s.withInputs rest) := by
  simp only [step, takeTurn, h]

/-- Settles O21: a read and a write both go through `registerAt`, which finds a register exactly for a well-formed access. -/
theorem registerAccessRefused : Obligations.RegisterAccessRefused := by
  intro s off bytes v rest x hx hs
  rw [← regAccessWf_iff, Bool.not_eq_true]
  obtain rfl | rfl := hx
  · rw [step_regRead hs]
    refine ⟨hostRegRead_refused.mpr, fun hwf => ?_⟩
    obtain ⟨r, hr⟩ := exists_registerAt hwf
    exact ⟨_, hostRegRead_of_registerAt _ hr⟩
  · rw [step_regWrite hs]
    refine ⟨hostRegWrite_refused.mpr, fun hwf => ?_⟩
    obtain ⟨r, hr⟩ := exists_registerAt hwf
    exact ⟨_, hostRegWrite_of_registerAt v _ hr⟩

end Sys2Proof.Proofs
end

-- Host register writes (40_host_protocol.md R102-R108)
section

namespace Sys2Proof.Proofs

open Sys2Proof.Machine

/-- A host write of a register is `writeReg` on the state whose input is used up. -/
theorem step_regWrite_of_registerAt {s : State} {off bytes : Nat} {v : Word} {rest : List Input} {r : Reg}
    (hs : s.inputs = .regWrite off bytes v :: rest) (hr : registerAt off bytes = some r) :
    step s = .next ((s.withInputs rest).writeReg v r) := by
  rw [step_regWrite hs, hostRegWrite_of_registerAt v _ hr]

theorem registerAt_arg (n : Fin 4) : registerAt (0x14 + 4 * n.val) 4 = some (.arg n) := by
  revert n; decide

/-- Settles O17: the two registers' own clauses of `writeReg`. -/
theorem argAndIrqEnWrite : Obligations.ArgAndIrqEnWrite := by
  intro s v rest
  refine ⟨fun n hs => ?_, fun hs => ?_⟩
  · refine ⟨_, step_regWrite_of_registerAt hs (registerAt_arg n), Vector.getElem_set_self n.isLt, fun m hm => ?_, rfl⟩
    exact Vector.getElem_set_ne n.isLt m.isLt (Fin.val_ne_of_ne hm.symm)
  · refine ⟨_, step_regWrite_of_registerAt hs rfl, fun b => ?_, rfl⟩
    simp [State.writeReg]

/-- A flag that a host write of STATUS keeps unless the written bit is 1 (R104), as a choice. -/
theorem clearedFlag_eq_ite (flag bit : Bool) : (flag && !bit) = if bit then false else flag := by
  cases bit <;> simp

/-- Settles O18: `writeStatus`, each cleared flag read as a choice. -/
theorem statusWrite : Obligations.StatusWrite := by
  intro s v rest hs
  rw [step_regWrite_of_registerAt hs rfl]
  simp only [← clearedFlag_eq_ite]
  rfl

theorem writeCmd_of_idle {s : State} (v : Word) (h : s.status.busy = false) : s.writeCmd v = s.accept v := by
  simp [State.writeCmd, h]

theorem writeCmd_of_busy {s : State} (v : Word) (h : s.status.busy = true) : s.writeCmd v = s.overrun := by
  simp [State.writeCmd, h]

theorem step_cmdWrite {s : State} {v : Word} {rest : List Input} (hs : s.inputs = .regWrite 0x10 4 v :: rest) :
    step s = .next ((s.withInputs rest).writeCmd v) :=
  step_regWrite_of_registerAt hs rfl

/-- R106: a CMD write with BUSY = 1 is discarded, whatever its word. -/
theorem step_cmdWrite_of_busy {s : State} {v : Word} {rest : List Input} (hs : s.inputs = .regWrite 0x10 4 v :: rest)
    (hb : s.status.busy = true) : step s = .next (s.withInputs rest).overrun := by
  rw [step_cmdWrite hs, writeCmd_of_busy (s := s.withInputs rest) v hb]

/-- Settles O19: with BUSY = 0 the write is `accept`, with BUSY = 1 it is `overrun`. -/
theorem cmdWrite : Obligations.CmdWrite := by
  intro s v rest hs
  refine ⟨fun hb => ?_, step_cmdWrite_of_busy hs⟩
  rw [step_cmdWrite hs, writeCmd_of_idle (s := s.withInputs rest) v hb]
  rfl

/-- The registers of R108, whose writes are ignored whatever the value. -/
def ignoresWrites : Reg → Bool
  | .id | .res _ | .errInfo0 | .errInfo1 | .params | .dmemLast | .unmapped => true
  | .ctrl | .status | .irqEn | .cmd | .arg _ => false

theorem writeReg_of_ignoresWrites {r : Reg} (s : State) (v : Word) (h : ignoresWrites r = true) :
    s.writeReg v r = s := by
  cases r with
  | id | res _ | errInfo0 | errInfo1 | params | dmemLast | unmapped => rfl
  | ctrl | status | irqEn | cmd | arg _ => cases h

/-- R43: ID and every aligned offset of the window from RES0 on reach a register of R108. -/
theorem registerAt_ignoresWrites {off : Nat} (h : off = 0x00 ∨ (0x24 ≤ off ∧ off < 0x80 ∧ off % 4 = 0)) :
    ∃ r, registerAt off 4 = some r ∧ ignoresWrites r = true := by
  have window : ∀ o < 0x80, o = 0x00 ∨ (0x24 ≤ o ∧ o % 4 = 0) → (registerAt o 4).any ignoresWrites = true := by
    decide
  exact (Option.any_eq_true _ _).mp (window off (by omega) (by omega))

theorem writeCtrl_of_bit0_clear {v : Word} (s : State) (h : v.getLsbD 0 = false) : s.writeCtrl v = s := by
  rw [State.writeCtrl, h]
  rfl

/-- Settles O20: CTRL with bit 0 clear keeps the state, and every other offset reaches a register that ignores writes. -/
theorem ignoredWrites : Obligations.IgnoredWrites := by
  intro s off v rest hs hoff
  obtain ⟨rfl, hv⟩ | hoff := hoff
  · rw [step_regWrite_of_registerAt hs rfl]
    exact congrArg _ (writeCtrl_of_bit0_clear (s.withInputs rest) hv)
  · obtain ⟨r, hr, hi⟩ := registerAt_ignoresWrites hoff
    rw [step_regWrite_of_registerAt hs hr, writeReg_of_ignoresWrites _ v hi]
    rfl

end Sys2Proof.Proofs
end

-- NOP (40_host_protocol.md R110)
section

namespace Sys2Proof.Proofs

open Sys2Proof.Machine

theorem decode_eq_none_iff {w : Word} : decode w = none ↔ ∀ r ∈ opcodeTable, r.selects w = false := by
  simp [decode]

/-- Every row fixes all of OPC (R84), so a row that selects a word has the word's OPC. -/
theorem opcode_eq_of_selects {r : OpcodeRow} {w : Word} (hr : r ∈ opcodeTable) (h : r.selects w = true) :
    w.extractLsb' 0 8 = r.pattern.extractLsb' 0 8 := by
  have hmask : ∀ r ∈ opcodeTable, r.mask.extractLsb' 0 8 = BitVec.allOnes 8 := by decide
  have hsel : w &&& r.mask = r.pattern := eq_of_beq h
  rw [← hsel, BitVec.extractLsb'_and, hmask r hr, BitVec.and_allOnes]

/-- The one row with OPC 0x00 fixes every bit, so it selects only the word 0 (R110). -/
theorem eq_zero_of_selects_of_opcode {r : OpcodeRow} {w : Word} (hr : r ∈ opcodeTable) (h : r.selects w = true)
    (hw : w.extractLsb' 0 8 = 0x00#8) : w = 0#32 := by
  have hrow : ∀ r ∈ opcodeTable, r.pattern.extractLsb' 0 8 = 0x00#8 →
      r.mask = BitVec.allOnes 32 ∧ r.pattern = 0#32 := by decide
  obtain ⟨hmask, hpattern⟩ := hrow r hr ((opcode_eq_of_selects hr h).symm.trans hw)
  have hsel : w &&& r.mask = r.pattern := eq_of_beq h
  rwa [hmask, hpattern, BitVec.and_allOnes] at hsel

theorem decode_eq_none_of_opcode_zero {w : Word} (hw : w.extractLsb' 0 8 = 0x00#8) (h0 : w ≠ 0#32) :
    decode w = none :=
  decode_eq_none_iff.mpr fun _ hr => Bool.eq_false_of_not_eq_true fun hsel =>
    h0 (eq_zero_of_selects_of_opcode hr hsel hw)

theorem exec_nop (s : State) : exec .nop s = .next s.complete := rfl

theorem sameRest_refl (s : State) : SameRest s s := by constructor <;> rfl

/-- The completion alone writes no part of the state that a command's rule may write (R109). -/
theorem complete_changesOnly (s : State) : ChangesOnly s s.complete [] :=
  changesOnly_of (sameRest_refl s).completed (fun _ _ => rfl) (fun _ => rfl) (fun _ => rfl) (fun _ => rfl)
    (fun _ => rfl) (fun _ => sameBytes_of_dmem rfl)

/-- Settles O34: NOP is the completion alone, and its row selects the word 0 only. -/
theorem nopWritesNothing : Obligations.NopWritesNothing :=
  ⟨by decide, fun _ => decode_eq_none_of_opcode_zero, fun s => ⟨_, exec_nop s, complete_changesOnly s⟩,
    fun _ _ hb hs => step_cmdWrite_of_busy hs hb, _, exec_nop _, by decide⟩

end Sys2Proof.Proofs
end

-- The queue commands (41_pq.md R128-R132)
section

namespace Sys2Proof.Proofs

open Sys2Proof.Machine

theorem exec_pqNew (p : Policy) (s : State) :
    exec (.pqNew p) s = .next (s.setQueue { policy := p, heap := [] }).complete := rfl

/-- R129 below capacity. -/
theorem exec_pqInsert_of_lt {s : State} (tag : Tag) (h : s.queue.size < 256) :
    exec (.pqInsert tag) s =
      .next (s.setQueue { s.queue with
        heap := heapInsert s.queue.policy s.queue.heap { key := s.keyOperand, tag := tag } }).complete := by
  rw [exec, execPqInsert, if_neg (show ¬Config.pqCap ≤ s.queue.size from Nat.not_le.mpr h), finish_ok]

/-- R129 at capacity. -/
theorem exec_pqInsert_of_full {s : State} (tag : Tag) (h : 256 ≤ s.queue.size) :
    exec (.pqInsert tag) s = finish s (.error ⟨.queueFull, 256#32, 0#32⟩) := by
  rw [exec, execPqInsert, if_pos (show Config.pqCap ≤ s.queue.size from h)]
  rfl

theorem exec_pqPeek (s : State) :
    exec .pqPeek s = .next ({ s with res := elemResults s.queue.heap.head? } : State).complete := rfl

/-- What PQ_POP leaves (R131): the element shown, or its absence, and the heap. -/
def popped (s : State) (shown : Option Elem) (heap : List Elem) : State :=
  ({ s.setQueue { s.queue with heap := heap } with res := elemResults shown } : State).complete

@[simp] theorem popped_queue (s : State) (shown : Option Elem) (heap : List Elem) :
    (popped s shown heap).queue = { s.queue with heap := heap } := rfl

@[simp] theorem popped_res (s : State) (shown : Option Elem) (heap : List Elem) :
    (popped s shown heap).res = elemResults shown := rfl

theorem exec_pqPop_of_heapPop {s : State} {top : Elem} {rest : List Elem}
    (h : heapPop s.queue.policy s.queue.heap = some (top, rest)) :
    exec .pqPop s = .next (popped s (some top) rest) := by
  rw [exec, execPqPop, h]
  rfl

theorem exec_pqPop_of_empty {s : State} (h : s.queue.heap = []) : exec .pqPop s = .next (popped s none []) := by
  rw [exec, execPqPop, h, heapPop_nil, popped, ← h]
  rfl

theorem exec_pqSize (s : State) :
    exec .pqSize s = .next (s.setRes 0 (BitVec.ofNat 32 s.queue.size)).complete := rfl

/-! ### What the commands leave unchanged -/

/-- The completion of a write of the queue and the result registers, with its parts named. -/
theorem queue_res_changesOnly {s : State} {q : Queue} {v : Vector Word 4} {parts : List Part}
    (hq : .queue ∉ parts → q = s.queue) (hv : ∀ n : Fin 4, .res n ∉ parts → v[n] = s.res[n]) :
    ChangesOnly s ({ s with queue := q, res := v } : State).complete parts :=
  changesOnly_of (SameRest.completed (by constructor <;> rfl)) hv (fun _ => rfl) hq (fun _ => rfl) (fun _ => rfl)
    (fun _ => sameBytes_of_dmem rfl)

theorem mem_allResults (n : Fin 4) : Part.res n ∈ [Part.res 0, .res 1, .res 2, .res 3] := by
  revert n; decide

theorem setQueue_changesOnly (s : State) (q : Queue) : ChangesOnly s (s.setQueue q).complete [.queue] :=
  queue_res_changesOnly (fun hp => absurd List.mem_cons_self hp) fun _ _ => rfl

theorem results_changesOnly (s : State) (v : Vector Word 4) :
    ChangesOnly s ({ s with res := v } : State).complete [.res 0, .res 1, .res 2, .res 3] :=
  queue_res_changesOnly (fun _ => rfl) fun n hp => absurd (mem_allResults n) hp

theorem popped_changesOnly (s : State) (shown : Option Elem) (heap : List Elem) :
    ChangesOnly s (popped s shown heap) [.queue, .res 0, .res 1, .res 2, .res 3] :=
  queue_res_changesOnly (fun hp => absurd List.mem_cons_self hp)
    fun n hp => absurd (List.mem_cons_of_mem _ (mem_allResults n)) hp

theorem setRes_changesOnly (s : State) (i : Fin 4) (v : Word) : ChangesOnly s (s.setRes i v).complete [.res i] := by
  refine queue_res_changesOnly (fun _ => rfl) fun n hp => Vector.getElem_set_ne i.isLt n.isLt fun hin => hp ?_
  rw [Fin.ext hin]
  exact List.mem_singleton_self _

/-! ### Operands, results and STATUS as numbers -/

/-- R83: the key operand. -/
theorem keyOperand_toNat (s : State) :
    s.keyOperand.toNat = s.larg[1].toNat % 256 * 2 ^ 32 + s.larg[0].toNat := by
  rw [State.keyOperand, BitVec.toNat_append, ← Nat.shiftLeft_add_eq_or_of_lt s.larg[0].isLt, Nat.shiftLeft_eq,
    BitVec.extractLsb'_toNat, Nat.shiftRight_zero]

/-- A 16-bit field above a constant half of a command word (R81). -/
theorem immediate_append (imm low : BitVec 16) : imm ++ low = low.setWidth 32 ||| (imm.setWidth 32 <<< 16) := by
  rw [BitVec.or_comm, ← BitVec.setWidth_append_eq_shiftLeft_setWidth_or, BitVec.setWidth_eq]

theorem elemResults_none (n : Fin 4) : (elemResults none)[n] = 0#32 := by
  revert n; decide

/-- R130: the words that show an element. -/
theorem elemResults_some (e : Elem) :
    (elemResults (some e))[0].toNat = e.key.toNat % 2 ^ 32 ∧
      (elemResults (some e))[1].toNat = e.key.toNat / 2 ^ 32 ∧
      (elemResults (some e))[2].toNat = e.tag.toNat ∧ (elemResults (some e))[3] = 1#32 := by
  have hhigh : ((e.key.extractLsb' 32 8).setWidth 32).toNat = e.key.toNat / 2 ^ 32 := by
    have hkey := e.key.isLt
    rw [BitVec.toNat_setWidth_of_le (by decide), BitVec.extractLsb'_toNat, Nat.shiftRight_eq_div_pow]
    omega
  exact ⟨BitVec.extractLsb'_toNat _ _ _, hhigh, BitVec.toNat_setWidth_of_le (by decide), rfl⟩

theorem shownElem_elemResults (e : Elem) : shownElem (elemResults (some e)) = (e.key.toNat, e.tag.toNat) := by
  obtain ⟨hlow, hhigh, htag, -⟩ := elemResults_some e
  rw [shownElem, hlow, hhigh, htag, Nat.div_add_mod']

/-- R36: the field PQ_SIZE. -/
theorem statusWord_pqSize (s : State) : s.statusWord.extractLsb' 16 9 = BitVec.ofNat 9 s.queue.size := by
  simp (disch := decide) only [State.statusWord, BitVec.extractLsb'_append_eq_of_le]
  exact BitVec.extractLsb'_append_eq_right

/-- R35: the field PQ_POLICY. -/
theorem statusWord_pqPolicy (s : State) : s.statusWord.extractLsb' 15 1 = policyValue s.queue.policy := by
  simp (disch := decide) only [State.statusWord, BitVec.extractLsb'_append_eq_of_le]
  exact BitVec.extractLsb'_append_eq_right

theorem statusWord_bit15 (s : State) : s.statusWord.getLsbD 15 = (policyValue s.queue.policy).getLsbD 0 := by
  rw [← statusWord_pqPolicy, BitVec.getLsbD_extractLsb']
  rfl

/-! ### PQ_NEW, PQ_INSERT, PQ_PEEK, PQ_POP and PQ_SIZE -/

/-- Settles O35: the completion with the queue written; STATUS shows its two fields. -/
theorem pqNewEmptiesQueue : Obligations.PqNewEmptiesQueue := by
  refine ⟨by decide, by decide, fun p s =>
    ⟨_, exec_pqNew p s, setQueue_changesOnly _ _, rfl, rfl, ?_, statusWord_pqSize _⟩⟩
  rw [statusWord_bit15, State.complete_queue, State.setQueue_queue]
  cases p <;> rfl

/-- Settles O36: below capacity the heap is `heapInsert`'s, which stands in the relation `Inserts`. -/
theorem pqInsertAppendsAndPercolates : Obligations.PqInsertAppendsAndPercolates := by
  refine fun tag s => ⟨immediate_append tag 0x0002#16, fun h => ?_, fun h => ?_⟩
  · exact ⟨_, s.keyOperand, exec_pqInsert_of_lt tag h, setQueue_changesOnly _ _, rfl, length_heapInsert _ _ _,
      keyOperand_toNat s, heapInsert_inserts _ _ _⟩
  · exact failsWith_of_finish (exec_pqInsert_of_full tag h)

/-- Settles O37: the results are the head of the heap, or its absence. -/
theorem pqPeekShowsRoot : Obligations.PqPeekShowsRoot := by
  refine ⟨by decide, fun s => ⟨_, exec_pqPeek s, results_changesOnly _ _, fun h => ?_, fun e rest h => ?_⟩⟩
  · simp only [h]
    exact elemResults_none
  · simp only [h]
    exact elemResults_some e

/-- Settles O38: an empty heap is left as it is; a nonempty one goes through `heapPop`, which is a `Pops`. -/
theorem pqPopRemovesRoot : Obligations.PqPopRemovesRoot := by
  refine ⟨by decide, fun s => ?_⟩
  by_cases hempty : s.queue.heap = []
  · exact ⟨_, exec_pqPop_of_empty hempty, popped_changesOnly _ _ _, rfl, fun _ => ⟨rfl, elemResults_none⟩,
      fun h => absurd hempty h⟩
  · obtain ⟨top, rest, hpop⟩ := heapPop_isSome (p := s.queue.policy) (List.length_pos_iff.mpr hempty)
    exact ⟨_, exec_pqPop_of_heapPop hpop, popped_changesOnly _ _ _, rfl, fun h => absurd h hempty,
      fun _ => ⟨top, heapPop_pops hpop, heapPop_perm hpop, (heapPop_length hpop).symm, elemResults_some top⟩⟩

/-- Settles O39: SIZE is at most 256, so neither the word nor the nine bits of STATUS cut it. -/
theorem pqSizeShowsSize : Obligations.PqSizeShowsSize := by
  refine ⟨by decide, fun s hs => ?_⟩
  have hword : (BitVec.ofNat 32 s.queue.size).toNat = s.queue.size :=
    (BitVec.toNat_ofNat _ _).trans (Nat.mod_eq_of_lt (by omega))
  have hfield : (BitVec.ofNat 9 s.queue.size).toNat = s.queue.size :=
    (BitVec.toNat_ofNat _ _).trans (Nat.mod_eq_of_lt (by omega))
  have hres : (s.setRes 0 (BitVec.ofNat 32 s.queue.size)).complete.res[0] = BitVec.ofNat 32 s.queue.size :=
    Vector.getElem_set_self (by decide)
  refine ⟨_, exec_pqSize s, setRes_changesOnly s 0 _, by rw [hres, hword], ?_⟩
  rw [statusWord_pqSize, hres, hword]
  exact hfield.symm

end Sys2Proof.Proofs
end

-- The order of the queue (41_pq.md R133)
section

namespace Sys2Proof.Proofs

open Sys2Proof.Machine

/-- Popping the heap until it is empty returns these elements in this order. -/
inductive Drains (p : Policy) : List Elem → List Elem → Prop where
  | done : Drains p [] []
  | pop {h rest es : List Elem} {top : Elem} (hp : heapPop p h = some (top, rest)) (next : Drains p rest es) :
      Drains p h (top :: es)

/-- PQ_POP executed as often as there are elements shows what the heap drains to. -/
theorem Drains.popRun {p : Policy} {h es : List Elem} (d : Drains p h es) {s : State}
    (hs : s.queue = { policy := p, heap := h }) :
    ∃ t, PopRun s (es.map fun e => elemResults (some e)) t ∧ t.queue.heap = [] := by
  induction d generalizing s with
  | done => exact ⟨s, .done s, by rw [hs]⟩
  | @pop _ rest _ top hp _ ih =>
    obtain ⟨t, run, hempty⟩ := ih (s := popped s (some top) rest) (by rw [popped_queue, hs])
    exact ⟨t, .pop (exec_pqPop_of_heapPop (by rw [hs]; exact hp)) run, hempty⟩

theorem exists_drains (p : Policy) (h : List Elem) : ∃ es, Drains p h es := by
  induction hn : h.length generalizing h with
  | zero => exact ⟨[], by rw [List.length_eq_zero_iff.mp hn]; exact .done⟩
  | succ n ih =>
    obtain ⟨top, rest, hp⟩ := heapPop_isSome (p := p) (h := h) (by omega)
    obtain ⟨es, d⟩ := ih rest (by have := heapPop_length hp; omega)
    exact ⟨top :: es, .pop hp d⟩

theorem Drains.perm {p : Policy} {h es : List Elem} (d : Drains p h es) : es.Perm h := by
  induction d with
  | done => exact .refl _
  | pop hp _ ih => exact (ih.cons _).trans (heapPop_perm hp).symm

theorem head_best {p : Policy} {h : List Elem} {top : Elem} (ho : HeapOrdered p h) (ht : h.head? = some top) :
    ∀ e ∈ h, prefers p e top = false := by
  intro e he
  obtain ⟨i, hi, rfl⟩ := List.getElem_of_mem he
  obtain ⟨rest, rfl⟩ := List.head?_eq_some_iff.mp ht
  exact ho.root_best i hi

/-- Each pop returns an element that no remaining one is preferred over, since a pop keeps the heap order. -/
theorem Drains.sorted {p : Policy} {h es : List Elem} (d : Drains p h es) (ho : HeapOrdered p h) :
    es.Pairwise fun a b => prefers p b a = false := by
  induction d with
  | done => exact .nil
  | pop hp next ih =>
    refine .cons (fun e he => head_best ho (heapPop_head hp) e ?_) (ih (heapOrdered_heapPop ho hp))
    exact (heapPop_perm hp).mem_iff.mpr (List.mem_cons_of_mem _ (next.perm.mem_iff.mp he))

theorem notBefore_of_prefers_false {p : Policy} {a b : Elem} (h : prefers p b a = false) :
    NotBefore p (a.key.toNat, a.tag.toNat) (b.key.toNat, b.tag.toNat) := by
  cases p <;> simpa [prefers, BitVec.lt_def, NotBefore] using h

/-! ### Equal keys -/

/-- No element is preferred over one with the same key (R120), so among equal keys nothing moves. -/
theorem prefersAt_of_equal_keys {p : Policy} {h : List Elem} {k : Key} (hk : ∀ e ∈ h, e.key = k) (i j : Nat) :
    prefersAt p h i j = false := by
  unfold prefersAt
  split
  · next a b ha hb =>
    have hab : a.key = b.key := (hk a (List.mem_of_getElem? ha)).trans (hk b (List.mem_of_getElem? hb)).symm
    cases p <;> simp [prefers, hab]
  · rfl

theorem heapInsert_of_equal_keys {p : Policy} {h : List Elem} {e : Elem} (hk : ∀ x ∈ h, x.key = e.key) :
    heapInsert p h e = h ++ [e] := by
  have hk' : ∀ x ∈ h ++ [e], x.key = e.key := by simpa [or_imp, forall_and] using hk
  unfold heapInsert
  cases h.length <;> simp [percolateUp, prefersAt_of_equal_keys hk']

/-- The last element takes the root's place and stays there. -/
theorem heapPop_of_equal_keys {p : Policy} {top last : Elem} {init : List Elem}
    (hk : ∀ x ∈ last :: init, x.key = top.key) :
    heapPop p (top :: (init ++ [last])) = some (top, last :: init) := by
  rw [heapPop_cons]
  simp [percolateDown, prefersAt_of_equal_keys hk]

theorem drains_of_equal_keys (p : Policy) (k : Key) (a b c : Tag) :
    Drains p [⟨k, a⟩, ⟨k, b⟩, ⟨k, c⟩] [⟨k, a⟩, ⟨k, c⟩, ⟨k, b⟩] :=
  .pop (heapPop_of_equal_keys (init := [⟨k, b⟩]) (by simp)) <|
    .pop (heapPop_of_equal_keys (init := []) (by simp)) <| .pop rfl .done

/-- PQ_INSERT of the key that every stored element has: the element goes last. -/
theorem exec_pqInsert_of_equal_keys {s : State} {p : Policy} {h : List Elem} {k : Key}
    (hq : s.queue = { policy := p, heap := h }) (hs : s.keyOperand = k) (hlt : h.length < 256)
    (hk : ∀ e ∈ h, e.key = k) (tag : Tag) :
    ∃ t, exec (.pqInsert tag) s = .next t ∧ t.queue = { policy := p, heap := h ++ [{ key := k, tag := tag }] } ∧
      t.keyOperand = k := by
  subst hs
  refine ⟨_, exec_pqInsert_of_lt tag (by rw [hq]; exact hlt), ?_, rfl⟩
  rw [State.complete_queue, State.setQueue_queue, hq, heapInsert_of_equal_keys hk]

/-- R133 (3), for both policies and any key. -/
theorem equal_keys_order {s : State} {p : Policy} {k : Key} (hq : s.queue = { policy := p, heap := [] })
    (hs : s.keyOperand = k) (a b c : Tag) :
    ∃ s₁ s₂ s₃ u l, exec (.pqInsert a) s = .next s₁ ∧ exec (.pqInsert b) s₁ = .next s₂ ∧
      exec (.pqInsert c) s₂ = .next s₃ ∧ PopRun s₃ l u ∧
      l.map shownElem = [(k.toNat, a.toNat), (k.toNat, c.toNat), (k.toNat, b.toNat)] := by
  obtain ⟨s₁, e₁, hq₁, hs₁⟩ := exec_pqInsert_of_equal_keys hq hs (by simp) (by simp) a
  obtain ⟨s₂, e₂, hq₂, hs₂⟩ := exec_pqInsert_of_equal_keys hq₁ hs₁ (by simp) (by simp) b
  obtain ⟨s₃, e₃, hq₃, -⟩ := exec_pqInsert_of_equal_keys hq₂ hs₂ (by simp) (by simp) c
  obtain ⟨u, run, -⟩ := (drains_of_equal_keys p k a b c).popRun hq₃
  exact ⟨s₁, s₂, s₃, u, _, e₁, e₂, e₃, run, by simp [shownElem_elemResults]⟩

/-! ### The obligation -/

/-- R133 (1): the root is shown, and in heap order nothing is preferred over it. -/
theorem pqPeek_shows_best {s t : State} (ho : HeapOrdered s.queue.policy s.queue.heap) (ht : exec .pqPeek s = .next t)
    {e : Elem} (he : e ∈ s.queue.heap) :
    NotBefore s.queue.policy (shownElem t.res) (e.key.toNat, e.tag.toNat) := by
  obtain ⟨root, hroot⟩ := Option.isSome_iff_exists.mp (List.isSome_head?.mpr (List.ne_nil_of_mem he))
  rw [exec_pqPeek, hroot] at ht
  cases ht
  rw [State.complete_res, shownElem_elemResults]
  exact notBefore_of_prefers_false (head_best ho hroot e he)

/-- R133 (2): what a heap drains to is each element once, in the order of the policy. -/
theorem exists_popRun_sorted {s : State} (ho : HeapOrdered s.queue.policy s.queue.heap) :
    ∃ l t, PopRun s l t ∧ l.length = s.queue.size ∧ t.queue.heap = [] ∧ (∀ r ∈ l, r[3] = 1#32) ∧
      (l.map shownElem).Perm (s.queue.heap.map fun e => (e.key.toNat, e.tag.toNat)) ∧
      (l.map shownElem).Pairwise (NotBefore s.queue.policy) := by
  obtain ⟨es, d⟩ := exists_drains s.queue.policy s.queue.heap
  obtain ⟨t, run, hempty⟩ := d.popRun rfl
  have hshown : (es.map fun e => elemResults (some e)).map shownElem = es.map fun e => (e.key.toNat, e.tag.toNat) := by
    simp [shownElem_elemResults]
  refine ⟨_, t, run, ?_, hempty, ?_, ?_, ?_⟩
  · rw [List.length_map, d.perm.length_eq, Queue.size]
  · exact List.forall_mem_map.mpr fun _ _ => rfl
  · rw [hshown]
    exact d.perm.map _
  · rw [hshown]
    exact List.pairwise_map.mpr ((d.sorted ho).imp notBefore_of_prefers_false)

/-- Settles O40: PQ_PEEK by the root's rank, the run of pops by what the heap drains to, and the three equal keys by the
inserts and pops that move nothing else. -/
theorem queueOrder : Obligations.QueueOrder := by
  refine ⟨fun s a b c hq h0 h1 => ?_, fun s ⟨_, ho⟩ =>
    ⟨fun _ ht _ he => pqPeek_shows_best ho ht he, exists_popRun_sorted ho⟩⟩
  have hkey : s.keyOperand = 5#40 := by rw [State.keyOperand, h0, h1]; rfl
  exact equal_keys_order hq hkey a b c

end Sys2Proof.Proofs
end

-- The frequency table (42_freq.md R140-R142)
section

namespace Sys2Proof.Proofs

open Sys2Proof.Machine

/-! ### Counting -/

theorem getElem_countSymbol (f : Vector Word 256) (b sym : Byte) :
    (countSymbol f b)[sym.toNat] = f[sym.toNat] + if b = sym then 1#32 else 0#32 := by
  by_cases h : b = sym
  · subst h
    rw [countSymbol, Vector.getElem_set_self, if_pos rfl]
  · rw [countSymbol, Vector.getElem_set_ne _ _ (mt BitVec.eq_of_toNat_eq h), if_neg h, BitVec.add_zero]

/-- The loop of R141 adds to each symbol's count its occurrences, modulo 2^32. -/
theorem getElem_foldl_countSymbol (bytes : List Byte) (f : Vector Word 256) (sym : Byte) :
    (bytes.foldl countSymbol f)[sym.toNat] = f[sym.toNat] + BitVec.ofNat 32 (bytes.count sym) := by
  induction bytes generalizing f with
  | nil => exact (BitVec.add_zero _).symm
  | cons b bytes ih =>
    rw [List.foldl_cons, ih, getElem_countSymbol, List.count_cons, BitVec.add_assoc]
    by_cases h : b = sym
    · rw [if_pos h, if_pos (beq_iff_eq.mpr h), Nat.add_comm, BitVec.ofNat_add]
    · rw [if_neg h, if_neg (mt beq_iff_eq.mp h), BitVec.zero_add, Nat.add_zero]

theorem countBytes_eq_foldl (s : State) (src n : Nat) :
    s.countBytes src n = (s.bytesAt src n).foldl countSymbol (Vector.replicate 256 0#32) := by
  rw [State.countBytes, State.bytesAt, List.foldl_map]

theorem length_bytesAt (s : State) (src n : Nat) : (s.bytesAt src n).length = n := by
  rw [State.bytesAt, List.length_map, List.length_range]

/-- R141: no count can overflow, since the range holds fewer than 2^32 bytes. -/
theorem toNat_countBytes (s : State) (src : Nat) {n : Nat} (hn : n < 2 ^ 32) (sym : Byte) :
    (s.countBytes src n)[sym.toNat].toNat = (s.bytesAt src n).count sym := by
  have hcount : (s.bytesAt src n).count sym < 2 ^ 32 :=
    (List.count_le_length.trans_eq (length_bytesAt s src n)).trans_lt hn
  rw [countBytes_eq_foldl, getElem_foldl_countSymbol, Vector.getElem_replicate, BitVec.zero_add, BitVec.toNat_ofNat,
    Nat.mod_eq_of_lt hcount]

/-! ### The number of distinct bytes -/

theorem toList_eq_map_symbols (f : Vector Word 256) :
    f.toList = ((List.range 256).map (BitVec.ofNat 8)).map fun sym => f[sym.toNat] := by
  refine List.ext_getElem (by simp) fun i h _ => ?_
  have hi : i < 2 ^ 8 := by simpa using h
  simp only [Vector.getElem_toList, List.getElem_map, List.getElem_range]
  exact getElem_congr_idx ((BitVec.toNat_ofNat i 8).trans (Nat.mod_eq_of_lt hi)).symm

theorem distinctCount_eq_length (f : Vector Word 256) : distinctCount f = (presentSymbols f).length := by
  rw [distinctCount, toList_eq_map_symbols, List.countP_map, List.countP_eq_length_filter]
  rfl

/-- The symbols with a nonzero count are the bytes that occur in the range. -/
theorem presentSymbols_countBytes_perm (s : State) (src : Nat) {n : Nat} (hn : n < 2 ^ 32) :
    (presentSymbols (s.countBytes src n)).Perm (s.bytesAt src n).dedup := by
  refine (List.perm_ext_iff_of_nodup (presentSymbols_nodup _) (List.nodup_dedup _)).mpr fun sym => ?_
  rw [mem_presentSymbols, List.mem_dedup, ← List.count_pos_iff, ← toNat_countBytes s src hn sym, Nat.pos_iff_ne_zero]
  exact not_congr (BitVec.toNat_inj (y := 0#32)).symm

theorem toNat_distinctCount_countBytes (s : State) (src : Nat) {n : Nat} (hn : n < 2 ^ 32) :
    (BitVec.ofNat 32 (distinctCount (s.countBytes src n))).toNat = (s.bytesAt src n).dedup.length := by
  have hlen : distinctCount (s.countBytes src n) = (s.bytesAt src n).dedup.length :=
    (distinctCount_eq_length _).trans (presentSymbols_countBytes_perm s src hn).length_eq
  have hle : (s.bytesAt src n).dedup.length ≤ n :=
    (List.dedup_sublist _).length_le.trans_eq (length_bytesAt s src n)
  rw [hlen, BitVec.toNat_ofNat, Nat.mod_eq_of_lt (hle.trans_lt hn)]

/-! ### FREQ_BUILD and FREQ_READ -/

/-- What FREQ_BUILD leaves (R141): the table, and the number of its nonzero counts. -/
def tabulated (s : State) (f : Vector Word 256) : State :=
  ((s.setFreq f).setRes 0 (BitVec.ofNat 32 (distinctCount f))).complete

theorem exec_freqBuild_of_rangeOk {s : State} (h : s.RangeOk s.srcOperand s.lengthOperand) :
    exec .freqBuild s = .next (tabulated s (s.countBytes s.srcOperand s.lengthOperand)) := by
  rw [exec, execFreqBuild, checkRange_ok h]
  rfl

theorem exec_freqBuild_of_not_rangeOk {s : State} (h : ¬s.RangeOk s.srcOperand s.lengthOperand) :
    exec .freqBuild s = finish s (.error ⟨.badAddr, s.larg[0], s.larg[1]⟩) := by
  rw [exec, execFreqBuild, checkRange_error h, State.srcOperand, State.lengthOperand, BitVec.ofNat_toNat,
    BitVec.ofNat_toNat, BitVec.setWidth_eq, BitVec.setWidth_eq]

theorem tabulated_res0 (s : State) (f : Vector Word 256) :
    (tabulated s f).res[0] = BitVec.ofNat 32 (distinctCount f) := Vector.getElem_set_self (by decide)

theorem tabulated_changesOnly (s : State) (f : Vector Word 256) : ChangesOnly s (tabulated s f) [.freq, .res 0] := by
  refine changesOnly_of (SameRest.completed (by constructor <;> rfl)) (fun n hp => ?_)
    (fun hp => absurd List.mem_cons_self hp) (fun _ => rfl) (fun _ => rfl) (fun _ => rfl) fun _ => sameBytes_of_dmem rfl
  exact (setRes_changesOnly (s.setFreq f) 0 _).others (.res n) fun hn => hp (List.mem_cons_of_mem _ hn)

theorem exec_freqRead (sym : Byte) (s : State) :
    exec (.freqRead sym) s = .next (s.setRes 0 s.freq[sym.toNat]).complete := rfl

/-- A SYM field above a constant half of a command word (R81). -/
theorem symbol_append (sym : Byte) (low : BitVec 16) :
    0#8 ++ sym ++ low = low.setWidth 32 ||| (sym.setWidth 32 <<< 16) := by
  have hsym : 0#8 ++ sym = sym.setWidth 16 := (BitVec.setWidth_eq_append (by decide)).symm
  rw [immediate_append, hsym, BitVec.setWidth_setWidth (by decide)]

/-- Settles O42: the completion with RES0 written. -/
theorem freqReadShowsCount : Obligations.FreqReadShowsCount :=
  ⟨by decide, fun sym s => ⟨symbol_append sym 0x0011#16, _, exec_freqRead sym s, setRes_changesOnly s 0 _,
    Vector.getElem_set_self (by decide)⟩⟩

/-- Settles O41: each count is the number of occurrences, so the nonzero ones are those of the distinct bytes. -/
theorem freqBuildCountsBytes : Obligations.FreqBuildCountsBytes := by
  refine ⟨by decide, fun s => ⟨fun h => ?_, fun h => failsWith_of_finish (exec_freqBuild_of_not_rangeOk h)⟩⟩
  have hn : s.lengthOperand < 2 ^ 32 := s.larg[1].isLt
  refine ⟨_, exec_freqBuild_of_rangeOk h, tabulated_changesOnly _ _, toNat_countBytes s _ hn, ?_⟩
  rw [tabulated_res0]
  exact toNat_distinctCount_countBytes s _ hn

end Sys2Proof.Proofs
end

-- TREE_SERIALIZE (43_tree.md R154, R155)
section

namespace Sys2Proof.Proofs

open Sys2Proof.Machine

/-! ### The descriptor of a tree -/

theorem state_ne_invalid_of_hasShape {t : Tree} {sh : Option Shape} (hs : t.HasShape sh) : t.state ≠ .invalid := by
  match sh, hs with
  | none, hs => rw [show t.state = .empty from hs]; decide
  | some (.leaf _), ⟨hs, _⟩ => rw [hs]; decide
  | some (.node _ _), ⟨hs, _⟩ => rw [hs]; decide

theorem descriptor_of_hasShape {t : Tree} {sh : Option Shape} (hk : t.Ok) (hs : t.HasShape sh) :
    t.descriptor = (sh.map Shape.descriptor).getD [] :=
  Tree.descriptor_of_shape hs fun x hx => (hk.shape_size hs x hx).1

/-- R154: there are 256 symbols, and 3L - 1 bytes for L of them. -/
theorem length_descriptor_le_of_nodup {sh : Shape} (hn : sh.symbols.Nodup) : sh.descriptor.length ≤ 767 := by
  have hbytes := sh.length_descriptor
  have hsymbols := length_le_of_nodup hn
  omega

theorem length_descriptor_le_of_hasShape {t : Tree} {sh : Option Shape} (hk : t.Ok) (hs : t.HasShape sh) :
    t.descriptor.length ≤ 767 := by
  rw [descriptor_of_hasShape hk hs]
  cases sh with
  | none => exact Nat.zero_le _
  | some x => exact length_descriptor_le_of_nodup (hk.shape_size hs x rfl).2

/-! ### The command -/

/-- What TREE_SERIALIZE leaves (R155): the bytes at LARG0, and their number. -/
def serialized (s : State) (d : List Byte) : State :=
  ((s.memWrite { base := s.serializeDstOperand, bytes := d }).setRes 0 (BitVec.ofNat 32 d.length)).complete

theorem exec_treeSerialize_of_invalid {s : State} (h : s.tree.state = .invalid) :
    exec .treeSerialize s = finish s (.error ⟨.noTree, 0#32, 0#32⟩) := by
  rw [exec, execTreeSerialize, State.serializeStore, requireTree_error h]

theorem exec_treeSerialize_of_rangeOk {s : State} (hi : s.tree.state ≠ .invalid)
    (h : s.RangeOk s.serializeDstOperand s.tree.descriptor.length) :
    exec .treeSerialize s = .next (serialized s s.tree.descriptor) := by
  simp only [exec, execTreeSerialize, State.serializeStore, requireTree_ok hi, checkRange_ok h]
  rfl

theorem exec_treeSerialize_of_not_rangeOk {s : State} (hi : s.tree.state ≠ .invalid)
    (h : ¬s.RangeOk s.serializeDstOperand s.tree.descriptor.length) :
    exec .treeSerialize s = finish s (.error ⟨.badAddr, s.larg[0], BitVec.ofNat 32 s.tree.descriptor.length⟩) := by
  simp only [exec, execTreeSerialize, State.serializeStore, requireTree_ok hi, checkRange_error h]
  rw [State.serializeDstOperand, BitVec.ofNat_toNat, BitVec.setWidth_eq]

theorem serialized_res0 (s : State) (d : List Byte) : (serialized s d).res[0] = BitVec.ofNat 32 d.length :=
  Vector.getElem_set_self (by decide)

theorem serialized_holdsBytes (s : State) (d : List Byte) :
    HoldsBytes (serialized s d) s.serializeDstOperand d :=
  s.holdsBytes_memWrite { base := s.serializeDstOperand, bytes := d }

theorem serialized_sameBytesOutside (s : State) (d : List Byte) :
    SameBytesOutside s (serialized s d) s.serializeDstOperand d.length :=
  s.sameBytesOutside_memWrite { base := s.serializeDstOperand, bytes := d }

theorem serialized_changesOnly (s : State) (d : List Byte) : ChangesOnly s (serialized s d) [.dmem, .res 0] := by
  refine changesOnly_of (SameRest.completed (by constructor <;> rfl)) (fun n hp => ?_) (fun _ => rfl) (fun _ => rfl)
    (fun _ => rfl) (fun _ => rfl) fun hp => absurd List.mem_cons_self hp
  exact (setRes_changesOnly (s.memWrite _) 0 _).others (.res n) fun hn => hp (List.mem_cons_of_mem _ hn)

/-- A length of at most 767 bytes fits a result register. -/
theorem toNat_ofNat_of_le_767 {n : Nat} (h : n ≤ 767) : (BitVec.ofNat 32 n).toNat = n :=
  (BitVec.toNat_ofNat n 32).trans (Nat.mod_eq_of_lt (h.trans_lt (by decide)))

/-- Settles O47: the walk gives the descriptor of the tree's shape, which is stored where the range is valid. -/
theorem treeSerializeStoresDescriptor : Obligations.TreeSerializeStoresDescriptor := by
  refine ⟨by decide, fun s hk => ⟨fun hi => failsWith_of_finish (exec_treeSerialize_of_invalid hi), fun sh hs => ?_⟩⟩
  have hi := state_ne_invalid_of_hasShape hs
  have hle := length_descriptor_le_of_hasShape hk hs
  have hd := descriptor_of_hasShape hk hs
  rw [← hd]
  refine ⟨rfl, ?_, hle, fun h => ?_, fun h => failsWith_of_finish (exec_treeSerialize_of_not_rangeOk hi h)⟩
  · rintro x rfl
    rw [hd]
    exact x.length_descriptor
  · refine ⟨_, exec_treeSerialize_of_rangeOk hi h, serialized_changesOnly _ _, serialized_holdsBytes _ _,
      serialized_sameBytesOutside _ _, ?_⟩
    rw [serialized_res0, toNat_ofNat_of_le_767 hle]

end Sys2Proof.Proofs
end

-- Loading what TREE_SERIALIZE stored (43_tree.md R156, R157)
section

namespace Sys2Proof.Proofs

open Sys2Proof.Machine

/-! ### The tree that loads from a tree's descriptor -/

/-- What R157 says of the tree `t'` loaded from the descriptor of the tree `t`. -/
structure ReloadedFrom (t t' : Tree) : Prop where
  descriptor : t'.descriptor = t.descriptor
  shape : ∀ sh, t.HasShape sh → t'.HasShape sh
  weights : ∀ n ∈ t'.nodes, n.weight = 0#40
  preorder : ∀ sh, t.HasShape (some sh) → Spans t'.nodes sh 0#9 (List.range t'.nodeCount)
  codes : deriveCodes t' = deriveCodes t

/-- A tree has one shape, and the shape fixes the descriptor and the codes. -/
theorem reloadedFrom_of_hasShape {t t' : Tree} {sh : Option Shape} (hk : t.Ok) (hk' : t'.Ok) (hs : t.HasShape sh)
    (hs' : t'.HasShape sh) (hw : ∀ n ∈ t'.nodes, n.weight = 0#40)
    (hp : ∀ x ∈ sh, Spans t'.nodes x 0#9 (List.range t'.nodeCount)) : ReloadedFrom t t' where
  descriptor := (descriptor_of_hasShape hk' hs').trans (descriptor_of_hasShape hk hs).symm
  shape _ h := hs.unique h ▸ hs'
  weights := hw
  preorder x h := hp x (hs.unique h)
  codes := deriveCodes_congr hs' hs (fun x hx => (hk'.shape_size hs' x hx).1) fun x hx => (hk.shape_size hs x hx).1

/-- The EMPTY tree meets R48. -/
theorem emptyTree_ok : ({ nodes := [], root := Config.nil, state := .empty } : Tree).Ok :=
  ⟨Nat.zero_le _, List.forall_mem_nil _, rfl, rfl⟩

/-- R157 for the arena: the descriptor of every tree but INVALID loads, and the tree is restored. -/
theorem loadTree_of_descriptor {t : Tree} {d : Nat → Byte} (hk : t.Ok) (hi : t.state ≠ .invalid)
    (hd : BytesAt d 0 t.descriptor) :
    ∃ t' leaves, loadTree d t.descriptor.length = .ok (t', leaves) ∧ ReloadedFrom t t' := by
  obtain ⟨sh, hs, -⟩ := hk.exists_shape hi
  rw [descriptor_of_hasShape hk hs] at hd ⊢
  cases sh with
  | none =>
    exact ⟨_, 0, loadTree_zero d, reloadedFrom_of_hasShape hk emptyTree_ok hs rfl (by simp) (by simp)⟩
  | some x =>
    obtain ⟨t', hl, p⟩ := loadTree_complete hd (hk.shape_size hs x rfl).2
    refine ⟨t', _, hl, reloadedFrom_of_hasShape hk p.ok hs p.shape p.weights ?_⟩
    rintro _ ⟨⟩
    exact p.preorder

/-! ### The commands -/

/-- What TREE_LOAD leaves (R156): the tree, no code table, and the tree's numbers. -/
def treeLoaded (s : State) (t : Tree) (leaves : Nat) : State := ((s.setTree t).setTreeResults t leaves).complete

theorem exec_treeLoad_of_loadTree {s : State} {t : Tree} {leaves : Nat} (h : s.RangeOk s.srcOperand s.lengthOperand)
    (hl : loadTree (fun i => s.memRead (s.srcOperand + i)) s.lengthOperand = .ok (t, leaves)) :
    exec .treeLoad s = .next (treeLoaded s t leaves) := by
  simp only [exec, execTreeLoad, checkRange_ok h, hl]
  rfl

theorem treeLoaded_completed (s : State) (t : Tree) (leaves : Nat) : Completed s (treeLoaded s t leaves) :=
  SameRest.completed (by constructor <;> rfl)

/-- A TREE_SERIALIZE that leaves ERR = 0 had a valid range and stored the descriptor (R155, R213). -/
theorem serialized_of_exec_treeSerialize {s t : State} (hi : s.tree.state ≠ .invalid)
    (he : exec .treeSerialize s = .next t) (hok : t.status.err = false) :
    s.RangeOk s.serializeDstOperand s.tree.descriptor.length ∧ t = serialized s s.tree.descriptor := by
  by_cases h : s.RangeOk s.serializeDstOperand s.tree.descriptor.length
  · rw [exec_treeSerialize_of_rangeOk hi h] at he
    cases he
    exact ⟨h, rfl⟩
  · rw [exec_treeSerialize_of_not_rangeOk hi h] at he
    cases he
    cases hok

theorem rangeOk_congr {s u : State} (h : u.dmemLast = s.dmemLast) {a n : Nat} : u.RangeOk a n ↔ s.RangeOk a n := by
  rw [State.RangeOk, State.RangeOk, State.dmemBytes, State.dmemBytes, h]

/-- Settles O50: the bytes stored are the descriptor, and the descriptor of a tree loads as a tree of the same shape. -/
theorem descriptorRoundTrip : Obligations.DescriptorRoundTrip := by
  intro s t u hk hi he hok hsrc hlen hmem hlast
  obtain ⟨hrange, rfl⟩ := serialized_of_exec_treeSerialize hi he hok
  obtain ⟨sh, hs, -⟩ := hk.exists_shape hi
  have hm : u.lengthOperand = s.tree.descriptor.length := by
    rw [State.lengthOperand, hlen, serialized_res0, toNat_ofNat_of_le_767 (length_descriptor_le_of_hasShape hk hs)]
  have hd : u.srcOperand = s.serializeDstOperand := congrArg BitVec.toNat hsrc
  have hbytes : BytesAt (fun i => u.memRead (u.srcOperand + i)) 0 s.tree.descriptor := by
    intro i h
    simp only [Nat.zero_add, hd, hmem]
    exact serialized_holdsBytes s _ i h
  obtain ⟨t', leaves, hl, r⟩ := loadTree_of_descriptor hk hi hbytes
  rw [← hm] at hl
  have hu : u.RangeOk u.srcOperand u.lengthOperand := by rwa [hd, hm, rangeOk_congr (s := s) hlast]
  exact ⟨_, exec_treeLoad_of_loadTree hu hl, treeLoaded_completed _ _ _, r.descriptor, r.shape, r.weights, r.preorder,
    r.codes⟩

end Sys2Proof.Proofs
end

-- CODE_DERIVE (44_code.md R180, R181)
section

namespace Sys2Proof.Proofs

open Sys2Proof.Machine

/-! ### The codes of a shape -/

/-- The codes that R181 assigns for a tree of this shape; none for the EMPTY tree. -/
def codesOf (sh : Option Shape) : List (Byte × List Bool) := (sh.map Shape.codes).getD []

theorem mem_codesOf {sh : Option Shape} {p : Byte × List Bool} : p ∈ codesOf sh ↔ ∃ x ∈ sh, p ∈ x.codes := by
  cases sh <;> simp [codesOf]

theorem mem_symbols_iff_exists_code {x : Shape} {sym : Byte} : sym ∈ x.symbols ↔ ∃ p ∈ x.codes, p.1 = sym := by
  rw [← x.codes_symbols, List.mem_map]

theorem not_mem_symbols_of_no_code {sh : Option Shape} {sym : Byte} (h : ∀ p ∈ codesOf sh, p.1 ≠ sym) :
    ∀ x ∈ sh, sym ∉ x.symbols := by
  intro x hx hs
  obtain ⟨p, hp, he⟩ := mem_symbols_iff_exists_code.mp hs
  exact h p (mem_codesOf.mpr ⟨x, hx, hp⟩) he

theorem length_of_mem_codesOf {sh : Option Shape} (hn : ∀ x ∈ sh, x.symbols.Nodup) :
    ∀ p ∈ codesOf sh, 1 ≤ p.2.length ∧ p.2.length ≤ 255 := by
  intro p hp
  obtain ⟨x, hx, hp⟩ := mem_codesOf.mp hp
  exact Shape.codes_length (hn x hx) p hp

theorem nodup_codesOf_symbols {sh : Option Shape} (hn : ∀ x ∈ sh, x.symbols.Nodup) :
    ((codesOf sh).map Prod.fst).Nodup := by
  cases sh with
  | none => exact List.nodup_nil
  | some x => exact x.codes_symbols ▸ hn x rfl

theorem codeValue_nil : codeValue [] = 0#256 := by
  refine BitVec.eq_of_getLsbD_eq fun b hb => ?_
  rw [codeValue_getLsbD _ hb, BitVec.getLsbD_zero, List.getD_nil]

/-- A code's bits lie at the top of its VAL (R49). -/
theorem codeValue_getLsbD_of_lt {bits : List Bool} {b : Nat} (hb : b < 256 - bits.length) :
    (codeValue bits).getLsbD b = false := by
  rw [codeValue_getLsbD _ (by omega), List.getD_eq_default _ _ (by omega)]

/-! ### The numbers of a table -/

theorem setWidth_eq_zero_iff {l : BitVec 8} : l.setWidth 32 = 0#32 ↔ l = 0#8 := by
  bv_omega

/-- The entries of LEN that are not 0 are counted as those of FREQ are (R140, R181). -/
theorem codedCount_eq_length (c : CodeTable) :
    codedCount c = (presentSymbols (c.len.map (BitVec.setWidth 32))).length := by
  rw [← distinctCount_eq_length, distinctCount, codedCount, Vector.toList_map, List.countP_map]
  refine List.countP_congr fun l _ => ?_
  rw [Function.comp_apply, bne_iff_ne, bne_iff_ne, ne_eq, ne_eq, setWidth_eq_zero_iff]

theorem mem_toList_iff_exists_symbol {α : Type} {v : Vector α 256} {a : α} :
    a ∈ v.toList ↔ ∃ sym : Byte, v[sym.toNat] = a := by
  rw [Vector.mem_toList_iff, Vector.mem_iff_getElem]
  constructor
  · rintro ⟨i, hi, rfl⟩
    exact ⟨BitVec.ofNat 8 i, getElem_congr_idx ((BitVec.toNat_ofNat i 8).trans (Nat.mod_eq_of_lt hi))⟩
  · rintro ⟨sym, rfl⟩
    exact ⟨_, sym.isLt, rfl⟩

theorem foldr_max_le_iff {l : List Nat} {n : Nat} : l.foldr max 0 ≤ n ↔ ∀ k ∈ l, k ≤ n :=
  ⟨fun h _ hk => (List.le_max_of_le hk le_rfl).trans h, List.max_le_of_forall_le l n⟩

theorem maxCodeLength_le_iff {c : CodeTable} {n : Nat} :
    maxCodeLength c ≤ n ↔ ∀ sym : Byte, c.len[sym.toNat].toNat ≤ n := by
  have hmax : maxCodeLength c = (c.len.toList.map BitVec.toNat).foldr max 0 := by
    rw [maxCodeLength, ← List.foldl_eq_foldr, List.foldl_map]
  rw [hmax, foldr_max_le_iff, List.forall_mem_map]
  constructor
  · exact fun h sym => h _ (mem_toList_iff_exists_symbol.mpr ⟨sym, rfl⟩)
  · intro h l hl
    obtain ⟨sym, rfl⟩ := mem_toList_iff_exists_symbol.mp hl
    exact h sym

theorem maxCodeLength_le (c : CodeTable) : maxCodeLength c ≤ 255 :=
  maxCodeLength_le_iff.mpr fun sym => Nat.le_of_lt_succ c.len[sym.toNat].isLt

/-! ### The derived table -/

section

variable {sh : Option Shape} {c : CodeTable} (d : Derives sh c) (hn : ∀ x ∈ sh, x.symbols.Nodup)

include d hn

theorem has_of_mem_codesOf {p : Byte × List Bool} (hp : p ∈ codesOf sh) : c.Has p.1 p.2 := by
  obtain ⟨x, rfl, hp⟩ := mem_codesOf.mp hp
  exact d.has (hn x rfl) hp

/-- VAL of every symbol, with a code or without, is its code's bits and 0 past them. -/
theorem val_eq_codeValue {sym : Byte} {bits : List Bool} (h : c.Has sym bits) : c.val[sym.toNat] = codeValue bits := by
  by_cases hs : ∃ p ∈ codesOf sh, p.1 = sym
  · obtain ⟨p, hp, rfl⟩ := hs
    have hbits : bits = p.2 := h.eq_code.trans (has_of_mem_codesOf d hn hp).eq_code.symm
    obtain ⟨x, hx, hp⟩ := mem_codesOf.mp hp
    rw [hbits, (d.coded x hx p hp).2]
  · have hno := not_mem_symbols_of_no_code fun p hp he => hs ⟨p, hp, he⟩
    rw [h.eq_code.trans (d.has_nil hno).eq_code.symm, codeValue_nil, (d.others sym hno).2]

theorem len_ne_zero_iff {sym : Byte} : c.len[sym.toNat] ≠ 0#8 ↔ sym ∈ (codesOf sh).map Prod.fst := by
  rw [List.mem_map]
  constructor
  · intro h
    by_contra hs
    exact h (d.others sym (not_mem_symbols_of_no_code fun p hp he => hs ⟨p, hp, he⟩)).1
  · rintro ⟨p, hp, rfl⟩ h
    have hlen := (has_of_mem_codesOf d hn hp).1
    have hpos := (length_of_mem_codesOf hn p hp).1
    rw [hlen, h] at hpos
    exact absurd hpos (by decide)

theorem codedCount_eq_length_codesOf : codedCount c = (codesOf sh).length := by
  have hmem (sym : Byte) :
      sym ∈ presentSymbols (c.len.map (BitVec.setWidth 32)) ↔ sym ∈ (codesOf sh).map Prod.fst := by
    rw [mem_presentSymbols, Vector.getElem_map, ne_eq, setWidth_eq_zero_iff, ← len_ne_zero_iff d hn]
  have hperm := (List.perm_ext_iff_of_nodup (presentSymbols_nodup _) (nodup_codesOf_symbols hn)).mpr hmem
  rw [codedCount_eq_length, hperm.length_eq, List.length_map]

theorem maxCodeLength_eq_foldr : maxCodeLength c = (codesOf sh).foldr (fun p m => max p.2.length m) 0 := by
  have hcodes : (codesOf sh).foldr (fun p m => max p.2.length m) 0 =
      ((codesOf sh).map fun p => p.2.length).foldr max 0 := List.foldr_map.symm
  refine eq_of_forall_ge_iff fun n => ?_
  rw [maxCodeLength_le_iff, hcodes, foldr_max_le_iff, List.forall_mem_map]
  constructor
  · intro h p hp
    rw [(has_of_mem_codesOf d hn hp).1]
    exact h p.1
  · intro h sym
    by_cases hs : c.len[sym.toNat] = 0#8
    · rw [hs]
      exact Nat.zero_le n
    · obtain ⟨p, hp, rfl⟩ := List.mem_map.mp ((len_ne_zero_iff d hn).mp hs)
      rw [← (has_of_mem_codesOf d hn hp).1]
      exact h p hp

end

theorem derives_of_hasShape {t : Tree} {sh : Option Shape} (hk : t.Ok) (hs : t.HasShape sh) :
    Derives sh (deriveCodes t) ∧ ∀ x ∈ sh, x.symbols.Nodup :=
  have hx := hk.shape_size hs
  ⟨deriveCodes_spec hs (fun x h => (hx x h).1) fun x h => (hx x h).2, fun x h => (hx x h).2⟩

/-! ### The command -/

/-- What CODE_DERIVE and CODE_READ leave in the registers (R181, R183): two numbers, in RES0 and RES1. -/
def shownPair (s : State) (a b : Word) : State := ((s.setRes 0 a).setRes 1 b).complete

theorem shownPair_res0 (s : State) (a b : Word) : (shownPair s a b).res[0] = a :=
  (Vector.getElem_set_ne (by decide) (by decide) (by decide)).trans (Vector.getElem_set_self (by decide))

theorem shownPair_res1 (s : State) (a b : Word) : (shownPair s a b).res[1] = b :=
  Vector.getElem_set_self (by decide)

theorem shownPair_changesOnly (s : State) (a b : Word) : ChangesOnly s (shownPair s a b) [.res 0, .res 1] := by
  refine queue_res_changesOnly (fun _ => rfl) fun n hp => ?_
  simp only [List.mem_cons, Part.res.injEq, List.not_mem_nil, or_false, not_or] at hp
  exact (Vector.getElem_set_ne (by decide) n.isLt fun h => hp.2 (Fin.ext h.symm)).trans
    (Vector.getElem_set_ne (by decide) n.isLt fun h => hp.1 (Fin.ext h.symm))

/-- What CODE_DERIVE leaves (R181): the table, the number of codes and the longest length. -/
def derived (s : State) (c : CodeTable) : State :=
  shownPair (s.setCodes c) (BitVec.ofNat 32 (codedCount c)) (BitVec.ofNat 32 (maxCodeLength c))

theorem derived_changesOnly (s : State) (c : CodeTable) : ChangesOnly s (derived s c) [.codes, .res 0, .res 1] := by
  refine changesOnly_of (SameRest.completed (by constructor <;> rfl)) (fun n hp => ?_) (fun _ => rfl) (fun _ => rfl)
    (fun _ => rfl) (fun hp => absurd List.mem_cons_self hp) fun _ => sameBytes_of_dmem rfl
  exact (shownPair_changesOnly (s.setCodes c) _ _).others (.res n) fun hn => hp (List.mem_cons_of_mem _ hn)

theorem exec_codeDerive_of_invalid {s : State} (h : s.tree.state = .invalid) :
    exec .codeDerive s = finish s (.error ⟨.noTree, 0#32, 0#32⟩) := by
  rw [exec, execCodeDerive, requireTree_error h]

theorem exec_codeDerive_of_ne_invalid {s : State} (h : s.tree.state ≠ .invalid) :
    exec .codeDerive s = .next (derived s (deriveCodes s.tree)) := by
  rw [exec, execCodeDerive, requireTree_ok h]
  rfl

/-- Settles O51: the table of a tree with a shape holds the shape's codes, and nothing for other symbols. -/
theorem codeDeriveGivesPaths : Obligations.CodeDeriveGivesPaths := by
  refine ⟨by decide, fun s hk => ⟨fun hi => failsWith_of_finish (exec_codeDerive_of_invalid hi), fun sh hs => ?_⟩⟩
  obtain ⟨d, hn⟩ := derives_of_hasShape hk hs
  have hcount : (codesOf sh).length ≤ 256 := by
    simpa using length_le_of_nodup (nodup_codesOf_symbols hn)
  refine ⟨_, exec_codeDerive_of_ne_invalid (state_ne_invalid_of_hasShape hs), derived_changesOnly _ _, d.valid,
    fun p hp => ⟨has_of_mem_codesOf d hn hp, length_of_mem_codesOf hn p hp⟩, fun sym hsym => ?_, fun p hp b hb => ?_, ?_, ?_⟩
  · have hno := not_mem_symbols_of_no_code hsym
    exact ⟨d.has_nil hno, (d.others sym hno).2⟩
  · exact (congrArg (·.getLsbD b) (val_eq_codeValue d hn (has_of_mem_codesOf d hn hp))).trans (codeValue_getLsbD_of_lt hb)
  · rw [derived, shownPair_res0, codedCount_eq_length_codesOf d hn, toNat_ofNat_of_le_767 (by omega), codesOf]
  · have hmax := maxCodeLength_le (deriveCodes s.tree)
    rw [derived, shownPair_res1, toNat_ofNat_of_le_767 (by omega), maxCodeLength_eq_foldr d hn, codesOf]

end Sys2Proof.Proofs
end

-- CODE_READ (44_code.md R183)
section

namespace Sys2Proof.Proofs

open Sys2Proof.Machine

/-- The SYM and WIDX fields of CODE_READ's word above its constant half (R81). -/
theorem encode_codeRead (sym : Byte) (widx : BitVec 3) :
    encode (.codeRead sym widx) = 0x00000031#32 ||| (sym.setWidth 32 <<< 16) ||| (widx.setWidth 32 <<< 24) := by
  have hwidx : 0#5 ++ widx = widx.setWidth 8 := (BitVec.setWidth_eq_append (by decide)).symm
  have himm : (0#5 ++ widx ++ sym).setWidth 32 = (widx.setWidth 32 <<< 8) ||| sym.setWidth 32 := by
    rw [hwidx, BitVec.setWidth_append_eq_shiftLeft_setWidth_or, BitVec.setWidth_setWidth (by decide)]
  calc encode (.codeRead sym widx)
      = 0x00000031#32 ||| ((0#5 ++ widx ++ sym).setWidth 32 <<< 16) := immediate_append (0#5 ++ widx ++ sym) 0x0031#16
    _ = 0x00000031#32 ||| ((widx.setWidth 32 <<< 24) ||| (sym.setWidth 32 <<< 16)) := by
        rw [himm, BitVec.shiftLeft_or_distrib, ← BitVec.shiftLeft_add]
    _ = 0x00000031#32 ||| (sym.setWidth 32 <<< 16) ||| (widx.setWidth 32 <<< 24) := by
        rw [BitVec.or_comm (widx.setWidth 32 <<< 24), BitVec.or_assoc]

/-- The code word of R183 holds 32 bits of the code, the first at its top. -/
theorem codeWord_getLsbD {c : CodeTable} {sym : Byte} {widx : BitVec 3} {bits : List Bool}
    (hv : c.val[sym.toNat] = codeValue bits) {i : Nat} (hi : i < 32) :
    (c.codeWord sym widx).getLsbD (31 - i) = bits.getD (32 * widx.toNat + i) false := by
  have hw := widx.isLt
  have hpos : 255 - (224 - 32 * widx.toNat + (31 - i)) = 32 * widx.toNat + i := by omega
  rw [CodeTable.codeWord, hv, BitVec.getLsbD_extractLsb', codeValue_getLsbD _ (by omega), hpos,
    decide_eq_true (by omega), Bool.true_and]

theorem exec_codeRead_of_invalid {s : State} (sym : Byte) (widx : BitVec 3) (h : s.codes.valid = false) :
    exec (.codeRead sym widx) s = finish s (.error ⟨.noCodes, 0#32, 0#32⟩) := by
  rw [exec, execCodeRead, requireCodes_error h]

theorem exec_codeRead_of_valid {s : State} (sym : Byte) (widx : BitVec 3) (h : s.codes.valid = true) :
    exec (.codeRead sym widx) s =
      .next (shownPair s (s.codes.len[sym.toNat].setWidth 32) (s.codes.codeWord sym widx)) := by
  rw [exec, execCodeRead, requireCodes_ok h]
  rfl

/-- A table that is valid is the one derived from the tree (R34), so VAL holds each code and zeros past it. -/
theorem val_eq_codeValue_of_codesOk {s : State} (hv : s.codes.valid = true) (hk : s.tree.Ok) (hc : s.CodesOk)
    {sym : Byte} {bits : List Bool} (h : s.codes.Has sym bits) : s.codes.val[sym.toNat] = codeValue bits := by
  obtain ⟨hi, he⟩ := hc hv
  obtain ⟨sh, hs, -⟩ := hk.exists_shape hi
  obtain ⟨d, hn⟩ := derives_of_hasShape hk hs
  exact val_eq_codeValue (he ▸ d) hn h

/-- Settles O53: a valid table is a derived one, so the word of VAL shown is the code's bits and zeros past them. -/
theorem codeReadShowsCode : Obligations.CodeReadShowsCode := by
  refine fun sym widx s => ⟨encode_codeRead sym widx, fun hv => failsWith_of_finish (exec_codeRead_of_invalid sym widx hv),
    fun hv hk hc bits hb => ⟨_, exec_codeRead_of_valid sym widx hv, shownPair_changesOnly _ _ _, ?_, fun i hi => ?_⟩⟩
  · rw [shownPair_res0, BitVec.toNat_setWidth_of_le (by decide), hb.1]
  · rw [shownPair_res1, codeWord_getLsbD (val_eq_codeValue_of_codesOk hv hk hc hb) hi]

end Sys2Proof.Proofs
end

-- The interrupt output (60_exceptions.md R218)
section

namespace Sys2Proof.Proofs

open Sys2Proof.Machine

/-- Settles O23: the gate of `State.irq` is an OR of three ANDs, read one connective at a time. -/
theorem interruptOutput : Obligations.InterruptOutput := by
  intro s
  rw [State.irq, Bool.or_eq_true, Bool.or_eq_true, Bool.and_eq_true, Bool.and_eq_true, Bool.and_eq_true, or_assoc]

end Sys2Proof.Proofs
end

-- The opcode map (30_encoding.md R84-R86)
section

namespace Sys2Proof.Proofs

open Sys2Proof.Machine Sys2Proof.Laws

/-! ### One row for one OPC -/

theorem rows_distinct_opcodes : ∀ j k : Fin opcodeTable.length,
    opcodeTable[j].pattern.extractLsb' 0 8 = opcodeTable[k].pattern.extractLsb' 0 8 → j = k := by decide

/-- Settles O3: a row that selects a word has the word's OPC, and no two rows have one OPC. -/
theorem oneRowSelects : Obligations.OneRowSelects := fun _ j k hj hk =>
  rows_distinct_opcodes j k <|
    (opcode_eq_of_selects (List.getElem_mem _) hj).symm.trans (opcode_eq_of_selects (List.getElem_mem _) hk)

theorem eq_of_selects {r r' : OpcodeRow} {w : Word} (hr : r ∈ opcodeTable) (hr' : r' ∈ opcodeTable)
    (h : r.selects w = true) (h' : r'.selects w = true) : r = r' := by
  obtain ⟨j, hj, rfl⟩ := List.getElem_of_mem hr
  obtain ⟨k, hk, rfl⟩ := List.getElem_of_mem hr'
  have := oneRowSelects w ⟨j, hj⟩ ⟨k, hk⟩ h h'
  simp_all

theorem decode_eq_some_iff {w : Word} {i : Instr} :
    decode w = some i ↔ ∃ r ∈ opcodeTable, r.selects w = true ∧ r.build w = i := by
  rw [decode, Option.map_eq_some_iff]
  constructor
  · rintro ⟨r, hf, hb⟩
    exact ⟨r, List.mem_of_find?_eq_some hf, List.find?_some (p := fun r : OpcodeRow => r.selects w) hf, hb⟩
  · rintro ⟨r, hr, hs, hb⟩
    obtain ⟨r', hf⟩ := Option.isSome_iff_exists.mp (List.find?_isSome (p := fun r : OpcodeRow => r.selects w) |>.mpr ⟨r, hr, hs⟩)
    have hrr := eq_of_selects hr (List.mem_of_find?_eq_some hf) hs (List.find?_some (p := fun r : OpcodeRow => r.selects w) hf)
    exact ⟨r', hf, hrr ▸ hb⟩

/-! ### From a command to its word and back -/

theorem fixedBits (i : Instr) : FixedBits.Statement i := by
  cases i with
  | nop => exact FixedBits.nop
  | pqNew p => exact FixedBits.pqNew p
  | pqInsert tag => exact FixedBits.pqInsert tag
  | pqPeek => exact FixedBits.pqPeek
  | pqPop => exact FixedBits.pqPop
  | pqSize => exact FixedBits.pqSize
  | freqBuild => exact FixedBits.freqBuild
  | freqRead sym => exact FixedBits.freqRead sym
  | freqWrite sym => exact FixedBits.freqWrite sym
  | treeBuild => exact FixedBits.treeBuild
  | treeNode h => exact FixedBits.treeNode h
  | treeSerialize => exact FixedBits.treeSerialize
  | treeLoad => exact FixedBits.treeLoad
  | codeDerive => exact FixedBits.codeDerive
  | codeRead sym widx => exact FixedBits.codeRead sym widx
  | encode => exact FixedBits.encode
  | decode => exact FixedBits.decode

/-- The place in the opcode table of the row that stands for a command. -/
def rowIndex : Instr → Fin 17
  | .nop => 0
  | .pqNew _ => 1
  | .pqInsert _ => 2
  | .pqPeek => 3
  | .pqPop => 4
  | .pqSize => 5
  | .freqBuild => 6
  | .freqRead _ => 7
  | .freqWrite _ => 8
  | .treeBuild => 9
  | .treeNode _ => 10
  | .treeSerialize => 11
  | .treeLoad => 12
  | .codeDerive => 13
  | .codeRead _ _ => 14
  | .encode => 15
  | .decode => 16

def rowOf (i : Instr) : OpcodeRow := opcodeTable.get (rowIndex i)

theorem rowOf_mem (i : Instr) : rowOf i ∈ opcodeTable := List.get_mem opcodeTable (rowIndex i)

theorem rowOf_mask (i : Instr) : (rowOf i).mask = ~~~FixedBits.fieldBits i := by
  cases i with
  | pqNew p => exact (by decide : 0xFFFFFEFF#32 = ~~~0x00000100#32)
  | pqInsert tag => exact (by decide : 0x0000FFFF#32 = ~~~0xFFFF0000#32)
  | freqRead sym | freqWrite sym => exact (by decide : 0xFF00FFFF#32 = ~~~0x00FF0000#32)
  | treeNode h => exact (by decide : 0xFE00FFFF#32 = ~~~0x01FF0000#32)
  | codeRead sym widx => exact (by decide : 0xF800FFFF#32 = ~~~0x07FF0000#32)
  | nop | pqPeek | pqPop | pqSize | freqBuild | treeBuild | treeSerialize | treeLoad | codeDerive | encode | decode => decide

theorem rowOf_pattern (i : Instr) : (rowOf i).pattern = (FixedBits.opcodeOf i).setWidth 32 := by
  cases i <;> rfl

theorem rowOf_selects (i : Instr) : (rowOf i).selects (encode i) = true := by
  rw [OpcodeRow.selects, rowOf_mask, rowOf_pattern, (fixedBits i).1, beq_self_eq_true]

theorem symField_append (hi sym : Byte) (low : BitVec 16) : symField (hi ++ sym ++ low) = sym := by
  rw [symField, BitVec.extractLsb'_append_eq_of_le (by decide), BitVec.extractLsb'_append_eq_right]

theorem rowOf_build (i : Instr) : (rowOf i).build (encode i) = i := by
  cases i with
  | pqNew p => cases p <;> decide
  | pqInsert tag => exact congrArg Instr.pqInsert BitVec.extractLsb'_append_eq_left
  | freqRead sym => exact congrArg Instr.freqRead (symField_append _ _ _)
  | freqWrite sym => exact congrArg Instr.freqWrite (symField_append _ _ _)
  | treeNode h =>
    refine congrArg Instr.treeNode ?_
    rw [encode, handleField, BitVec.extractLsb'_append_eq_of_le (by decide), BitVec.extractLsb'_append_eq_right]
  | codeRead sym widx =>
    refine congrArg₂ Instr.codeRead (symField_append _ _ _) ?_
    rw [encode, widxField, BitVec.extractLsb'_append_eq_of_le (by decide), BitVec.extractLsb'_append_eq_of_le (by decide),
      BitVec.extractLsb'_append_eq_right]
  | nop | pqPeek | pqPop | pqSize | freqBuild | treeBuild | treeSerialize | treeLoad | codeDerive | encode | decode => rfl

/-- Settles O1: the command's own row selects its word and reads the fields back. -/
theorem decodeEncode : Obligations.DecodeEncode := fun i =>
  decode_eq_some_iff.mpr ⟨_, rowOf_mem i, rowOf_selects i, rowOf_build i⟩

/-! ### From a word to its command and back -/

/-- A field of a word, as the bits of the word under a mask. -/
theorem and_fieldMask (w : Word) (start n : Nat) :
    w &&& ((BitVec.allOnes n).setWidth 32 <<< start) = (w.extractLsb' start n).setWidth 32 <<< start := by
  refine BitVec.eq_of_getLsbD_eq fun b hb => ?_
  simp only [BitVec.getLsbD_and, BitVec.getLsbD_shiftLeft, BitVec.getLsbD_setWidth, BitVec.getLsbD_allOnes,
    BitVec.getLsbD_extractLsb', hb, decide_true, Bool.true_and]
  by_cases hs : b < start
  · simp [hs]
  · simp only [hs, Nat.add_sub_cancel' (Nat.le_of_not_lt hs)]
    rw [Bool.and_comm, Bool.and_assoc, Bool.and_assoc]

/-- A word that a row selects is the row's pattern with the bits the row leaves free. -/
theorem eq_pattern_or_of_selects {r : OpcodeRow} {w : Word} (h : r.selects w = true) :
    w = r.pattern ||| (w &&& ~~~r.mask) := by
  have hsel : w &&& r.mask = r.pattern := eq_of_beq h
  rw [← hsel, ← BitVec.and_or_distrib_left, BitVec.or_not_self, BitVec.and_allOnes]

/-- A row that fixes every bit frees none. -/
theorem pattern_eq_of_full_mask (p w : Word) : p = p ||| (w &&& ~~~0xFFFFFFFF#32) := by
  have hmask : ~~~0xFFFFFFFF#32 = 0#32 := by decide
  rw [hmask, BitVec.and_zero, BitVec.or_zero]

theorem encode_pqNew (p : Policy) : encode (.pqNew p) = 0x00000001#32 ||| (p.bit.setWidth 32 <<< 8) := by
  cases p <;> decide

theorem policyField_bit (w : Word) : (policyField w).bit = w.extractLsb' 8 1 := by
  refine BitVec.eq_of_getLsbD_eq fun b hb => ?_
  obtain rfl : b = 0 := by omega
  rw [policyField, BitVec.getLsbD_extractLsb']
  cases w.getLsbD 8 <;> rfl

theorem encode_treeNode (h : Handle) : encode (.treeNode h) = 0x00000021#32 ||| (h.setWidth 32 <<< 16) := by
  have hh : 0#7 ++ h = h.setWidth 16 := (BitVec.setWidth_eq_append (by decide)).symm
  rw [encode, hh, immediate_append, BitVec.setWidth_setWidth (by decide)]
  rfl

/-- The command of a row has the row's OPC, and in its fields the word's bits that the row leaves free (R80, R81, R84). -/
theorem encode_build (w : Word) : ∀ r ∈ opcodeTable, encode (r.build w) = r.pattern ||| (w &&& ~~~r.mask) := by
  have hpolicy : w &&& ~~~0xFFFFFEFF#32 = (policyField w).bit.setWidth 32 <<< 8 :=
    policyField_bit w ▸ and_fieldMask w 8 1
  have htag : w &&& ~~~0x0000FFFF#32 = (tagField w).setWidth 32 <<< 16 := and_fieldMask w 16 16
  have hsym : w &&& ~~~0xFF00FFFF#32 = (symField w).setWidth 32 <<< 16 := and_fieldMask w 16 8
  have hhandle : w &&& ~~~0xFE00FFFF#32 = (handleField w).setWidth 32 <<< 16 := and_fieldMask w 16 9
  have hcode : w &&& ~~~0xF800FFFF#32 =
      ((symField w).setWidth 32 <<< 16) ||| ((widxField w).setWidth 32 <<< 24) := by
    have hmask : ~~~0xF800FFFF#32 = ((BitVec.allOnes 8).setWidth 32 <<< 16) ||| ((BitVec.allOnes 3).setWidth 32 <<< 24) := by
      decide
    rw [hmask, BitVec.and_or_distrib_left, and_fieldMask, and_fieldMask, symField, widxField]
  simp only [opcodeTable, List.forall_mem_cons, hpolicy, htag, hsym, hhandle, hcode]
  exact ⟨pattern_eq_of_full_mask _ w, encode_pqNew _, immediate_append _ _, pattern_eq_of_full_mask _ w,
    pattern_eq_of_full_mask _ w, pattern_eq_of_full_mask _ w, pattern_eq_of_full_mask _ w, symbol_append _ _,
    symbol_append _ _, pattern_eq_of_full_mask _ w, encode_treeNode _, pattern_eq_of_full_mask _ w,
    pattern_eq_of_full_mask _ w, pattern_eq_of_full_mask _ w, (encode_codeRead _ _).trans (BitVec.or_assoc _ _ _),
    pattern_eq_of_full_mask _ w, pattern_eq_of_full_mask _ w, List.forall_mem_nil _⟩

/-- Settles O2: the word is its row's pattern with the bits the row leaves free, which are the command's fields. -/
theorem decodedWordIsEncoding : Obligations.DecodedWordIsEncoding := by
  intro w i h
  obtain ⟨r, hr, hsel, rfl⟩ := decode_eq_some_iff.mp h
  rw [encode_build w r hr, ← eq_pattern_or_of_selects hsel]

/-! ### Illegal words -/

/-- Whether the row with an OPC leaves a bit above OPC free (R80, R81). -/
def Frees (opc : BitVec 8) (b : Nat) : Prop :=
  (b = 8 ∧ opc = 0x01#8) ∨
    (16 ≤ b ∧ (opc = 0x02#8 ∨ ((opc = 0x11#8 ∨ opc = 0x12#8) ∧ b < 24) ∨ (opc = 0x21#8 ∧ b < 25) ∨ (opc = 0x31#8 ∧ b < 27)))

theorem mask_getLsbD_eq_false_iff : ∀ r ∈ opcodeTable, ∀ b : Fin 32, 8 ≤ b.val →
    (r.mask.getLsbD b = false ↔ Frees (r.pattern.extractLsb' 0 8) b) := by
  unfold Frees
  decide

/-- The OPCs of R84. -/
def opcodes : List (BitVec 8) := opcodeTable.map fun r => r.pattern.extractLsb' 0 8

/-- A row selects a word that has its OPC and sets no other bit but those the row leaves free. -/
theorem selects_iff {r : OpcodeRow} (hr : r ∈ opcodeTable) (w : Word) :
    r.selects w = true ↔ w.extractLsb' 0 8 = r.pattern.extractLsb' 0 8 ∧
      ∀ b : Fin 32, 8 ≤ b.val → w.getLsbD b = true → Frees (w.extractLsb' 0 8) b := by
  have hpat : ∀ r ∈ opcodeTable, ∀ b : Fin 32, 8 ≤ b.val → r.pattern.getLsbD b = false := by decide
  have hmask : ∀ r ∈ opcodeTable, ∀ b : Fin 32, b.val < 8 → r.mask.getLsbD b = true := by decide
  constructor
  · intro h
    have hopc := opcode_eq_of_selects hr h
    refine ⟨hopc, fun b hb hw => ?_⟩
    rw [hopc, ← mask_getLsbD_eq_false_iff r hr b hb]
    have hsel : w &&& r.mask = r.pattern := eq_of_beq h
    have := hpat r hr b hb
    rw [← hsel, BitVec.getLsbD_and, hw, Bool.true_and] at this
    exact this
  · rintro ⟨hopc, hfree⟩
    refine beq_iff_eq.mpr (BitVec.eq_of_getLsbD_eq fun b hb => ?_)
    rw [BitVec.getLsbD_and]
    by_cases h8 : b < 8
    · rw [hmask r hr ⟨b, hb⟩ h8, Bool.and_true]
      have := congrArg (·.getLsbD b) hopc
      simpa [h8] using this
    · have h8 : 8 ≤ b := Nat.le_of_not_lt h8
      rw [hpat r hr ⟨b, hb⟩ h8]
      cases hw : w.getLsbD b with
      | false => rfl
      | true => exact (Bool.true_and _).trans ((mask_getLsbD_eq_false_iff r hr ⟨b, hb⟩ h8).mpr (hopc ▸ hfree ⟨b, hb⟩ h8 hw))

theorem decode_eq_none_iff_bits (w : Word) : decode w = none ↔
    w.extractLsb' 0 8 ∉ opcodes ∨ ∃ b : Fin 32, 8 ≤ b.val ∧ w.getLsbD b = true ∧ ¬Frees (w.extractLsb' 0 8) b := by
  rw [decode_eq_none_iff]
  constructor
  · intro h
    by_contra hc
    push Not at hc
    obtain ⟨hopc, hfree⟩ := hc
    obtain ⟨r, hr, he⟩ := List.mem_map.mp hopc
    exact Bool.false_ne_true ((h r hr).symm.trans ((selects_iff hr w).mpr ⟨he.symm, hfree⟩))
  · intro h r hr
    refine Bool.eq_false_of_not_eq_true fun hsel => ?_
    obtain ⟨hopc, hfree⟩ := (selects_iff hr w).mp hsel
    obtain h | ⟨b, hb, hw, hn⟩ := h
    · exact h (List.mem_map.mpr ⟨r, hr, hopc.symm⟩)
    · exact hn (hfree b hb hw)

theorem extractLsb'_ne_zero_iff (w : Word) (start n : Nat) :
    w.extractLsb' start n ≠ 0#n ↔ ∃ b, start ≤ b ∧ b < start + n ∧ w.getLsbD b = true := by
  rw [← not_iff_not, not_not]
  constructor
  · rintro h ⟨b, hs, hb, hw⟩
    have := congrArg (·.getLsbD (b - start)) h
    simp only [BitVec.getLsbD_extractLsb', BitVec.getLsbD_zero, Nat.add_sub_cancel' hs, hw, Bool.and_true,
      decide_eq_false_iff_not] at this
    omega
  · intro h
    refine BitVec.eq_of_getLsbD_eq fun b hb => ?_
    rw [BitVec.getLsbD_extractLsb', BitVec.getLsbD_zero, Bool.and_eq_false_imp]
    exact fun _ => Bool.eq_false_of_not_eq_true fun hw => h ⟨start + b, by omega, by omega, hw⟩

/-- Settles O4: the bits above OPC are P, the reserved bits [15:9] and IMM16. -/
theorem illegalWords : Obligations.IllegalWords := by
  intro w
  refine (decode_eq_none_iff_bits w).trans (or_congr Iff.rfl ?_)
  rw [extractLsb'_ne_zero_iff]
  constructor
  · rintro ⟨b, hb, hw, hn⟩
    simp only [Frees, not_or, not_and] at hn
    obtain h | h | h : b.val = 8 ∨ (9 ≤ b.val ∧ b.val < 16) ∨ 16 ≤ b.val := by omega
    · exact .inl ⟨h ▸ hw, hn.1 h⟩
    · exact .inr (.inl ⟨b, h.1, h.2, hw⟩)
    · exact .inr (.inr ⟨b, h, b.isLt, hw, by simpa only [not_or, not_and] using hn.2 h⟩)
  · rintro (⟨hw, h⟩ | ⟨b, h9, h16, hw⟩ | ⟨b, h16, h32, hw, h⟩)
    · exact ⟨8, le_rfl, hw, by simp [Frees, h]⟩
    · exact ⟨⟨b, by omega⟩, by simp only; omega, hw, by simp only [Frees]; omega⟩
    · exact ⟨⟨b, h32⟩, by simp only; omega, hw, fun hf => hf.elim (fun h8 => by simp only at h8; omega) fun hi => h hi.2⟩

/-- Settles O5: each word by computing the table's answer. -/
theorem patternWords : Obligations.PatternWords := by
  unfold Obligations.PatternWords
  decide

end Sys2Proof.Proofs
end

-- What a command can do (40_host_protocol.md R109, 60_exceptions.md R213)
section

namespace Sys2Proof.Proofs

open Sys2Proof.Machine

/-! ### Every error has a code (R211) -/

/-- Whatever a command's rule raises has a nonzero ERRCODE. -/
def RaisesCode {α : Type} (r : Result α) : Prop := ∀ e, r = .error e → e.code ≠ .ok

theorem raisesCode_ok {α : Type} (a : α) : RaisesCode (.ok a : Result α) := fun _ h => nomatch h

theorem raisesCode_error {α : Type} {e : Raise} (h : e.code ≠ .ok) : RaisesCode (.error e : Result α) := by
  rintro _ ⟨⟩
  exact h

theorem RaisesCode.of_error {α β : Type} {r : Result α} (h : RaisesCode r) {e : Raise} (he : r = .error e) :
    RaisesCode (.error e : Result β) := raisesCode_error (h e he)

theorem checkRange_raisesCode (s : State) (a n : Nat) : RaisesCode (s.checkRange a n) := by
  unfold State.checkRange
  split
  · exact raisesCode_ok _
  · exact raisesCode_error nofun

theorem checkOverlap_raisesCode (src n dst m : Nat) : RaisesCode (checkOverlap src n dst m) := by
  unfold checkOverlap
  split
  · exact raisesCode_error nofun
  · exact raisesCode_ok _

theorem requireTree_raisesCode (s : State) : RaisesCode s.requireTree := by
  unfold State.requireTree
  split
  · exact raisesCode_error nofun
  all_goals exact raisesCode_ok _

theorem requireCodes_raisesCode (s : State) : RaisesCode s.requireCodes := by
  unfold State.requireCodes
  split
  · exact raisesCode_ok _
  · exact raisesCode_error nofun

theorem parseNode_error_code {d : Nat → Byte} {m turns : Nat} {st : ParseState} {e : Raise}
    (h : parseNode d m turns st = .error e) : e.code = .descMalformed := by
  induction turns generalizing st e with
  | zero => cases h; rfl
  | succ turns ih =>
    rw [parseNode] at h
    split at h
    · cases h; rfl
    · split at h
      · cases h; rfl
      · split at h
        · split at h
          · next he => cases h; exact ih he
          · split at h
            · next he => cases h; exact ih he
            · cases h
        · split at h
          · simp only at h
            split at h
            · cases h; rfl
            · split at h <;> cases h
              rfl
          · cases h; rfl

theorem loadTree_error_code {d : Nat → Byte} {m : Nat} {e : Raise} (h : loadTree d m = .error e) :
    e.code = .descMalformed := by
  rw [loadTree] at h
  split at h
  · cases h
  · split at h
    · next he => cases h; exact parseNode_error_code he
    · split at h <;> cases h
      rfl

theorem encodeScan_raisesCode (c : CodeTable) (input : Nat → Byte) (count i total : Nat) :
    RaisesCode (encodeScan c input count i total) := by
  induction count generalizing i total with
  | zero => exact raisesCode_ok _
  | succ count ih =>
    simp only [encodeScan]
    split
    · exact raisesCode_error nofun
    · split
      · exact raisesCode_error nofun
      · split
        · next he => exact (ih _ _).of_error he
        · exact raisesCode_ok _

theorem decodeBit_error_code {t : Tree} {k : Nat} {b : Bool} {w : DecodeWalk} {e : Raise}
    (h : decodeBit t k b w = .error e) : e.code = .corruptTree := by
  unfold decodeBit at h
  split at h
  · cases h; rfl
  · cases h; rfl
  · split at h <;> cases h
    rfl
  · split at h
    · cases h; rfl
    · split at h <;> cases h

theorem decodeScan_error_code {t : Tree} {stream : Nat → Bool} {count k : Nat} {w : DecodeWalk} {e : Raise}
    (h : decodeScan t stream count k w = .error e) : e.code = .corruptTree := by
  induction count generalizing k w with
  | zero => cases h
  | succ count ih =>
    rw [decodeScan] at h
    split at h
    · next he => cases h; exact decodeBit_error_code he
    · exact ih h

theorem decodeSymbols_raisesCode (t : Tree) (stream : Nat → Bool) (bc : Nat) : RaisesCode (decodeSymbols t stream bc) := by
  unfold decodeSymbols
  split
  · next he => exact raisesCode_error (by rw [decodeScan_error_code he]; decide)
  · split
    · exact raisesCode_error nofun
    · exact raisesCode_ok _

theorem serializeStore_raisesCode (s : State) : RaisesCode s.serializeStore := by
  unfold State.serializeStore
  split
  · next he => exact (requireTree_raisesCode s).of_error he
  · simp only
    split
    · next he => exact (checkRange_raisesCode _ _ _).of_error he
    · exact raisesCode_ok _

theorem encodeStore_raisesCode (s : State) : RaisesCode s.encodeStore := by
  unfold State.encodeStore
  split
  · next he => exact (requireCodes_raisesCode s).of_error he
  · split
    · next he => exact (checkRange_raisesCode _ _ _).of_error he
    · split
      · next he => exact (encodeScan_raisesCode _ _ _ _ _).of_error he
      · simp only
        split
        · next he => exact (checkRange_raisesCode _ _ _).of_error he
        · split
          · next he => exact (checkOverlap_raisesCode _ _ _ _).of_error he
          · exact raisesCode_ok _

theorem decodeStore_raisesCode (s : State) : RaisesCode s.decodeStore := by
  unfold State.decodeStore
  split
  · next he => exact (requireTree_raisesCode s).of_error he
  · split
    · next he => exact (checkRange_raisesCode _ _ _).of_error he
    · split
      · next he => exact (decodeSymbols_raisesCode _ _ _).of_error he
      · split
        · next he => exact (checkRange_raisesCode _ _ _).of_error he
        · split
          · next he => exact (checkOverlap_raisesCode _ _ _ _).of_error he
          · exact raisesCode_ok _

/-! ### What each command may write -/

/-- The parts of the state, RES apart, that a command's rule may write (R34, R44, R45, R46, R49, R61). -/
def writesOf : Instr → List Part
  | .pqNew _ | .pqInsert _ | .pqPop => [.queue]
  | .freqBuild | .freqWrite _ => [.freq]
  | .treeBuild => [.queue, .tree, .codes]
  | .treeLoad => [.tree, .codes]
  | .codeDerive => [.codes]
  | .treeSerialize | .encode | .decode => [.dmem]
  | .nop | .pqPeek | .pqSize | .freqRead _ | .treeNode _ | .codeRead _ _ => []

/-- A rule's writes reach no part outside the list, RES apart, and none of what R109 keeps. -/
structure WritesOnly (s u : State) (parts : List Part) : Prop where
  rest : SameRest s u
  freq : .freq ∉ parts → u.freq = s.freq
  queue : .queue ∉ parts → u.queue = s.queue
  tree : .tree ∉ parts → u.tree = s.tree
  codes : .codes ∉ parts → u.codes = s.codes
  dmem : .dmem ∉ parts → u.dmem = s.dmem

/-- A rule, evaluated: it writes only these parts, or raises an error with a code. -/
structure Confined (s : State) (parts : List Part) (r : Result State) : Prop where
  writes : ∀ u, r = .ok u → WritesOnly s u parts
  raises : RaisesCode r

theorem confined_ok {s u : State} {parts : List Part} (h : WritesOnly s u parts) : Confined s parts (.ok u) where
  writes := by rintro _ ⟨⟩; exact h
  raises := raisesCode_ok u

theorem confined_error {s : State} {parts : List Part} {e : Raise} (h : e.code ≠ .ok) : Confined s parts (.error e) where
  writes _ he := nomatch he
  raises := raisesCode_error h

theorem RaisesCode.confined {α : Type} {r : Result α} (h : RaisesCode r) {s : State} {parts : List Part} {e : Raise}
    (he : r = .error e) : Confined s parts (.error e) := confined_error (h e he)

/-- The rule of every command is confined to the command's parts (R109, R213). -/
theorem exec_eq_finish_confined (i : Instr) (s : State) : ∃ r, exec i s = finish s r ∧ Confined s (writesOf i) r := by
  cases i <;>
    simp only [exec, execNop, execPqNew, execPqInsert, execPqPeek, execPqPop, execPqSize, execFreqBuild, execFreqRead,
      execFreqWrite, execTreeBuild, execTreeNode, execTreeSerialize, execTreeLoad, execCodeDerive, execCodeRead, execEncode,
      execDecode] <;>
    refine ⟨_, rfl, ?_⟩
  case pqInsert =>
    split
    · exact confined_error nofun
    · exact confined_ok ⟨by constructor <;> rfl, by simp, by simp [writesOf], by simp, by simp, by simp⟩
  case pqPop =>
    split <;> exact confined_ok ⟨by constructor <;> rfl, by simp, by simp [writesOf], by simp, by simp, by simp⟩
  case freqBuild =>
    split
    · next he => exact (checkRange_raisesCode _ _ _).confined he
    · exact confined_ok ⟨by constructor <;> rfl, by simp [writesOf], by simp, by simp, by simp, by simp⟩
  case treeNode =>
    split
    · exact confined_error nofun
    · exact confined_ok ⟨by constructor <;> rfl, by simp, by simp, by simp, by simp, by simp⟩
  case treeSerialize =>
    split
    · next he => exact (serializeStore_raisesCode s).confined he
    · exact confined_ok ⟨by constructor <;> rfl, by simp, by simp, by simp, by simp, by simp [writesOf]⟩
  case treeLoad =>
    split
    · next he => exact (checkRange_raisesCode _ _ _).confined he
    · split
      · next he => exact confined_error (by rw [loadTree_error_code he]; decide)
      · exact confined_ok ⟨by constructor <;> rfl, by simp, by simp, by simp [writesOf], by simp [writesOf], by simp⟩
  case codeDerive =>
    split
    · next he => exact (requireTree_raisesCode s).confined he
    · exact confined_ok ⟨by constructor <;> rfl, by simp, by simp, by simp, by simp [writesOf], by simp⟩
  case codeRead =>
    split
    · next he => exact (requireCodes_raisesCode s).confined he
    · exact confined_ok ⟨by constructor <;> rfl, by simp, by simp, by simp, by simp, by simp⟩
  case encode =>
    split
    · next he => exact (encodeStore_raisesCode s).confined he
    · exact confined_ok ⟨by constructor <;> rfl, by simp, by simp, by simp, by simp, by simp [writesOf]⟩
  case decode =>
    split
    · next he => exact (decodeStore_raisesCode s).confined he
    · exact confined_ok ⟨by constructor <;> rfl, by simp, by simp, by simp, by simp, by simp [writesOf]⟩
  all_goals exact confined_ok ⟨by constructor <;> rfl, by simp [writesOf], by simp [writesOf], by simp [writesOf],
    by simp [writesOf], by simp [writesOf]⟩

/-- What the state after a command can be: the completion of confined writes, or the error completion with a code. -/
inductive ExecTo (i : Instr) (s : State) : State → Prop where
  | completes {u : State} (h : WritesOnly s u (writesOf i)) : ExecTo i s u.complete
  | fails {e : Raise} (h : e.code ≠ .ok) : ExecTo i s (s.fail e)

theorem exists_execTo (i : Instr) (s : State) : ∃ t, exec i s = .next t ∧ ExecTo i s t := by
  obtain ⟨r, he, hr⟩ := exec_eq_finish_confined i s
  cases r with
  | ok u => exact ⟨_, he, .completes (hr.writes u rfl)⟩
  | error e => exact ⟨_, he, .fails (hr.raises e rfl)⟩

theorem execTo_of_exec {i : Instr} {s t : State} (h : exec i s = .next t) : ExecTo i s t := by
  obtain ⟨t', h', ht⟩ := exists_execTo i s
  obtain rfl : t = t' := by simpa [h] using h'
  exact ht

/-- Settles O8: both kinds of completion are among what a command can do. -/
theorem everyCommandCompletes : Obligations.EveryCommandCompletes := by
  intro i s
  obtain ⟨t, he, ht⟩ := exists_execTo i s
  refine ⟨t, he, ?_⟩
  cases ht with
  | completes h => exact .inl h.rest.completed
  | fails h => exact .inr ⟨_, h, fail_failed s _⟩

/-- A part that a command's rule may not write is kept, in both completions. -/
theorem ExecTo.keeps {i : Instr} {s t : State} (h : ExecTo i s t) :
    (.freq ∉ writesOf i → t.freq = s.freq) ∧ (.queue ∉ writesOf i → t.queue = s.queue) ∧
      (.tree ∉ writesOf i → t.tree = s.tree) ∧ (.codes ∉ writesOf i → t.codes = s.codes) ∧
      (.dmem ∉ writesOf i → t.dmem = s.dmem) := by
  cases h with
  | completes h => exact ⟨h.freq, h.queue, h.tree, h.codes, h.dmem⟩
  | fails => exact ⟨fun _ => rfl, fun _ => rfl, fun _ => rfl, fun _ => rfl, fun _ => rfl⟩

theorem ExecTo.res_of_error {i : Instr} {s t : State} (h : ExecTo i s t) (he : t.status.errCode ≠ .ok) : t.res = s.res := by
  cases h with
  | completes => exact absurd rfl he
  | fails => rfl

theorem freq_mem_writesOf {i : Instr} (h : .freq ∈ writesOf i) : (∃ b, i = .freqWrite b) ∨ i = .freqBuild := by
  cases i <;> simp_all [writesOf]

theorem queue_mem_writesOf {i : Instr} (h : .queue ∈ writesOf i) :
    (∃ p, i = .pqNew p) ∨ (∃ tag, i = .pqInsert tag) ∨ i = .pqPop ∨ i = .treeBuild := by
  cases i <;> simp_all [writesOf]

theorem tree_mem_writesOf {i : Instr} (h : .tree ∈ writesOf i) : i = .treeBuild ∨ i = .treeLoad := by
  cases i <;> simp_all [writesOf]

theorem codes_mem_writesOf {i : Instr} (h : .codes ∈ writesOf i) : i = .treeBuild ∨ i = .treeLoad ∨ i = .codeDerive := by
  cases i <;> simp_all [writesOf]

theorem dmem_mem_writesOf {i : Instr} (h : .dmem ∈ writesOf i) : i = .treeSerialize ∨ i = .encode ∨ i = .decode := by
  cases i <;> simp_all [writesOf]

/-- Settles O10: each clause leaves out the commands that may write its part. -/
theorem onlyTheseCommandsWrite : Obligations.OnlyTheseCommandsWrite := by
  intro i s t he
  have ht := execTo_of_exec he
  obtain ⟨hfreq, hqueue, htree, hcodes, hdmem⟩ := ht.keeps
  refine ⟨fun h₁ h₂ => hfreq fun hm => ?_, fun h₁ h₂ h₃ h₄ => hqueue fun hm => ?_,
    fun h₁ h₂ => ⟨htree fun hm => ?_, fun h₃ => hcodes fun hm => ?_⟩,
    fun h₁ h₂ h₃ => sameBytes_of_dmem (hdmem fun hm => ?_), ht.res_of_error⟩
  · obtain ⟨b, h⟩ | h := freq_mem_writesOf hm
    · exact h₁ b h
    · exact h₂ h
  · obtain ⟨p, h⟩ | ⟨tag, h⟩ | h | h := queue_mem_writesOf hm
    · exact h₁ p h
    · exact h₂ tag h
    · exact h₃ h
    · exact h₄ h
  · exact (tree_mem_writesOf hm).elim h₁ h₂
  · exact (codes_mem_writesOf hm).elim h₁ fun h => h.elim h₂ h₃
  · exact (dmem_mem_writesOf hm).elim h₁ fun h => h.elim h₂ h₃

/-! ### What a command stores -/

theorem toOption_eq_some {α : Type} {r : Result α} {a : α} (h : r.toOption = some a) : r = .ok a := by
  cases r with
  | ok b => exact congrArg _ (Option.some.inj h)
  | error e => cases h

theorem toOption_eq_none {α : Type} {r : Result α} (h : r.toOption = none) : ∃ e, r = .error e := by
  cases r with
  | ok b => cases h
  | error e => exact ⟨e, rfl⟩

theorem exec_treeSerialize_of_store {s : State} {st : Store} (h : s.serializeStore = .ok st) :
    exec .treeSerialize s = .next ((s.memWrite st).setRes 0 (BitVec.ofNat 32 st.bytes.length)).complete := by
  rw [exec, execTreeSerialize, h]
  rfl

theorem exec_treeSerialize_of_error {s : State} {e : Raise} (h : s.serializeStore = .error e) :
    exec .treeSerialize s = finish s (.error e) := by
  rw [exec, execTreeSerialize, h]

/-- What ENCODE leaves (R191): the bytes, the bit_count and the number of bytes. -/
def encoded (s : State) (total : Nat) (st : Store) : State :=
  shownPair (s.memWrite st) (BitVec.ofNat 32 total) (BitVec.ofNat 32 st.bytes.length)

theorem exec_encode_of_store {s : State} {total : Nat} {st : Store} (h : s.encodeStore = .ok (total, st)) :
    exec .encode s = .next (encoded s total st) := by
  rw [exec, execEncode, h]
  rfl

theorem exec_encode_of_error {s : State} {e : Raise} (h : s.encodeStore = .error e) :
    exec .encode s = finish s (.error e) := by
  rw [exec, execEncode, h]

/-- What DECODE leaves (R192): the symbols and their number. -/
def decoded (s : State) (st : Store) : State :=
  ((s.memWrite st).setRes 0 (BitVec.ofNat 32 st.bytes.length)).complete

theorem exec_decode_of_store {s : State} {st : Store} (h : s.decodeStore = .ok st) :
    exec .decode s = .next (decoded s st) := by
  rw [exec, execDecode, h]
  rfl

theorem exec_decode_of_error {s : State} {e : Raise} (h : s.decodeStore = .error e) :
    exec .decode s = finish s (.error e) := by
  rw [exec, execDecode, h]

/-- A command that has a write set completes with exactly its bytes stored (R241). -/
theorem exec_of_storeOf {i : Instr} {s : State} {st : Store} (h : s.storeOf i = some st) :
    ∃ t, exec i s = .next t ∧ t.dmem = (s.memWrite st).dmem ∧ Completed s t := by
  cases i with
  | treeSerialize =>
    exact ⟨_, exec_treeSerialize_of_store (toOption_eq_some h), rfl, SameRest.completed (by constructor <;> rfl)⟩
  | encode =>
    obtain ⟨⟨total, st⟩, hs, rfl⟩ := Option.map_eq_some_iff.mp h
    exact ⟨_, exec_encode_of_store (toOption_eq_some hs), rfl, SameRest.completed (by constructor <;> rfl)⟩
  | decode =>
    exact ⟨_, exec_decode_of_store (toOption_eq_some h), rfl, SameRest.completed (by constructor <;> rfl)⟩
  | nop | pqNew | pqInsert | pqPeek | pqPop | pqSize | freqBuild | freqRead | freqWrite | treeBuild | treeNode | treeLoad
  | codeDerive | codeRead => cases h

/-- A command that has none stores nothing. -/
theorem dmem_of_storeOf_none {i : Instr} {s t : State} (h : s.storeOf i = none) (he : exec i s = .next t) :
    t.dmem = s.dmem := by
  have keeps := (execTo_of_exec he).keeps.2.2.2.2
  by_cases hm : .dmem ∈ writesOf i
  · obtain rfl | rfl | rfl := dmem_mem_writesOf hm
    · obtain ⟨e, hs⟩ := toOption_eq_none h
      cases (exec_treeSerialize_of_error hs).symm.trans he
      rfl
    · obtain ⟨e, hs⟩ := toOption_eq_none (Option.map_eq_none_iff.mp h)
      cases (exec_encode_of_error hs).symm.trans he
      rfl
    · obtain ⟨e, hs⟩ := toOption_eq_none h
      cases (exec_decode_of_error hs).symm.trans he
      rfl
  · exact keeps hm

/-- Settles O26: a write set is stored on completion, and without one DMEM is kept. -/
theorem writeSetIsWhatIsStored : Obligations.WriteSetIsWhatIsStored := by
  refine fun i s => ⟨fun st h => ?_, fun h => ?_⟩
  · obtain ⟨t, he, hd, hc⟩ := exec_of_storeOf h
    have hread (a : Nat) : t.memRead a = (s.memWrite st).memRead a := State.memRead_congr hd a
    refine ⟨t, he, hc, fun k hk => ?_, fun a ha => ?_⟩
    · rw [hread]
      exact s.holdsBytes_memWrite st k hk
    · rw [hread]
      exact s.sameBytesOutside_memWrite st a ha
  · obtain ⟨t, he, -⟩ := exists_execTo i s
    exact ⟨t, he, sameBytes_of_dmem (dmem_of_storeOf_none h he)⟩

/-- A write set is a valid range (R62). -/
theorem rangeOk_of_storeOf {i : Instr} {s : State} {st : Store} (h : s.storeOf i = some st) :
    s.RangeOk st.base st.bytes.length := by
  cases i with
  | treeSerialize =>
    obtain ⟨-, rfl, hr⟩ := serializeStore_sound (toOption_eq_some h)
    exact hr
  | encode =>
    obtain ⟨⟨total, st⟩, hs, rfl⟩ := Option.map_eq_some_iff.mp h
    obtain ⟨-, -, bits, -, -, rfl, hr, -⟩ := encodeStore_sound (toOption_eq_some hs)
    rw [length_packBits]
    exact hr
  | decode =>
    obtain ⟨-, -, -, hb, hr, -⟩ := decodeStore_sound (toOption_eq_some h)
    rwa [hb]
  | nop | pqNew | pqInsert | pqPeek | pqPop | pqSize | freqBuild | freqRead | freqWrite | treeBuild | treeNode | treeLoad
  | codeDerive | codeRead => cases h

end Sys2Proof.Proofs
end

-- The steps of the block (40_host_protocol.md R100)
section

namespace Sys2Proof.Proofs

open Sys2Proof.Machine

/-! ### The engine's turn -/

theorem engineTurn_of_decode {s : State} {i : Instr} (hb : s.status.busy = true) (hd : decode s.lcmd = some i) :
    engineTurn s = exec i s := by
  rw [engineTurn, hb, if_pos rfl, hd]

theorem engineTurn_of_illegal {s : State} (hb : s.status.busy = true) (hd : decode s.lcmd = none) :
    engineTurn s = .next (s.fail { code := .illegalCmd, info0 := s.lcmd, info1 := 0#32 }) := by
  rw [engineTurn, hb, if_pos rfl, hd]
  rfl

theorem engineTurn_of_idle {s : State} (hb : s.status.busy = false) : engineTurn s = .next s := by
  rw [engineTurn, hb]
  rfl

theorem step_of_no_inputs {s : State} (h : s.inputs = []) : step s = engineTurn s := by
  rw [step, takeTurn, h]

theorem step_of_engine {s : State} {rest : List Input} (h : s.inputs = .engine :: rest) :
    step s = engineTurn { s with inputs := rest } := by
  rw [step, takeTurn, h]
  rfl

/-- Settles O6: the turn is `engineTurn`, whichever way it comes. -/
theorem stepRunsLatchedCommand : Obligations.StepRunsLatchedCommand := by
  refine fun s hb => ⟨fun i hd => ⟨fun h => ?_, fun rest h => ?_⟩, fun hd => ⟨fun h => ?_, fun rest h => ?_⟩⟩
  · rw [step_of_no_inputs h, engineTurn_of_decode hb hd]
  · rw [step_of_engine h]
    exact engineTurn_of_decode (s := { s with inputs := rest }) hb hd
  · rw [step_of_no_inputs h, engineTurn_of_illegal hb hd]
    exact ⟨_, rfl, fail_failed s _⟩
  · rw [step_of_engine h, engineTurn_of_illegal (s := { s with inputs := rest }) hb hd]
    exact ⟨_, rfl, fail_failed { s with inputs := rest } _⟩

/-- Settles O7: the placed word is latched with BUSY = 1, and the engine's entry comes first. -/
theorem placedWordRunsNext : Obligations.PlacedWordRunsNext := by
  intro s nbits w i h
  have hd : decode (tableWord nbits w) = some i := by
    rw [decodeTableWord] at h
    split at h
    · exact h
    · cases h
  exact (step_of_engine rfl).trans (engineTurn_of_decode (s := s.accept (tableWord nbits w)) rfl hd)

theorem exec_completes {i : Instr} {s t : State} (h : exec i s = .next t) :
    t.status.busy = false ∧ t.status.done = true ∧ t.inputs = s.inputs ∧ t.replies = s.replies := by
  cases execTo_of_exec h with
  | completes hw => exact ⟨rfl, rfl, hw.rest.inputs, hw.rest.replies⟩
  | fails => exact ⟨rfl, rfl, rfl, rfl⟩

/-- An accepted command, legal or not, ends in the engine's turn. -/
theorem engineTurn_completes {s : State} (hb : s.status.busy = true) :
    ∃ t, engineTurn s = .next t ∧ t.status.busy = false ∧ t.status.done = true ∧ t.inputs = s.inputs ∧
      t.replies = s.replies := by
  cases hd : decode s.lcmd with
  | none => exact ⟨_, engineTurn_of_illegal hb hd, rfl, rfl, rfl, rfl⟩
  | some i =>
    obtain ⟨t, he, -⟩ := exists_execTo i s
    exact ⟨t, (engineTurn_of_decode hb hd).trans he, exec_completes he⟩

/-- Settles O9: a busy engine completes, an idle one does nothing. -/
theorem acceptedCommandCompletes : Obligations.AcceptedCommandCompletes := by
  refine fun s => ⟨fun h => ?_, fun rest h => ?_⟩
  · rw [step_of_no_inputs h]
    refine ⟨fun hb => ?_, engineTurn_of_idle⟩
    obtain ⟨t, he, hbusy, hdone, hin, -⟩ := engineTurn_completes hb
    exact ⟨t, he, hbusy, hdone, hin.trans h⟩
  · rw [step_of_engine h]
    refine ⟨fun hb => ?_, engineTurn_of_idle (s := { s with inputs := rest })⟩
    obtain ⟨t, he, hbusy, hdone, hin, -⟩ := engineTurn_completes (s := { s with inputs := rest }) hb
    exact ⟨t, he, hbusy, hdone, hin⟩

/-! ### Waiting (30_encoding.md R90) -/

/-- What a read of STATUS in `wait` leaves, with what the environment does next. -/
def polled (s : State) (inputs : List Input) : State :=
  { s with inputs := inputs, replies := .reg 0x08 s.statusWord :: s.replies }

theorem step_of_waitIdle {s : State} {later : Nat} {rest : List Input} (h : s.inputs = .waitIdle later :: rest) :
    step s = hostWait later (s.withInputs rest) := by
  rw [step, takeTurn, h]

theorem step_of_waitIdle_idle {s : State} {later : Nat} {rest : List Input} (h : s.inputs = .waitIdle later :: rest)
    (hb : s.status.busy = false) : step s = .next (polled s rest) :=
  (step_of_waitIdle h).trans (hostWait_idle later (s := s.withInputs rest) hb)

theorem step_of_waitIdle_zero {s : State} {rest : List Input} (h : s.inputs = .waitIdle 0 :: rest)
    (hb : s.status.busy = true) : step s = .next (polled s (.engine :: .waitIdle 0 :: rest)) :=
  (step_of_waitIdle h).trans (hostWait_busy 0 (s := s.withInputs rest) hb)

theorem step_of_waitIdle_succ {s : State} {later : Nat} {rest : List Input} (h : s.inputs = .waitIdle (later + 1) :: rest)
    (hb : s.status.busy = true) : step s = .next (polled s (.waitIdle later :: rest)) :=
  (step_of_waitIdle h).trans (hostWait_busy (later + 1) (s := s.withInputs rest) hb)

theorem run_succ_of_step {M : Host.Core} {s t : M.State} (h : M.step s = .next t) (k : Nat) :
    M.run (k + 1) s = M.run k t := by
  rw [Host.Core.run, h]

theorem core_run_succ {s t : State} (h : step s = .next t) (k : Nat) :
    Sys2Proof.core.run (k + 1) s = Sys2Proof.core.run k t :=
  run_succ_of_step (M := Sys2Proof.core) (s := s) (t := t) h k

/-- Each read of the busy STATUS leaves the loop one turn shorter; the last leaves the engine's turn and one more read. -/
theorem run_waitIdle_busy (later : Nat) {s : State} {rest : List Input} (h : s.inputs = .waitIdle later :: rest)
    (hb : s.status.busy = true) :
    ∃ t, Sys2Proof.core.run (later + 3) s = .next t ∧ t.inputs = rest ∧ t.status.busy = false ∧ t.status.done = true ∧
      t.replies = .reg 0x08 t.statusWord :: (List.replicate (later + 1) (.reg 0x08 s.statusWord) ++ s.replies) := by
  induction later generalizing s with
  | zero =>
    obtain ⟨u, he, hbusy, hdone, hin, hrep⟩ := engineTurn_completes (s := polled s (.waitIdle 0 :: rest)) hb
    have hengine : step (polled s (.engine :: .waitIdle 0 :: rest)) = .next u := (step_of_engine rfl).trans he
    exact ⟨polled u rest,
      (core_run_succ (step_of_waitIdle_zero h hb) 2).trans <| (core_run_succ hengine 1).trans <|
        core_run_succ (step_of_waitIdle_idle hin hbusy) 0,
      rfl, hbusy, hdone, congrArg (_ :: ·) hrep⟩
  | succ later ih =>
    obtain ⟨t, hrun, hin, hbusy, hdone, hrep⟩ := ih (s := polled s (.waitIdle later :: rest)) rfl hb
    refine ⟨t, (core_run_succ (step_of_waitIdle_succ h hb) _).trans hrun, hin, hbusy, hdone, hrep.trans ?_⟩
    rw [List.replicate_succ' (n := later + 1), List.append_assoc]
    rfl

/-- Settles O60: an idle STATUS ends the loop at once, a busy one by the reads before the engine's turn. -/
theorem waitReadsUntilIdle : Obligations.WaitReadsUntilIdle :=
  fun _ later _ h => ⟨step_of_waitIdle_idle h, run_waitIdle_busy later h⟩

/-! ### What a step can do -/

/-- The state with the input that names the step used up. -/
def afterInput (s : State) : State := s.withInputs s.inputs.tail

/-- The engine's turn is next. -/
def EngineNext (s : State) : Prop := s.inputs = [] ∨ ∃ rest, s.inputs = .engine :: rest

/-- A reset of either kind is next (R240, R107). -/
def ResetNext (s : State) : Prop :=
  (∃ rest, s.inputs = .reset :: rest) ∨ ∃ v rest, s.inputs = .regWrite 0x04 4 v :: rest ∧ v.getLsbD 0 = true

/-- The next states a step can answer. -/
inductive StepTo (s : State) : State → Prop where
  | executes {t : State} {i : Instr} (turn : EngineNext s) (busy : s.status.busy = true) (hd : decode s.lcmd = some i)
      (he : exec i (afterInput s) = .next t) : StepTo s t
  | illegal (turn : EngineNext s) (busy : s.status.busy = true) (hd : decode s.lcmd = none) :
      StepTo s ((afterInput s).fail { code := .illegalCmd, info0 := s.lcmd, info1 := 0#32 })
  | resets (h : ResetNext s) : StepTo s (afterInput s).resetBlock
  | clearsFlags {v : Word} {rest : List Input} (h : s.inputs = .regWrite 0x08 4 v :: rest) :
      StepTo s ((afterInput s).writeStatus v)
  | accepts {v : Word} {rest : List Input} (h : s.inputs = .regWrite 0x10 4 v :: rest) (idle : s.status.busy = false) :
      StepTo s ((afterInput s).accept v)
  | overruns {v : Word} {rest : List Input} (h : s.inputs = .regWrite 0x10 4 v :: rest) (busy : s.status.busy = true) :
      StepTo s (afterInput s).overrun
  | storesByte {a : Nat} {b : Byte} {rest : List Input} (h : s.inputs = .dmemWrite a b :: rest) (ha : a < s.dmemBytes)
      (idle : s.status.busy = false) : StepTo s ((afterInput s).memWrite { base := a, bytes := [b] })
  | quiet (arg : Vector Word 4) (irqEn : BitVec 3) (inputs : List Input) (replies : List Reply) :
      StepTo s { s with arg := arg, irqEn := irqEn, inputs := inputs, replies := replies }

theorem afterInput_cons {s : State} {x : Input} {rest : List Input} (h : s.inputs = x :: rest) :
    afterInput s = s.withInputs rest := by
  rw [afterInput, h, List.tail_cons]

theorem stepTo_of_engineTurn {s t : State} (turn : EngineNext s) (h : engineTurn (afterInput s) = .next t) : StepTo s t := by
  cases hb : s.status.busy with
  | false =>
    cases (engineTurn_of_idle (s := afterInput s) hb).symm.trans h
    exact .quiet _ _ _ _
  | true =>
    cases hd : decode s.lcmd with
    | none =>
      cases (engineTurn_of_illegal (s := afterInput s) hb hd).symm.trans h
      exact .illegal turn hb hd
    | some i => exact .executes turn hb hd ((engineTurn_of_decode (s := afterInput s) hb hd).symm.trans h)

/-- The register an access reaches fixes its offset (R43), for the registers whose writes do more than set a value. -/
theorem registerAt_offset {off bytes : Nat} {r : Reg} (h : registerAt off bytes = some r)
    (hr : r = .ctrl ∨ r = .status ∨ r = .cmd) : off = r.offset ∧ bytes = 4 := by
  have hwf : regAccessWf off bytes = true := by rw [← registerAt_isSome, h]; rfl
  obtain ⟨rfl, -, ho⟩ := regAccessWf_iff.mp hwf
  have window : ∀ o < 0x80, ∀ r ∈ [Reg.ctrl, .status, .cmd], registerAt o 4 = some r → o = r.offset := by decide
  exact ⟨window off ho r (by simpa using hr) h, rfl⟩

theorem stepTo_of_regWrite {s : State} {off bytes : Nat} {v : Word} {rest : List Input} {r : Reg}
    (hs : s.inputs = .regWrite off bytes v :: rest) (hr : registerAt off bytes = some r) :
    StepTo s ((s.withInputs rest).writeReg v r) := by
  rw [← afterInput_cons hs]
  cases r with
  | ctrl =>
    obtain ⟨rfl, rfl⟩ := registerAt_offset hr (by simp)
    simp only [State.writeReg, State.writeCtrl]
    split
    · next hv => exact .resets (.inr ⟨v, rest, hs, hv⟩)
    · exact .quiet _ _ _ _
  | status =>
    obtain ⟨rfl, rfl⟩ := registerAt_offset hr (by simp)
    exact .clearsFlags hs
  | cmd =>
    obtain ⟨rfl, rfl⟩ := registerAt_offset hr (by simp)
    simp only [State.writeReg, State.writeCmd]
    split
    · next hb => exact .overruns hs hb
    · next hb => exact .accepts hs (Bool.eq_false_of_not_eq_true hb)
  | id | irqEn | arg | res | errInfo0 | errInfo1 | params | dmemLast | unmapped => exact .quiet _ _ _ _

theorem hostDmemAccess_eq_next {a : Nat} {s t u : State} (h : hostDmemAccess a s t = .next u) :
    a < s.dmemBytes ∧ s.status.busy = false ∧ u = t := by
  obtain ⟨-, h'⟩ | ⟨-, -, h'⟩ | ⟨ha, hb, h'⟩ := hostDmemAccess_cases a s t <;> rw [h'] at h <;> cases h
  exact ⟨ha, hb, rfl⟩

theorem stepTo_of_step {s t : State} (h : step s = .next t) : StepTo s t := by
  obtain ⟨hs, hx⟩ | ⟨x, rest, hs, hx⟩ := step_cases s <;> rw [hx] at h
  · refine stepTo_of_engineTurn (.inl hs) ?_
    rwa [afterInput, hs, List.tail_nil, ← hs]
  · have hin := afterInput_cons hs
    cases x with
    | regRead off bytes =>
      simp only [hostRegRead] at h
      split at h <;> cases h
      exact .quiet _ _ _ _
    | regWrite off bytes v =>
      simp only [hostRegWrite] at h
      split at h <;> cases h
      next r hr => exact stepTo_of_regWrite hs hr
    | dmemRead a =>
      obtain ⟨-, -, rfl⟩ := hostDmemAccess_eq_next h
      exact .quiet _ _ _ _
    | dmemWrite a b =>
      obtain ⟨ha, hb, rfl⟩ := hostDmemAccess_eq_next h
      exact hin ▸ .storesByte hs ha hb
    | engine => exact stepTo_of_engineTurn (.inr ⟨rest, hs⟩) (hin ▸ h)
    | reset =>
      cases h
      exact hin ▸ .resets (.inl ⟨rest, hs⟩)
    | waitIdle later =>
      cases h
      exact .quiet _ _ _ _
    | stopOnError =>
      simp only [hostStopOnError] at h
      split at h <;> cases h <;> exact .quiet _ _ _ _

end Sys2Proof.Proofs
end

-- What every step keeps (10_state.md, 20_memory.md, 70_reset_and_hazards.md)
section

namespace Sys2Proof.Proofs

open Sys2Proof.Machine

/-! ### Flags and parameters -/

theorem exec_status {i : Instr} {s t : State} (h : exec i s = .next t) :
    t.status.overrun = s.status.overrun ∧
      (t.status = { s.status with errCode := .ok, busy := false, done := true } ∨
        ∃ c, c ≠ .ok ∧ t.status = { s.status with errCode := c, err := true, busy := false, done := true }) := by
  cases execTo_of_exec h with
  | completes hw =>
    have hc := hw.rest.completed.status
    exact ⟨by rw [hc], .inl hc⟩
  | fails he => exact ⟨rfl, .inr ⟨_, he, rfl⟩⟩

theorem exec_dmemLast {i : Instr} {s t : State} (h : exec i s = .next t) : t.dmemLast = s.dmemLast := by
  cases execTo_of_exec h with
  | completes hw => exact hw.rest.dmemLast
  | fails => rfl

/-- A command that changes the tree is TREE_BUILD or TREE_LOAD, and ends in the success completion (R33). -/
theorem exec_changes_tree {i : Instr} {s t : State} (h : exec i s = .next t) (hne : t.tree ≠ s.tree) :
    t.status.errCode = .ok ∧ (i = .treeBuild ∨ i = .treeLoad) := by
  cases execTo_of_exec h with
  | completes hw => exact ⟨rfl, tree_mem_writesOf (not_not.mp fun hm => hne (hw.tree hm))⟩
  | fails => exact absurd rfl hne

/-- Settles O11: no other step writes the tree. -/
theorem onlyTheseChangeTreeState : Obligations.OnlyTheseChangeTreeState := by
  intro s t h hne
  cases stepTo_of_step h with
  | executes turn busy hd he =>
    obtain ⟨hok, rfl | rfl⟩ := exec_changes_tree he fun ht => hne (congrArg Tree.state ht)
    · exact .inr (.inr ⟨turn, busy, hok, .inl hd⟩)
    · exact .inr (.inr ⟨turn, busy, hok, .inr hd⟩)
  | resets hr => exact or_assoc.mp (.inl hr)
  | illegal | clearsFlags | accepts | overruns | storesByte | quiet => exact absurd rfl hne

/-- Settles O12: of the steps that write the flags, only `overrun` sets OVERRUN, and only a STATUS write and a reset clear
it. -/
theorem overrunIsSticky : Obligations.OverrunIsSticky := by
  intro s t h
  cases stepTo_of_step h with
  | executes turn busy hd he =>
    have hover : t.status.overrun = s.status.overrun := (exec_status he).1
    rw [hover]
    exact ⟨fun h₀ h₁ => absurd (h₀.symm.trans h₁) Bool.false_ne_true, fun h₁ h₀ => absurd (h₀.symm.trans h₁) Bool.false_ne_true⟩
  | resets hr => exact ⟨fun _ => nofun, fun _ _ => .inr hr⟩
  | @clearsFlags v rest hs =>
    refine ⟨fun h₀ h₁ => ?_, fun h₁ h₀ => .inl ⟨v, rest, hs, ?_⟩⟩
    · exact absurd (h₀.symm.trans (Bool.and_eq_true_iff.mp h₁).1) Bool.false_ne_true
    · have h₀ : (s.status.overrun && !v.getLsbD 3) = false := h₀
      simpa [h₁] using h₀
  | @overruns v rest hs busy => exact ⟨fun _ _ => ⟨busy, v, rest, hs⟩, fun _ => nofun⟩
  | illegal | accepts | storesByte | quiet =>
    exact ⟨fun h₀ h₁ => absurd (h₀.symm.trans h₁) Bool.false_ne_true, fun h₁ h₀ => absurd (h₀.symm.trans h₁) Bool.false_ne_true⟩

/-- Settles O13: only `accept` sets BUSY, and only a completion and a reset clear it. -/
theorem busyFollowsLifecycle : Obligations.BusyFollowsLifecycle := by
  intro s t h
  cases stepTo_of_step h with
  | executes turn busy hd he =>
    obtain ⟨hbusy, hdone, -⟩ := exec_completes he
    exact ⟨fun _ h₁ => absurd (hbusy.symm.trans h₁) Bool.false_ne_true, fun _ _ => .inl ⟨turn, hdone⟩⟩
  | illegal turn => exact ⟨fun _ => nofun, fun _ _ => .inl ⟨turn, rfl⟩⟩
  | resets hr => exact ⟨fun _ => nofun, fun _ _ => .inr hr⟩
  | @accepts v rest hs idle =>
    exact ⟨fun _ _ => ⟨v, rest, hs, rfl, rfl⟩, fun h₁ _ => absurd (idle.symm.trans h₁) Bool.false_ne_true⟩
  | clearsFlags | overruns | storesByte | quiet =>
    exact ⟨fun h₀ h₁ => absurd (h₀.symm.trans h₁) Bool.false_ne_true, fun h₁ h₀ => absurd (h₀.symm.trans h₁) Bool.false_ne_true⟩

theorem not_engineNext_of_cons {s : State} {x : Input} {rest : List Input} (hs : s.inputs = x :: rest) (hx : x ≠ .engine) :
    ¬EngineNext s := by
  rintro (h | ⟨rest', h⟩) <;> rw [hs] at h <;> cases h
  exact hx rfl

/-- Settles O14: with BUSY = 1 the steps left write only flags, the registers a host may write, and the environment's own
fields. -/
theorem runningCommandUndisturbed : Obligations.RunningCommandUndisturbed := by
  intro s t x rest busy hs hengine hreset hctrl h
  have turn := not_engineNext_of_cons hs hengine
  cases stepTo_of_step h with
  | executes hturn => exact absurd hturn turn
  | illegal hturn => exact absurd hturn turn
  | resets hr =>
    obtain ⟨_, hr⟩ | ⟨v, _, hr, hv⟩ := hr <;> cases hs.symm.trans hr
    · exact absurd rfl hreset
    · exact absurd ((hctrl v rfl).symm.trans hv) Bool.false_ne_true
  | accepts _ idle => exact absurd (idle.symm.trans busy) Bool.false_ne_true
  | storesByte _ _ idle => exact absurd (idle.symm.trans busy) Bool.false_ne_true
  | clearsFlags | overruns | quiet =>
    exact ⟨busy, rfl, rfl, rfl, rfl, rfl, rfl, rfl, rfl, rfl, rfl, sameBytes_of_dmem rfl⟩

/-- Settles O29: the completions write the flags that an accepted command left at 0. -/
theorem statusOkKept : Obligations.StatusOkKept := by
  intro s t ⟨hbusy, herr⟩ h
  cases stepTo_of_step h with
  | executes turn busy hd he =>
    obtain ⟨-, hst | ⟨c, hc, hst⟩⟩ := exec_status he <;> rw [State.StatusOk, hst]
    · have herr₀ : s.status.err = false := (hbusy busy).2.1
      exact ⟨nofun, fun h₁ => absurd (herr₀.symm.trans h₁) Bool.false_ne_true⟩
    · exact ⟨nofun, fun _ => hc⟩
  | illegal => exact ⟨nofun, fun _ => nofun⟩
  | resets => exact ⟨nofun, nofun⟩
  | clearsFlags =>
    refine ⟨fun hb => ?_, fun he => herr (Bool.and_eq_true_iff.mp he).1⟩
    obtain ⟨hd, he, hc⟩ := hbusy hb
    exact ⟨by simp [afterInput, State.withInputs, hd], by simp [afterInput, State.withInputs, he], hc⟩
  | accepts => exact ⟨fun _ => ⟨rfl, rfl, rfl⟩, nofun⟩
  | overruns | storesByte | quiet => exact ⟨hbusy, herr⟩

/-! ### DMEM -/

theorem dmemAfterReset_of_none {s : State} (h : s.pendingStore = none) : s.dmemAfterReset = s.dmem := by
  rw [State.dmemAfterReset, h]

theorem dmemAfterReset_of_some {s : State} {st : Store} (h : s.pendingStore = some st) :
    s.dmemAfterReset = (s.memWrite (st.drawn s.draws)).dmem := by
  rw [State.dmemAfterReset, h]
  rfl

@[simp] theorem length_drawn_bytes (st : Store) (draw : Nat) : (st.drawn draw).bytes.length = st.bytes.length := by
  simp [Store.drawn]

theorem pendingStore_eq_some {s : State} {st : Store} (h : s.pendingStore = some st) : ∃ i, s.storeOf i = some st := by
  rw [State.pendingStore] at h
  split at h
  · obtain ⟨i, -, hi⟩ := Option.bind_eq_some_iff.mp h
    exact ⟨i, hi⟩
  · cases h

theorem memoryOk_memWrite {s : State} (h : s.MemoryOk) {st : Store} (hr : s.RangeOk st.base st.bytes.length) :
    (s.memWrite st).MemoryOk :=
  Memory.wf_putBytes h (hr.imp_left List.length_eq_zero_iff.mp)

/-- Settles O28: what a command stores, and what a reset draws, lies in a valid range. -/
theorem memoryOkKept : Obligations.MemoryOkKept := by
  intro s t h
  have keeps {u v : State} (hd : v.dmem = u.dmem) (hl : v.dmemLast = u.dmemLast) (hu : u.MemoryOk) : v.MemoryOk := by
    rw [State.MemoryOk, State.dmemBytes, hd, hl]
    exact hu
  cases stepTo_of_step h with
  | @executes _ i turn busy hd he =>
    have hlast : t.dmemLast = s.dmemLast := exec_dmemLast (s := afterInput s) he
    refine ⟨congrArg (·.toNat + 1) hlast, fun hm => ?_⟩
    cases hst : (afterInput s).storeOf i with
    | none => exact keeps (dmem_of_storeOf_none hst he) hlast hm
    | some st =>
      obtain ⟨t', he', hdm, -⟩ := exec_of_storeOf hst
      cases he'.symm.trans he
      exact keeps hdm hlast (memoryOk_memWrite (s := afterInput s) hm (rangeOk_of_storeOf hst))
  | resets =>
    refine ⟨rfl, fun hm => ?_⟩
    cases hst : (afterInput s).pendingStore with
    | none => exact keeps (dmemAfterReset_of_none hst) rfl hm
    | some st =>
      obtain ⟨i, hi⟩ := pendingStore_eq_some hst
      refine keeps (dmemAfterReset_of_some hst) rfl (memoryOk_memWrite (s := afterInput s) hm ?_)
      rw [length_drawn_bytes]
      exact rangeOk_of_storeOf hi
  | storesByte hs ha => exact ⟨rfl, fun hm => memoryOk_memWrite (s := afterInput s) hm (.inr ha)⟩
  | illegal | clearsFlags | accepts | overruns | quiet => exact ⟨rfl, id⟩

/-! ### Resets -/

theorem step_of_resetNext {s : State} {rest : List Input}
    (h : s.inputs = .reset :: rest ∨ ∃ v : Word, v.getLsbD 0 = true ∧ s.inputs = .regWrite 0x04 4 v :: rest) :
    step s = .next (s.withInputs rest).resetBlock := by
  obtain hs | ⟨v, hv, hs⟩ := h
  · rw [step, takeTurn, hs]
  · rw [step_regWrite_of_registerAt hs rfl, State.writeReg, State.writeCtrl, if_pos hv]

/-- Settles O25: a reset writes only the write set of the command in progress, if there is one. -/
theorem resetKeepsDmem : Obligations.ResetKeepsDmem := by
  intro s rest h
  have keeps (hp : (s.withInputs rest).pendingStore = none) : SameBytes s (s.withInputs rest).resetBlock :=
    sameBytes_of_dmem (dmemAfterReset_of_none hp)
  have pending {i : Instr} (hb : s.status.busy = true) (hd : decode s.lcmd = some i) :
      (s.withInputs rest).pendingStore = s.storeOf i := by
    have hp : (s.withInputs rest).pendingStore = s.pendingStore := by
      simp only [State.pendingStore]
      rfl
    rw [hp, State.pendingStore, if_pos hb, hd, Option.bind_some]
  refine ⟨_, step_of_resetNext h, rfl, rfl, rfl, fun hb => keeps ?_,
    fun hb => ⟨fun hd => keeps ?_, fun i hd => ⟨fun hn => keeps ?_, fun st hst => ?_⟩⟩⟩
  · exact if_neg (by simp [State.withInputs, hb])
  · exact (if_pos hb).trans (by rw [State.withInputs, hd, Option.bind_none])
  · rw [pending hb hd, hn]
  · intro a ha
    have hdm := dmemAfterReset_of_some ((pending hb hd).trans hst)
    refine (State.memRead_congr (s := s.memWrite (st.drawn s.draws)) hdm a).trans
      (s.sameBytesOutside_memWrite (st.drawn s.draws) a ?_)
    rwa [length_drawn_bytes]

/-- Settles O24: every reset leaves the fields of `State.reset`, but for DMEM, DMEM_LAST and the environment's own. -/
theorem resetValues : Obligations.ResetValues := by
  intro t ht
  obtain ⟨dmem, dmemLast, inputs, replies, draws, rfl⟩ : ∃ dmem dmemLast inputs replies draws,
      t = { State.reset with dmem := dmem, dmemLast := dmemLast, inputs := inputs, replies := replies, draws := draws } := by
    obtain rfl | ⟨s, rest, h, hs⟩ := ht
    · exact ⟨_, _, _, _, _, rfl⟩
    · cases (step_of_resetNext hs).symm.trans h
      exact ⟨_, _, _, _, _, rfl⟩
  exact ⟨fun n => ⟨Vector.getElem_replicate n.isLt, Vector.getElem_replicate n.isLt, Vector.getElem_replicate n.isLt⟩,
    rfl, rfl, rfl, rfl, (by decide : State.reset.statusWord = 0#32), rfl, rfl,
    fun sym => Vector.getElem_replicate sym.isLt, rfl, rfl, rfl, rfl, rfl, rfl, rfl⟩

/-- Settles O27: nothing is stored, queued, built or derived at reset. -/
theorem resetHasInvariants : Obligations.ResetHasInvariants where
  memory := rfl
  status := ⟨nofun, nofun⟩
  queue := ⟨Nat.zero_le _, heapOrdered_nil _⟩
  tree := ⟨Nat.zero_le _, List.forall_mem_nil _, rfl, rfl⟩
  codes := nofun

/-! ### Host accesses -/

theorem step_of_dmemRead {s : State} {a : Nat} {rest : List Input} (hs : s.inputs = .dmemRead a :: rest) :
    step s = hostDmemRead a (s.withInputs rest) := by
  rw [step, takeTurn, hs]

theorem step_of_dmemWrite {s : State} {a : Nat} {b : Byte} {rest : List Input} (hs : s.inputs = .dmemWrite a b :: rest) :
    step s = hostDmemWrite a b (s.withInputs rest) := by
  rw [step, takeTurn, hs]

theorem hostDmemAccess_of_idle {a : Nat} {s : State} (t : State) (ha : a < s.dmemBytes) (hb : s.status.busy = false) :
    hostDmemAccess a s t = .next t := by
  rw [hostDmemAccess, if_neg (Nat.not_le.mpr ha), hb]
  rfl

theorem hostDmemAccess_of_busy {a : Nat} {s : State} (t : State) (ha : a < s.dmemBytes) (hb : s.status.busy = true) :
    hostDmemAccess a s t = .fault .hostRace := by
  rw [hostDmemAccess, if_neg (Nat.not_le.mpr ha), if_pos hb]

theorem hostDmemAccess_of_outside {a : Nat} {s : State} (t : State) (ha : s.dmemBytes ≤ a) :
    hostDmemAccess a s t = .refused .dmemOffsetOutside := by
  rw [hostDmemAccess, if_pos ha]

theorem hostDmemAccess_eq_fault {a : Nat} {s t : State} {f : Fault} (h : hostDmemAccess a s t = .fault f) :
    f = .hostRace ∧ s.status.busy = true ∧ a < s.dmemBytes := by
  obtain ⟨-, h'⟩ | ⟨ha, hb, h'⟩ | ⟨-, -, h'⟩ := hostDmemAccess_cases a s t <;> rw [h'] at h <;> cases h
  exact ⟨rfl, hb, ha⟩

theorem engineTurn_ne_fault (s : State) (f : Fault) : engineTurn s ≠ .fault f := by
  obtain ⟨-, h⟩ | ⟨-, ⟨-, h⟩ | ⟨i, -, h⟩⟩ := engineTurn_cases s <;> rw [h]
  · exact nofun
  · exact nofun
  · obtain ⟨t, he, -⟩ := exists_execTo i s
    rw [he]
    exact nofun

/-- R217: only a DMEM access faults. -/
theorem step_eq_fault {s : State} {f : Fault} (h : step s = .fault f) :
    f = .hostRace ∧ s.status.busy = true ∧
      ∃ a rest, a < s.dmemBytes ∧ (s.inputs = .dmemRead a :: rest ∨ ∃ b, s.inputs = .dmemWrite a b :: rest) := by
  obtain ⟨-, hx⟩ | ⟨x, rest, hs, hx⟩ := step_cases s <;> rw [hx] at h
  · exact absurd h (engineTurn_ne_fault s f)
  · cases x with
    | dmemRead a =>
      obtain ⟨hf, hb, ha⟩ := hostDmemAccess_eq_fault h
      exact ⟨hf, hb, a, rest, ha, .inl hs⟩
    | dmemWrite a b =>
      obtain ⟨hf, hb, ha⟩ := hostDmemAccess_eq_fault h
      exact ⟨hf, hb, a, rest, ha, .inr ⟨b, hs⟩⟩
    | engine => exact absurd h (engineTurn_ne_fault _ f)
    | regRead off bytes =>
      simp only [hostRegRead] at h
      split at h <;> cases h
    | regWrite off bytes v =>
      simp only [hostRegWrite] at h
      split at h <;> cases h
    | reset | waitIdle | stopOnError => cases h

/-- Settles O22: a DMEM access goes through `hostDmemAccess`, whose checks are the clauses. -/
theorem hostDmemAccess : Obligations.HostDmemAccess := by
  refine ⟨fun s f => step_eq_fault,
    fun s a b rest => ⟨fun ha hb => ⟨fun hs => ?_, fun hs => ?_⟩, fun ha hb hs => ?_, fun ha hs => ?_⟩⟩
  · rw [step_of_dmemRead hs]
    exact hostDmemAccess_of_idle (s := s.withInputs rest) _ ha hb
  · rw [step_of_dmemWrite hs]
    refine ⟨_, hostDmemAccess_of_idle (s := s.withInputs rest) _ ha hb, ?_, ?_, rfl⟩
    · exact (s.withInputs rest).holdsBytes_memWrite { base := a, bytes := [b] } 0 Nat.one_pos
    · exact (s.withInputs rest).sameBytesOutside_memWrite { base := a, bytes := [b] }
  · obtain hs | hs := hs
    · exact (step_of_dmemRead hs).trans (hostDmemAccess_of_busy (s := s.withInputs rest) _ ha hb)
    · exact (step_of_dmemWrite hs).trans (hostDmemAccess_of_busy (s := s.withInputs rest) _ ha hb)
  · obtain hs | hs := hs
    · exact (step_of_dmemRead hs).trans (hostDmemAccess_of_outside (s := s.withInputs rest) _ ha)
    · exact (step_of_dmemWrite hs).trans (hostDmemAccess_of_outside (s := s.withInputs rest) _ ha)

theorem step_regRead_of_registerAt {s : State} {off : Nat} {rest : List Input} {r : Reg} {v : Word}
    (hs : s.inputs = .regRead off 4 :: rest) (hr : registerAt off 4 = some r) (hv : s.readReg r = v) :
    step s = .next { s with inputs := rest, replies := .reg off v :: s.replies } := by
  subst hv
  exact (step_regRead hs).trans (hostRegRead_of_registerAt (s.withInputs rest) hr)

theorem registerAt_res (n : Fin 4) : registerAt (0x24 + 4 * n.val) 4 = some (.res n) := by
  revert n; decide

theorem registerAt_unmapped {off : Nat} (h : 0x44 ≤ off) (h' : off < 0x80) (h4 : off % 4 = 0) :
    registerAt off 4 = some .unmapped := by
  have window : ∀ o < 0x80, 0x44 ≤ o → o % 4 = 0 → registerAt o 4 = some .unmapped := by decide
  exact window off h' h h4

/-- Settles O15: each offset reaches its register, and `readReg` gives the value. -/
theorem registerReads : Obligations.RegisterReads := by
  intro s rest off
  have hlast : s.dmemLast = BitVec.ofNat 32 (s.dmemBytes - 1) := by
    rw [State.dmemBytes, Nat.add_sub_cancel, BitVec.ofNat_toNat, BitVec.setWidth_eq]
  refine ⟨?_, ?_, ?_, ?_, ?_, ?_, ?_, ?_, ?_, ?_, ?_, fun h h' h4 hs => ?_⟩
  case refine_6 =>
    rintro n rfl hs
    exact step_regRead_of_registerAt hs (registerAt_arg n) rfl
  case refine_7 =>
    rintro n rfl hs
    exact step_regRead_of_registerAt hs (registerAt_res n) rfl
  case refine_11 =>
    rintro rfl hs
    exact step_regRead_of_registerAt hs rfl hlast
  case refine_12 => exact step_regRead_of_registerAt hs (registerAt_unmapped h h' h4) rfl
  all_goals
    rintro rfl hs
    exact step_regRead_of_registerAt hs rfl rfl

/-! ### STATUS -/

theorem toNat_append_eq_add {m n : Nat} (x : BitVec m) (y : BitVec n) : (x ++ y).toNat = 2 ^ n * x.toNat + y.toNat := by
  rw [BitVec.toNat_append, ← Nat.shiftLeft_add_eq_or_of_lt y.isLt, Nat.shiftLeft_eq, Nat.mul_comm]

/-- STATUS is its fields one above another (R27). -/
theorem toNat_statusWord {s : State} (hs : s.queue.size ≤ 256) :
    s.statusWord.toNat =
      s.status.busy.toNat + 2 * s.status.done.toNat + 4 * s.status.err.toNat + 8 * s.status.overrun.toNat +
        16 * s.status.errCode.value.toNat + 4096 * s.tree.state.value.toNat + 16384 * s.codes.valid.toNat +
        32768 * (policyValue s.queue.policy).toNat + 65536 * s.queue.size := by
  have hsize : (BitVec.ofNat 9 s.queue.size).toNat = s.queue.size :=
    (BitVec.toNat_ofNat _ _).trans (Nat.mod_eq_of_lt (by omega))
  simp only [State.statusWord, toNat_append_eq_add, BitVec.toNat_ofBool, hsize, BitVec.toNat_zero]
  omega

/-- Settles O16: the number of STATUS is the sum of its fields, and the values of the two enumerations are computed. -/
theorem statusLayout : Obligations.StatusLayout := by
  refine ⟨fun s hs => (toNat_statusWord hs).trans ?_, by decide⟩
  cases s.tree.state <;> cases s.queue.policy <;> rfl

end Sys2Proof.Proofs
end

-- FREQ_WRITE and TREE_NODE (42_freq.md R143, 43_tree.md R153)
section

namespace Sys2Proof.Proofs

open Sys2Proof.Machine

theorem exec_freqWrite (sym : Byte) (s : State) :
    exec (.freqWrite sym) s = .next (s.setFreq (s.freq.set sym.toNat s.larg[0])).complete := rfl

theorem setFreq_changesOnly (s : State) (f : Vector Word 256) : ChangesOnly s (s.setFreq f).complete [.freq] :=
  changesOnly_of (SameRest.completed (by constructor <;> rfl)) (fun _ _ => rfl) (fun hp => absurd List.mem_cons_self hp)
    (fun _ => rfl) (fun _ => rfl) (fun _ => rfl) fun _ => sameBytes_of_dmem rfl

/-- Settles O43: the completion with one entry of FREQ written. -/
theorem freqWriteSetsCount : Obligations.FreqWriteSetsCount :=
  ⟨by decide, fun sym s => ⟨symbol_append sym 0x0012#16, _, exec_freqWrite sym s, setFreq_changesOnly _ _,
    Vector.getElem_set_self sym.isLt, fun other h => Vector.getElem_set_ne sym.isLt other.isLt (toNat_ne h.symm)⟩⟩

/-- A field above another, as a number. -/
theorem toNat_or_shiftLeft {x y : Word} {k : Nat} (hx : x.toNat < 2 ^ k) (hy : y.toNat * 2 ^ k < 2 ^ 32) :
    (x ||| y <<< k).toNat = x.toNat + 2 ^ k * y.toNat := by
  rw [BitVec.toNat_or, BitVec.toNat_shiftLeft, Nat.shiftLeft_eq, Nat.mod_eq_of_lt hy, Nat.or_comm, ← Nat.shiftLeft_eq,
    ← Nat.shiftLeft_add_eq_or_of_lt hx, Nat.shiftLeft_eq, Nat.add_comm, Nat.mul_comm]

/-- R153: the words that show a record. -/
theorem nodeResults_toNat (n : Node) :
    (nodeResults n)[0].toNat = (match n.kind with | .leaf => 0 | .internal => 1) + 2 ^ 8 * n.sym.toNat ∧
      (nodeResults n)[1].toNat = n.left.toNat + 2 ^ 16 * n.right.toNat ∧
      (nodeResults n)[2].toNat = n.weight.toNat % 2 ^ 32 ∧ (nodeResults n)[3].toNat = n.weight.toNat / 2 ^ 32 := by
  have hsym : (n.sym.setWidth 32).toNat = n.sym.toNat := BitVec.toNat_setWidth_of_le (by decide)
  have hleft : (n.left.setWidth 32).toNat = n.left.toNat := BitVec.toNat_setWidth_of_le (by decide)
  have hright : (n.right.setWidth 32).toNat = n.right.toNat := BitVec.toNat_setWidth_of_le (by decide)
  have hkind : n.kind.bit.toNat = (match n.kind with | .leaf => 0 | .internal => 1) := by cases n.kind <;> rfl
  have hbit : n.kind.bit.toNat < 2 ^ 8 := by cases n.kind <;> decide
  have hs := n.sym.isLt
  have hl := n.left.isLt
  have hr := n.right.isLt
  have hw := n.weight.isLt
  refine ⟨?_, ?_, BitVec.extractLsb'_toNat _ _ _, ?_⟩
  · exact (toNat_or_shiftLeft hbit (by omega)).trans (by rw [hkind, hsym])
  · exact (toNat_or_shiftLeft (by omega) (by omega)).trans (by rw [hleft, hright])
  · refine (BitVec.toNat_setWidth_of_le (by decide)).trans ?_
    rw [BitVec.extractLsb'_toNat, Nat.shiftRight_eq_div_pow]
    omega

theorem exec_treeNode_of_record {h : Handle} {s : State} {n : Node} (hn : s.tree.nodes[h.toNat]? = some n) :
    exec (.treeNode h) s = .next ({ s with res := nodeResults n } : State).complete := by
  rw [exec, execTreeNode, Tree.node?, hn]
  rfl

theorem exec_treeNode_of_no_record {h : Handle} {s : State} (hn : s.tree.nodeCount ≤ h.toNat) :
    exec (.treeNode h) s =
      finish s (.error ⟨.badHandle, BitVec.ofNat 32 h.toNat, BitVec.ofNat 32 s.tree.nodeCount⟩) := by
  rw [exec, execTreeNode, Tree.node?, List.getElem?_eq_none hn, BitVec.ofNat_toNat]

/-- Settles O46: a handle below NODE_COUNT has a record, whose fields are packed into the results. -/
theorem treeNodeShowsRecord : Obligations.TreeNodeShowsRecord := by
  refine fun h s hcap => ⟨encode_treeNode h, fun n hn => ?_, fun hn => failsWith_of_finish (exec_treeNode_of_no_record hn), ?_⟩
  · exact ⟨_, exec_treeNode_of_record hn, results_changesOnly _ _, nodeResults_toNat n⟩
  · rintro rfl
    exact hcap

end Sys2Proof.Proofs
end

-- TREE_BUILD (43_tree.md R151, R152)
section

namespace Sys2Proof.Proofs

open Sys2Proof.Machine

/-! ### The tree of one symbol -/

/-- One leaf at handle 0 is a SINGLE tree (R48). -/
theorem singleTree_ok (sym : Byte) (w : Key) : ({ nodes := [leafNode sym w], root := 0#9, state := .single } : Tree).Ok := by
  refine ⟨Nat.le_of_ble_eq_true rfl, List.forall_mem_singleton.mpr (leafNode_ok sym w),
    ⟨.leaf sym, [0], ?_, .refl _, List.nodup_singleton _⟩,
    rfl, _, rfl, rfl⟩
  exact ⟨rfl, _, rfl, rfl, rfl⟩

theorem singleTree_hasShape (sym : Byte) (w : Key) :
    ({ nodes := [leafNode sym w], root := 0#9, state := .single } : Tree).HasShape (some (.leaf sym)) :=
  ⟨rfl, [0], rfl, _, rfl, rfl, rfl⟩

theorem initialLeaves_of_single {freq : Vector Word 256} {sym : Byte} (h : presentSymbols freq = [sym]) :
    initialLeaves freq (presentSymbols freq) = [leafNode sym (freq[sym.toNat].setWidth 40)] := by
  rw [h, initialLeaves, List.map_singleton]

/-! ### What the construction leaves, for every number of symbols -/

/-- No symbol, one symbol, or more (R151). -/
theorem presentSymbols_cases (freq : Vector Word 256) :
    presentSymbols freq = [] ∨ (∃ sym, presentSymbols freq = [sym]) ∨ 2 ≤ (presentSymbols freq).length := by
  match presentSymbols freq with
  | [] => exact .inl rfl
  | [sym] => exact .inr (.inl ⟨sym, rfl⟩)
  | _ :: _ :: _ => exact .inr (.inr (by simp))

theorem buildTree_of_nil {freq : Vector Word 256} (h : presentSymbols freq = []) :
    buildTree freq = ({ nodes := [], root := Config.nil, state := .empty }, []) :=
  buildTree_empty (by rw [h]; rfl)

theorem buildTree_of_singleton {freq : Vector Word 256} {sym : Byte} (h : presentSymbols freq = [sym]) :
    buildTree freq =
      ({ nodes := [leafNode sym (freq[sym.toNat].setWidth 40)], root := 0#9, state := .single }, []) := by
  rw [buildTree_single (by rw [h]; rfl), initialLeaves_of_single h]

/-- The queue is empty after TREE_BUILD (R151). -/
theorem buildTree_heap (freq : Vector Word 256) : (buildTree freq).2 = [] := by
  obtain h | ⟨sym, h⟩ | h := presentSymbols_cases freq
  · rw [buildTree_of_nil h]
  · rw [buildTree_of_singleton h]
  · exact (buildTree_multi h).1

theorem buildTree_ok (freq : Vector Word 256) : (buildTree freq).1.Ok := by
  obtain h | ⟨sym, h⟩ | h := presentSymbols_cases freq
  · rw [buildTree_of_nil h]
    exact emptyTree_ok
  · rw [buildTree_of_singleton h]
    exact singleTree_ok _ _
  · obtain ⟨-, sh, b⟩ := buildTree_multi h
    exact b.ok

/-- With two or more symbols the pairs run down to the root's element (R151). -/
theorem buildTree_pairs {freq : Vector Word 256} (h : 2 ≤ (presentSymbols freq).length) :
    ∃ nodes e, pairAll (presentSymbols freq).length (initialLeaves freq (presentSymbols freq))
        (initialHeap (initialLeaves freq (presentSymbols freq))) = (nodes, [e]) ∧
      buildTree freq = ({ nodes := nodes, root := e.tag.setWidth 9, state := .multi }, []) := by
  have b := initial_building freq h
  have hlen : (initialLeaves freq (presentSymbols freq)).length = (presentSymbols freq).length := by simp [initialLeaves]
  have hcount := b.count
  obtain ⟨nodes, heap, g, e, -, h1, -⟩ :=
    b.pairAll (length_le_of_nodup (presentSymbols_nodup freq)) (countSum_lt freq)
      (turns := (presentSymbols freq).length) (by omega) (by omega)
  obtain ⟨top, rfl⟩ := List.length_eq_one_iff.mp h1
  refine ⟨nodes, top, e, ?_⟩
  simp only [buildTree]
  split
  · omega
  · omega
  · simp only [e, heapPop, List.getLast?_nil]

/-- What TREE_BUILD leaves (R151). -/
def treeBuilt (s : State) : State :=
  (((s.setQueue { policy := .min, heap := (buildTree s.freq).2 }).setTree (buildTree s.freq).1).setTreeResults
    (buildTree s.freq).1 (presentSymbols s.freq).length).complete

theorem exec_treeBuild (s : State) : exec .treeBuild s = .next (treeBuilt s) := rfl

/-- RES0-RES2 after TREE_BUILD or TREE_LOAD (D45). -/
theorem setTreeResults_res {s : State} {t : Tree} {leaves : Nat} :
    (s.setTreeResults t leaves).res[0] = t.root.setWidth 32 ∧
      (s.setTreeResults t leaves).res[1] = BitVec.ofNat 32 t.nodeCount ∧
      (s.setTreeResults t leaves).res[2] = BitVec.ofNat 32 leaves ∧
      ∀ n : Fin 4, n ≠ 0 → n ≠ 1 → n ≠ 2 → (s.setTreeResults t leaves).res[n] = s.res[n] := by
  refine ⟨by simp, by simp, by simp, fun n h0 h1 h2 => ?_⟩
  have hne (i : Fin 4) (h : n ≠ i) : i.val ≠ n.val := fun e => h (Fin.ext e.symm)
  exact (Vector.getElem_set_ne (by decide) n.isLt (hne 2 h2)).trans <|
    (Vector.getElem_set_ne (by decide) n.isLt (hne 1 h1)).trans (Vector.getElem_set_ne (by decide) n.isLt (hne 0 h0))

theorem treeBuilt_changesOnly (s : State) :
    ChangesOnly s (treeBuilt s) [.queue, .tree, .codes, .res 0, .res 1, .res 2] := by
  refine changesOnly_of (SameRest.completed (by constructor <;> rfl)) (fun n hp => ?_) (fun _ => rfl)
    (fun hp => absurd (by simp) hp) (fun hp => absurd (by simp) hp) (fun hp => absurd (by simp) hp)
    fun _ => sameBytes_of_dmem rfl
  simp only [List.mem_cons, Part.res.injEq, reduceCtorEq, false_or, List.not_mem_nil, or_false, not_or] at hp
  exact setTreeResults_res.2.2.2 n hp.1 hp.2.1 hp.2.2

/-- Settles O44: `presentSymbols` is the list, `pairAll` runs through `PairsUp`. -/
theorem treeBuildPairsLowest : Obligations.TreeBuildPairsLowest := by
  refine ⟨by decide, fun s symbols hsorted hmem => ?_⟩
  obtain rfl := eq_presentSymbols hsorted hmem
  have hle := length_le_of_nodup (presentSymbols_nodup s.freq)
  have hcap : (buildTree s.freq).1.nodeCount ≤ 511 := (buildTree_ok s.freq).1
  obtain ⟨hres0, hres1, hres2, -⟩ := setTreeResults_res
    (s := (s.setQueue { policy := .min, heap := (buildTree s.freq).2 }).setTree (buildTree s.freq).1) (t := (buildTree s.freq).1) (leaves := (presentSymbols s.freq).length)
  refine ⟨_, exec_treeBuild s, treeBuilt_changesOnly s, congrArg (Queue.mk .min) (buildTree_heap s.freq), rfl, ?_, ?_, ?_,
    fun h => congrArg Prod.fst (buildTree_empty h), fun h => congrArg Prod.fst (buildTree_single h), fun h => ?_⟩
  · exact (congrArg BitVec.toNat hres0).trans (BitVec.toNat_setWidth_of_le (by decide))
  · exact (congrArg BitVec.toNat hres1).trans (toNat_ofNat_of_le_767 (by omega))
  · exact (congrArg BitVec.toNat hres2).trans (toNat_ofNat_of_le_767 (by omega))
  · obtain ⟨nodes, e, hpairs, hb⟩ := buildTree_pairs h
    have hrun := pairAll_pairsUp (presentSymbols s.freq).length (initialLeaves s.freq (presentSymbols s.freq))
      (initialHeap (initialLeaves s.freq (presentSymbols s.freq))) (by
        rw [(initialHeap_perm _).length_eq]
        simp [initialLeaves])
    rw [hpairs] at hrun
    have ht : (treeBuilt s).tree = { nodes := nodes, root := e.tag.setWidth 9, state := .multi } := congrArg Prod.fst hb
    rw [ht]
    exact ⟨rfl, _, e, insertsLeaves_foldl _ 0 [], hrun, rfl⟩

/-! ### The numbers of a built tree -/

theorem countSum_le (freq : Vector Word 256) : countSum freq ≤ 256 * (2 ^ 32 - 1) := by
  have hle : ∀ x ∈ (presentSymbols freq).map fun sym => freq[sym.toNat].toNat, x ≤ 2 ^ 32 - 1 :=
    List.forall_mem_map.mpr fun sym _ => Nat.le_pred_of_lt freq[sym.toNat].isLt
  have hsum := List.sum_le_card_nsmul _ _ hle
  rw [List.length_map, smul_eq_mul] at hsum
  exact hsum.trans (Nat.mul_le_mul_right _ (length_le_of_nodup (presentSymbols_nodup freq)))

/-- What R152 says of the tree built from a table, with the number of its symbols and the sum of their counts. -/
structure BuiltNumbers (freq : Vector Word 256) (t : Tree) : Prop where
  count : 1 ≤ (presentSymbols freq).length → t.nodeCount + 1 = 2 * (presentSymbols freq).length
  root : 2 ≤ (presentSymbols freq).length → t.root.toNat + 2 = 2 * (presentSymbols freq).length
  sums : ∀ x ∈ t.nodes, x.kind = .internal → ∃ l r, t.node? x.left = some l ∧ t.node? x.right = some r ∧
    x.weight.toNat = l.weight.toNat + r.weight.toNat
  weight : ∀ x, t.node? t.root = some x → x.weight.toNat = countSum freq
  symbols : ∀ sh, t.HasShape (some sh) → sh.symbols.Perm (presentSymbols freq)

theorem buildTree_numbers (freq : Vector Word 256) : BuiltNumbers freq (buildTree freq).1 := by
  obtain h | ⟨sym, h⟩ | h := presentSymbols_cases freq
  · rw [buildTree_of_nil h]
    have none_present : ¬1 ≤ (presentSymbols freq).length := by rw [h]; decide
    exact ⟨fun h₁ => absurd h₁ none_present, fun h₂ => absurd (Nat.le_of_succ_le h₂) none_present, nofun, nofun,
      fun sh hs => by cases sh <;> cases hs.1⟩
  · rw [buildTree_of_singleton h]
    refine ⟨fun _ => by rw [h]; rfl, fun h₂ => absurd (h ▸ h₂) (by simp), ?_, ?_, fun sh hs => ?_⟩
    · rintro x hx hk
      rw [List.mem_singleton.mp hx] at hk
      cases hk
    · rintro x ⟨⟩
      rw [countSum, h, List.map_singleton, List.sum_singleton]
      exact BitVec.toNat_setWidth_of_le (by decide)
    · cases hs.unique (singleTree_hasShape _ _)
      exact .of_eq h.symm
  · obtain ⟨-, x, b⟩ := buildTree_multi h
    refine ⟨fun _ => b.count, fun _ => b.root, b.sums, fun n hn => ?_, fun sh hs => ?_⟩
    · simpa [hn] using b.weight
    · cases hs.unique b.shape
      exact b.symbols

/-- Settles O45: the list is `presentSymbols` in some order; a leaf is never deeper than the other leaves are many. -/
theorem builtTreeNumbers : Obligations.BuiltTreeNumbers := by
  rintro s t symbols hn hmem ⟨⟩
  have hperm : symbols.Perm (presentSymbols s.freq) :=
    (List.perm_ext_iff_of_nodup hn (presentSymbols_nodup _)).mpr fun sym => (hmem sym).trans mem_presentSymbols.symm
  have hsum : (symbols.map fun sym => s.freq[sym.toNat].toNat).sum = countSum s.freq := (hperm.map _).sum_eq
  have b := buildTree_numbers s.freq
  rw [hperm.length_eq, hsum]
  refine ⟨b.count, b.root, b.sums, fun x hx => ⟨b.weight x hx, (b.weight x hx).trans_le (countSum_le _)⟩, fun sh hs => ?_⟩
  have hsymbols := b.symbols sh hs
  refine ⟨hsymbols.trans hperm.symm, fun p hp => ?_⟩
  have hdepth := Shape.length_path_lt sh p hp
  have hlen := hsymbols.length_eq
  have hle := length_le_of_nodup (presentSymbols_nodup s.freq)
  omega

end Sys2Proof.Proofs
end

-- The invariants of the queue, the tree and the code table (10_state.md R34, R45-R48, 41_pq.md R123)
section

namespace Sys2Proof.Proofs

open Sys2Proof.Machine

/-! ### The queue -/

/-- The four commands that write the queue keep its order and capacity (R128, R129, R131, R151). -/
theorem exec_keeps_queueOk {i : Instr} {s t : State} (hq : s.QueueOk) (h : exec i s = .next t) : t.QueueOk := by
  obtain ⟨hcap, ho⟩ := hq
  by_cases hm : .queue ∈ writesOf i
  · obtain ⟨p, rfl⟩ | ⟨tag, rfl⟩ | rfl | rfl := queue_mem_writesOf hm
    · cases (exec_pqNew p s).symm.trans h
      exact ⟨Nat.zero_le _, heapOrdered_nil p⟩
    · obtain hfull | hlt := le_or_gt 256 s.queue.size
      · cases (exec_pqInsert_of_full tag hfull).symm.trans h
        exact ⟨hcap, ho⟩
      · cases (exec_pqInsert_of_lt tag hlt).symm.trans h
        exact ⟨(length_heapInsert _ _ _).trans_le hlt, heapOrdered_heapInsert ho _⟩
    · by_cases hempty : s.queue.heap = []
      · cases (exec_pqPop_of_empty hempty).symm.trans h
        exact ⟨Nat.zero_le _, heapOrdered_nil _⟩
      · obtain ⟨top, rest, hp⟩ := heapPop_isSome (p := s.queue.policy) (List.length_pos_iff.mpr hempty)
        cases (exec_pqPop_of_heapPop hp).symm.trans h
        exact ⟨(Nat.le_succ _).trans ((heapPop_length hp).symm.trans_le hcap), heapOrdered_heapPop ho hp⟩
    · cases (exec_treeBuild s).symm.trans h
      have hqueue : (treeBuilt s).queue = { policy := .min, heap := [] } := congrArg (Queue.mk .min) (buildTree_heap s.freq)
      rw [State.QueueOk, hqueue]
      exact ⟨Nat.zero_le _, heapOrdered_nil _⟩
  · have hkeep := (execTo_of_exec h).keeps.2.1 hm
    rw [State.QueueOk, hkeep]
    exact ⟨hcap, ho⟩

/-- Settles O30: a step that executes no command keeps the queue, or resets it. -/
theorem heapInvariantKept : Obligations.HeapInvariantKept := by
  intro s t hq h
  cases stepTo_of_step h with
  | executes _ _ _ he => exact exec_keeps_queueOk (s := afterInput s) hq he
  | resets => exact ⟨Nat.zero_le _, heapOrdered_nil _⟩
  | illegal | clearsFlags | accepts | overruns | storesByte | quiet => exact hq

/-! ### The tree and the code table -/

/-- TREE_LOAD loads what `loadTree` answers, or fails (R156). -/
theorem exec_treeLoad_cases {s t : State} (h : exec .treeLoad s = .next t) :
    (∃ e, t = s.fail e) ∨ ∃ tree leaves,
      loadTree (fun i => s.memRead (s.srcOperand + i)) s.lengthOperand = .ok (tree, leaves) ∧ t = treeLoaded s tree leaves := by
  simp only [exec, execTreeLoad] at h
  split at h
  · cases h
    exact .inl ⟨_, rfl⟩
  · split at h
    · cases h
      exact .inl ⟨_, rfl⟩
    · next hl =>
      cases h
      exact .inr ⟨_, _, hl, rfl⟩

theorem exec_codeDerive_cases {s t : State} (h : exec .codeDerive s = .next t) :
    (∃ e, t = s.fail e) ∨ (s.tree.state ≠ .invalid ∧ t = derived s (deriveCodes s.tree)) := by
  by_cases hi : s.tree.state = .invalid
  · cases (exec_codeDerive_of_invalid hi).symm.trans h
    exact .inl ⟨_, rfl⟩
  · cases (exec_codeDerive_of_ne_invalid hi).symm.trans h
    exact .inr ⟨hi, rfl⟩

theorem loadTree_ok {d : Nat → Byte} {m : Nat} {t : Tree} {leaves : Nat} (h : loadTree d m = .ok (t, leaves)) : t.Ok := by
  obtain ⟨-, rfl, -⟩ | ⟨sh, -, -, -, l⟩ := loadTree_sound h
  · exact emptyTree_ok
  · exact l.ok

theorem exec_keeps_treeOk {i : Instr} {s t : State} (hk : s.tree.Ok) (h : exec i s = .next t) : t.tree.Ok := by
  by_cases hm : .tree ∈ writesOf i
  · obtain rfl | rfl := tree_mem_writesOf hm
    · cases (exec_treeBuild s).symm.trans h
      exact buildTree_ok s.freq
    · obtain ⟨e, rfl⟩ | ⟨tree, leaves, hl, rfl⟩ := exec_treeLoad_cases h
      · exact hk
      · exact loadTree_ok hl
  · have hkeep := (execTo_of_exec h).keeps.2.2.1 hm
    rwa [hkeep]

/-- Settles O31: TREE_BUILD and TREE_LOAD leave a tree that meets R46-R48, a reset leaves none. -/
theorem treeOkKept : Obligations.TreeOkKept := by
  intro s t hk h
  cases stepTo_of_step h with
  | executes _ _ _ he => exact exec_keeps_treeOk (s := afterInput s) hk he
  | resets => exact resetHasInvariants.tree
  | illegal | clearsFlags | accepts | overruns | storesByte | quiet => exact hk

/-- TREE_BUILD and TREE_LOAD clear CODES_VALID, CODE_DERIVE derives the table, and nothing else writes it (R34). -/
theorem exec_keeps_codesOk {i : Instr} {s t : State} (hc : s.CodesOk) (h : exec i s = .next t) : t.CodesOk := by
  by_cases hm : .codes ∈ writesOf i
  · obtain rfl | rfl | rfl := codes_mem_writesOf hm
    · cases (exec_treeBuild s).symm.trans h
      exact nofun
    · obtain ⟨e, rfl⟩ | ⟨tree, leaves, -, rfl⟩ := exec_treeLoad_cases h
      · exact hc
      · exact nofun
    · obtain ⟨e, rfl⟩ | ⟨hi, rfl⟩ := exec_codeDerive_cases h
      · exact hc
      · exact fun _ => ⟨hi, rfl⟩
  · obtain ⟨-, -, htree, hcodes, -⟩ := (execTo_of_exec h).keeps
    have hmt : .tree ∉ writesOf i := fun ht => hm ((tree_mem_writesOf ht).elim (· ▸ by decide) (· ▸ by decide))
    rwa [State.CodesOk, htree hmt, hcodes hm]

/-- Settles O32: a step that executes no command keeps tree and table, or resets both. -/
theorem codesOkKept : Obligations.CodesOkKept := by
  intro s t hc h
  cases stepTo_of_step h with
  | executes _ _ _ he => exact exec_keeps_codesOk (s := afterInput s) hc he
  | resets => exact resetHasInvariants.codes
  | illegal | clearsFlags | accepts | overruns | storesByte | quiet => exact hc

/-! ### A strict binary tree, in the spec's own clauses (R48) -/

/-- What `f` gives for the record at a handle; nothing where there is no record. -/
def atHandle {β : Type} (nodes : List Node) (f : Node → List β) (i : Nat) : List β := (nodes[i]?.map f).getD []

theorem atHandle_of_record {β : Type} {nodes : List Node} {i : Nat} {n : Node} (h : nodes[i]? = some n)
    (f : Node → List β) : atHandle nodes f i = f n := by
  rw [atHandle, h, Option.map_some, Option.getD_some]

/-- All records, visited in the order of a list that holds every handle once. -/
theorem flatMap_perm_atHandle {β : Type} {nodes : List Node} {hs : List Nat} (hp : hs.Perm (List.range nodes.length))
    (f : Node → List β) : (nodes.flatMap f).Perm (hs.flatMap (atHandle nodes f)) := by
  have hmap : nodes.map f = (List.range nodes.length).map (atHandle nodes f) := by
    refine List.ext_getElem (by simp) fun i h₁ h₂ => ?_
    have hi : i < nodes.length := by simpa using h₁
    simp [atHandle, hi]
  rw [List.flatMap_def, hmap, ← List.flatMap_def]
  exact (hp.flatMap_right _).symm

/-- The children of the records of a span are its handles, each once, but for the root. -/
theorem cons_children_perm {nodes : List Node} {sh : Shape} {h : Handle} {hs : List Nat} (s : Spans nodes sh h hs) :
    (h.toNat :: hs.flatMap (atHandle nodes Node.children)).Perm hs := by
  induction sh generalizing h hs with
  | leaf sym =>
    obtain ⟨rfl, n, hn, hk, -⟩ := s
    simp [atHandle_of_record hn, Node.children, hk]
  | node l r ihl ihr =>
    obtain ⟨n, ls, rs, hn, hk, rfl, sl, sr⟩ := s
    have hroot : atHandle nodes Node.children h.toNat = [n.left.toNat, n.right.toNat] := by
      rw [atHandle_of_record hn, Node.children, hk]
    rw [List.flatMap_cons, hroot, List.flatMap_append]
    refine List.Perm.cons _ (List.Perm.trans ?_ ((ihl sl).append (ihr sr)))
    simpa using List.perm_middle.symm

/-- The symbol of a leaf. -/
def leafSymbol (n : Node) : List Byte := if n.kind = .leaf then [n.sym] else []

theorem leafSymbols_eq_flatMap (nodes : List Node) : leafSymbols nodes = nodes.flatMap leafSymbol := by
  induction nodes with
  | nil => rfl
  | cons n nodes ih =>
    rw [List.flatMap_cons, ← ih, leafSymbols, leafSymbols, leafSymbol, List.filter_cons]
    cases n.kind <;> rfl

theorem symbols_of_spans {nodes : List Node} {sh : Shape} {h : Handle} {hs : List Nat} (s : Spans nodes sh h hs) :
    hs.flatMap (atHandle nodes leafSymbol) = sh.symbols := by
  induction sh generalizing h hs with
  | leaf sym =>
    obtain ⟨rfl, n, hn, hk, rfl⟩ := s
    simp [atHandle_of_record hn, leafSymbol, hk, Shape.symbols]
  | node l r ihl ihr =>
    obtain ⟨n, ls, rs, hn, hk, rfl, sl, sr⟩ := s
    rw [List.flatMap_cons, List.flatMap_append, ihl sl, ihr sr, atHandle_of_record hn, leafSymbol, hk]
    rfl

/-- Following children leads to ever smaller shapes. -/
theorem exists_smaller_of_transGen {nodes : List Node} {sh : Shape} {h : Handle} {hs : List Nat}
    (s : Spans nodes sh h hs) {b : Nat} (c : Relation.TransGen (ChildOf nodes) h.toNat b) :
    ∃ sh' h' hs', Spans nodes sh' h' hs' ∧ h'.toNat = b ∧ sh'.size < sh.size := by
  induction c with
  | single c => exact s.child c
  | tail _ c ih =>
    obtain ⟨sh₁, h₁, hs₁, s₁, rfl, lt₁⟩ := ih
    obtain ⟨sh₂, h₂, hs₂, s₂, e₂, lt₂⟩ := s₁.child c
    exact ⟨sh₂, h₂, hs₂, s₂, e₂, lt₂.trans lt₁⟩

/-- A handle that spans a shape is on no cycle: its own shape would be smaller than itself. -/
theorem not_transGen_self {nodes : List Node} {sh : Shape} {h : Handle} {hs : List Nat} (s : Spans nodes sh h hs) :
    ¬Relation.TransGen (ChildOf nodes) h.toNat h.toNat := by
  intro c
  obtain ⟨sh', h', hs', s', e, lt⟩ := exists_smaller_of_transGen s c
  obtain rfl := BitVec.eq_of_toNat_eq e
  rw [(s'.unique s).1] at lt
  exact lt.false

theorem lt_length_of_childOf {nodes : List Node} {a b : Nat} (c : ChildOf nodes a b) : a < nodes.length := by
  obtain ⟨n, hn, -⟩ := c
  exact (List.getElem?_eq_some_iff.mp hn).1

/-- R48's clauses, from a span that visits every handle once. -/
theorem strictTree_clauses {nodes : List Node} {root : Handle} (st : StrictTree nodes root) :
    root.toNat < nodes.length ∧
      (∀ n ∈ nodes, n.kind = .internal → n.left.toNat < nodes.length ∧ n.right.toNat < nodes.length) ∧
      (∀ h, h < nodes.length → h ≠ root.toNat → (nodes.flatMap Node.children).count h = 1) ∧
      (nodes.flatMap Node.children).count root.toNat = 0 ∧ (leafSymbols nodes).Nodup ∧
      (∀ h, ¬Relation.TransGen (ChildOf nodes) h h) ∧
      (∀ h, h < nodes.length → Relation.ReflTransGen (ChildOf nodes) root.toNat h) ∧
      nodes.length + 1 = 2 * (leafSymbols nodes).length := by
  obtain ⟨sh, hs, sp, hp, hn⟩ := st
  have hmem {i : Nat} (hi : i < nodes.length) : i ∈ hs := hp.mem_iff.mpr (List.mem_range.mpr hi)
  have hchildren : (root.toNat :: nodes.flatMap Node.children).Perm (List.range nodes.length) :=
    ((flatMap_perm_atHandle hp _).cons _).trans ((cons_children_perm sp).trans hp)
  have hcount {i : Nat} (hi : i < nodes.length) : (root.toNat :: nodes.flatMap Node.children).count i = 1 :=
    (hchildren.count_eq i).trans (List.count_eq_one_of_mem List.nodup_range (List.mem_range.mpr hi))
  have hsymbols : (leafSymbols nodes).Perm sh.symbols := by
    rw [leafSymbols_eq_flatMap, ← symbols_of_spans sp]
    exact flatMap_perm_atHandle hp _
  refine ⟨sp.root_lt, fun n hnode hk => ?_, fun i hi hne => ?_, ?_, hsymbols.nodup_iff.mpr hn, fun i c => ?_,
    fun i hi => (sp.reaches i (hmem hi)).1, ?_⟩
  · obtain ⟨i, hi, rfl⟩ := List.getElem_of_mem hnode
    obtain ⟨-, sh', h', hs', sp', rfl⟩ := sp.reaches i (hmem hi)
    cases sh' with
    | leaf sym => exact nomatch hk.symm.trans (sp'.kind_leaf (List.getElem?_eq_getElem hi)).1
    | node l r =>
      obtain ⟨m, ls, rs, hm, -, -, sl, sr⟩ := sp'
      cases (List.getElem?_eq_getElem hi).symm.trans hm
      exact ⟨sl.root_lt, sr.root_lt⟩
  · rw [← List.count_cons_of_ne hne.symm, hcount hi]
  · have := hcount sp.root_lt
    rwa [List.count_cons_self, Nat.add_eq_right] at this
  · obtain ⟨b, c₁, -⟩ := Relation.TransGen.head'_iff.mp c
    obtain ⟨-, sh', h', hs', sp', rfl⟩ := sp.reaches i (hmem (lt_length_of_childOf c₁))
    exact not_transGen_self sp' c
  · rw [← sp.size_eq_of_perm hp, sh.size_eq, hsymbols.length_eq]

/-- Settles O33: SINGLE and MULTI trees are strict, and the other states have no records. -/
theorem strictBinaryTree : Obligations.StrictBinaryTree := by
  rintro t ⟨-, -, hs⟩
  cases e : t.state <;> rw [e] at hs
  · exact ⟨fun _ => congrArg List.length hs.1, nofun, nofun, nofun⟩
  · exact ⟨fun _ => congrArg List.length hs.1, nofun, nofun, nofun⟩
  · obtain ⟨st, hroot, n, hnodes, hk⟩ := hs
    refine ⟨nofun, fun _ => ⟨congrArg List.length hnodes, hroot, n, ?_, hk⟩, nofun, fun _ => strictTree_clauses st⟩
    rw [Tree.node?, hnodes]
    rfl
  · exact ⟨nofun, nofun, fun _ => hs.2, fun _ => strictTree_clauses hs.1⟩

end Sys2Proof.Proofs
end

-- TREE_LOAD (43_tree.md R156)
section

namespace Sys2Proof.Proofs

open Sys2Proof.Machine

theorem exec_treeLoad_of_not_rangeOk {s : State} (h : ¬s.RangeOk s.srcOperand s.lengthOperand) :
    exec .treeLoad s = finish s (.error ⟨.badAddr, s.larg[0], s.larg[1]⟩) := by
  rw [exec, execTreeLoad, checkRange_error h, State.srcOperand, State.lengthOperand, BitVec.ofNat_toNat,
    BitVec.ofNat_toNat, BitVec.setWidth_eq, BitVec.setWidth_eq]

theorem exec_treeLoad_of_error {s : State} {e : Raise} (h : s.RangeOk s.srcOperand s.lengthOperand)
    (hl : loadTree (fun i => s.memRead (s.srcOperand + i)) s.lengthOperand = .error e) :
    exec .treeLoad s = finish s (.error e) := by
  simp only [exec, execTreeLoad, checkRange_ok h, hl]

theorem treeLoaded_changesOnly (s : State) (t : Tree) (leaves : Nat) :
    ChangesOnly s (treeLoaded s t leaves) [.tree, .codes, .res 0, .res 1, .res 2] := by
  refine changesOnly_of (treeLoaded_completed s t leaves) (fun n hp => ?_) (fun _ => rfl) (fun _ => rfl)
    (fun hp => absurd (by simp) hp) (fun hp => absurd (by simp) hp) fun _ => sameBytes_of_dmem rfl
  simp only [List.mem_cons, Part.res.injEq, reduceCtorEq, false_or, List.not_mem_nil, or_false, not_or] at hp
  exact setTreeResults_res.2.2.2 n hp.1 hp.2.1 hp.2.2

theorem treeLoaded_res (s : State) (t : Tree) (leaves : Nat) :
    (treeLoaded s t leaves).res[0] = t.root.setWidth 32 ∧
      (treeLoaded s t leaves).res[1] = BitVec.ofNat 32 t.nodeCount ∧
      (treeLoaded s t leaves).res[2] = BitVec.ofNat 32 leaves := by
  obtain ⟨h0, h1, h2, -⟩ := setTreeResults_res (s := s.setTree t) (t := t) (leaves := leaves)
  exact ⟨h0, h1, h2⟩

theorem bytesAt_of_bytesAt_eq {s : State} {src m : Nat} {bytes : List Byte} (h : s.bytesAt src m = bytes) :
    BytesAt (fun i => s.memRead (src + i)) 0 bytes := by
  subst h
  intro i hi
  simp only [State.bytesAt, List.getElem_map, List.getElem_range, Nat.zero_add]

/-- Settles O48: the descriptor of a shape loads completely, and no bytes load as the EMPTY tree. -/
theorem treeLoadRebuildsTree : Obligations.TreeLoadRebuildsTree := by
  refine fun s => ⟨fun h => failsWith_of_finish (exec_treeLoad_of_not_rangeOk h), fun hm => ?_, fun sh hr hbytes hn => ?_⟩
  · have hm : s.lengthOperand = 0 := hm
    have hl := (congrArg (loadTree fun i => s.memRead (s.srcOperand + i)) hm).trans (loadTree_zero _)
    obtain ⟨h0, h1, h2⟩ := treeLoaded_res s { nodes := [], root := Config.nil, state := .empty } 0
    exact ⟨_, exec_treeLoad_of_loadTree (.inl hm) hl, treeLoaded_changesOnly _ _ _, rfl, rfl, h0, h1, h2⟩
  · have hlen : s.lengthOperand = sh.descriptor.length := by rw [← hbytes, length_bytesAt, State.lengthOperand]
    obtain ⟨t, hl, p⟩ := loadTree_complete (bytesAt_of_bytesAt_eq hbytes) hn
    rw [← hlen] at hl
    obtain ⟨h0, h1, h2⟩ := treeLoaded_res s t sh.symbols.length
    have hcap : t.nodeCount ≤ 511 := p.ok.1
    have hle := length_le_of_nodup hn
    refine ⟨_, exec_treeLoad_of_loadTree hr hl, treeLoaded_changesOnly _ _ _, rfl, p.shape, p.preorder, p.root, ?_,
      fun n hn => ⟨p.weights n hn, p.ok.2.1 n hn⟩, ?_, ?_, ?_⟩
    · exact (congrArg (· + 1) p.count).trans sh.size_eq
    · rw [h0, p.root]
      rfl
    · rw [h1, toNat_ofNat_of_le_767 (by omega)]
      rfl
    · rw [h2, toNat_ofNat_of_le_767 (by omega)]

/-- Reading the bytes left to right finds what the parser raises, and the parser answers a tree where it finds nothing. -/
theorem loadTree_of_descriptorFault (d : Nat → Byte) {m : Nat} (hm : 0 < m) :
    (∀ pos sub, descriptorFault d m 513 1 0 0 [] = some (pos, sub) → loadTree d m = .error (descMalformed pos sub)) ∧
      (descriptorFault d m 513 1 0 0 [] = none → ∃ t leaves, loadTree d m = .ok (t, leaves)) := by
  obtain ⟨herr, hok⟩ := descriptorFault_of_parseNode d m (Config.nodeCap + 1) { pos := 0, nodes := [], seen := [] } 0 513
    (by decide) (by decide) (by decide)
  simp only [loadTree, if_neg hm.ne']
  cases hp : parseNode d m (Config.nodeCap + 1) { pos := 0, nodes := [], seen := [] } with
  | error e =>
    obtain ⟨pos, sub, rfl, hf⟩ := herr e hp
    refine ⟨fun pos' sub' h => ?_, fun h => nomatch h.symm.trans hf⟩
    cases h.symm.trans hf
    rfl
  | ok r =>
    obtain ⟨root, st⟩ := r
    obtain ⟨F, hF, hcap, -, hf⟩ := hok root st hp
    obtain ⟨F, rfl⟩ : ∃ k, F = k + 1 := ⟨F - 1, by simp only [List.length_nil] at hF; omega⟩
    have hf : descriptorFault d m 513 1 0 0 [] = if st.pos < m then some (st.pos, 4) else none :=
      hf.trans (by rw [descriptorFault, if_pos rfl])
    rw [hf]
    by_cases hpos : st.pos < m
    · rw [if_pos hpos]
      refine ⟨fun pos sub h => ?_, nofun⟩
      cases h
      exact if_pos hpos
    · rw [if_neg hpos]
      exact ⟨nofun, fun _ => ⟨_, _, if_neg hpos⟩⟩

/-- Settles O49: `parseNode` and `descriptorFault` find the same first failing check. -/
theorem treeLoadFindsFirstFault : Obligations.TreeLoadFindsFirstFault := by
  intro s src m hr hm
  obtain ⟨hfault, hnone⟩ := loadTree_of_descriptorFault (fun i => s.memRead (src + i)) hm
  refine ⟨fun pos sub h => failsWith_of_finish (exec_treeLoad_of_error hr (hfault pos sub h)), fun h => ?_⟩
  obtain ⟨t, leaves, hl⟩ := hnone h
  exact ⟨_, exec_treeLoad_of_loadTree hr hl, treeLoaded_completed _ _ _⟩

end Sys2Proof.Proofs
end

-- The codes of a derived table (44_code.md R182)
section

namespace Sys2Proof.Proofs

open Sys2Proof.Machine

/-- The codes of two leaves of one tree are never one a prefix of the other (R182). -/
theorem codes_not_prefix {x : Shape} {a b : Byte} {c d : List Bool} (ha : (a, c) ∈ x.codes) (hb : (b, d) ∈ x.codes)
    (hne : a ≠ b) : ¬c <+: d := by
  intro h
  cases x with
  | leaf sym => simp_all [Shape.codes]
  | node l r =>
    have hcd : c = d := Shape.paths_prefixFree _ ha _ hb h
    have heq := List.inj_on_of_nodup_map (Shape.paths_snd_nodup (.node l r)) ha hb hcd
    exact hne (congrArg Prod.fst heq)

section

variable {sh : Option Shape} {c : CodeTable} (d : Derives sh c) (hn : ∀ x ∈ sh, x.symbols.Nodup)

include d hn

/-- A nonempty entry of a derived table is a code of the tree. -/
theorem mem_codesOf_of_has {sym : Byte} {bits : List Bool} (h : c.Has sym bits) (hne : bits ≠ []) :
    (sym, bits) ∈ codesOf sh := by
  have hlen : c.len[sym.toNat] ≠ 0#8 := by
    intro h0
    have := h.1
    rw [h0] at this
    exact hne (List.length_eq_zero_iff.mp this)
  obtain ⟨⟨_, bits'⟩, hp, rfl⟩ := List.mem_map.mp ((len_ne_zero_iff d hn).mp hlen)
  have hbits : bits = bits' := h.eq_code.trans (has_of_mem_codesOf d hn hp).eq_code.symm
  exact hbits ▸ hp

/-- The symbols with a code in a derived table are the tree's (R181). -/
theorem codedSymbols_perm : (presentSymbols (c.len.map (BitVec.setWidth 32))).Perm ((codesOf sh).map Prod.fst) := by
  refine (List.perm_ext_iff_of_nodup (presentSymbols_nodup _) (nodup_codesOf_symbols hn)).mpr fun sym => ?_
  rw [mem_presentSymbols, Vector.getElem_map, ne_eq, setWidth_eq_zero_iff, ← len_ne_zero_iff d hn]

end

/-- A sum over symbols that leaves out those without a code. -/
theorem sum_over_coded (len : Vector (BitVec 8) 256) (f : Nat → Nat) :
    (((List.range 256).map (BitVec.ofNat 8)).map fun sym => if len[sym.toNat] = 0#8 then 0 else f len[sym.toNat].toNat).sum =
      ((presentSymbols (len.map (BitVec.setWidth 32))).map fun sym => f len[sym.toNat].toNat).sum := by
  rw [presentSymbols]
  induction (List.range 256).map (BitVec.ofNat 8) with
  | nil => rfl
  | cons sym symbols ih =>
    rw [List.map_cons, List.sum_cons, ih, List.filter_cons]
    by_cases h : len[sym.toNat] = 0#8
    · simp [h]
    · simp [h, setWidth_eq_zero_iff]

/-- Settles O52: the codes are the tree's paths, which are prefix-free and fill the Kraft sum. -/
theorem codesArePrefixFree : Obligations.CodesArePrefixFree := by
  intro s t hk hi he
  cases (exec_codeDerive_of_ne_invalid hi).symm.trans he
  obtain ⟨sh, hs, -⟩ := hk.exists_shape hi
  obtain ⟨d, hn⟩ := derives_of_hasShape hk hs
  refine ⟨fun a b c e ha hb hab hc he => ?_, fun hm => ?_⟩
  · obtain ⟨x, hx, hac⟩ := mem_codesOf.mp (mem_codesOf_of_has d hn ha hc)
    obtain ⟨y, hy, hbe⟩ := mem_codesOf.mp (mem_codesOf_of_has d hn hb he)
    cases hx.symm.trans hy
    exact codes_not_prefix hac hbe hab
  · obtain ⟨l, r, rfl⟩ : ∃ l r, sh = some (.node l r) := by
      match sh, hs with
      | none, hs => exact nomatch hm.symm.trans hs
      | some (.leaf _), hs => exact nomatch hm.symm.trans hs.1
      | some (.node l r), _ => exact ⟨l, r, rfl⟩
    have hpaths : ∀ p ∈ (Shape.node l r).paths, p.2.length ≤ 255 := fun p hp => (Shape.codes_length (hn _ rfl) p hp).2
    have hlen : ∀ p ∈ (Shape.node l r).paths, (deriveCodes s.tree).len[p.1.toNat].toNat = p.2.length :=
      fun p hp => (has_of_mem_codesOf d hn (p := p) hp).1.symm
    refine (sum_over_coded (deriveCodes s.tree).len fun n => 2 ^ (255 - n)).trans ?_
    rw [((codedSymbols_perm d hn).map _).sum_eq, List.map_map, ← Shape.kraft hpaths]
    refine congrArg List.sum (List.map_congr_left fun p hp => ?_)
    rw [Function.comp_apply, hlen p hp]

end Sys2Proof.Proofs
end

-- ENCODE (45_bitstream.md R191)
section

namespace Sys2Proof.Proofs

open Sys2Proof.Machine

/-! ### What ENCODE leaves -/

theorem encoded_changesOnly (s : State) (total : Nat) (st : Store) :
    ChangesOnly s (encoded s total st) [.dmem, .res 0, .res 1] := by
  refine changesOnly_of (SameRest.completed (by constructor <;> rfl)) (fun n hp => ?_) (fun _ => rfl) (fun _ => rfl)
    (fun _ => rfl) (fun _ => rfl) fun hp => absurd List.mem_cons_self hp
  exact (shownPair_changesOnly (s.memWrite st) _ _).others (.res n) fun hn => hp (List.mem_cons_of_mem _ hn)

theorem encoded_holdsBytes (s : State) (total : Nat) (st : Store) : HoldsBytes (encoded s total st) st.base st.bytes :=
  s.holdsBytes_memWrite st

theorem encoded_sameBytesOutside (s : State) (total : Nat) (st : Store) :
    SameBytesOutside s (encoded s total st) st.base st.bytes.length :=
  s.sameBytesOutside_memWrite st

/-! ### The checks, in order -/

/-- The bits of the first `k` input bytes. -/
def inputBits (s : State) (k : Nat) : List Bool := (s.bytesAt s.srcOperand k).flatMap s.codes.code

/-- The scan of the whole input, when every byte has a code and the bits fit. -/
theorem encodeScan_inputBits {s : State} (hc : ∀ b ∈ s.bytesAt s.srcOperand s.lengthOperand, s.codes.code b ≠ [])
    (ht : (inputBits s s.lengthOperand).length ≤ Config.maxBitCount) :
    encodeScan s.codes (fun i => s.memRead (s.srcOperand + i)) s.lengthOperand 0 0 =
      .ok (inputBits s s.lengthOperand) := by
  rw [inputBits, bytesAt_eq_inputFrom] at ht ⊢
  rw [bytesAt_eq_inputFrom] at hc
  exact encodeScan_ok hc (by rwa [Nat.zero_add])

section

variable {s : State}

theorem encodeStore_no_codes (hv : s.codes.valid = false) : s.encodeStore = .error ⟨.noCodes, 0#32, 0#32⟩ := by
  simp only [State.encodeStore, requireCodes_error hv]

variable (hv : s.codes.valid = true)

include hv

theorem encodeStore_bad_src (h : ¬s.RangeOk s.srcOperand s.lengthOperand) :
    s.encodeStore = .error ⟨.badAddr, s.larg[0], s.larg[1]⟩ := by
  simp only [State.encodeStore, requireCodes_ok hv, checkRange_error h]
  simp [State.srcOperand, State.lengthOperand]

variable (hsrc : s.RangeOk s.srcOperand s.lengthOperand)

include hsrc

theorem encodeStore_scan_error {e : Raise}
    (h : encodeScan s.codes (fun i => s.memRead (s.srcOperand + i)) s.lengthOperand 0 0 = .error e) :
    s.encodeStore = .error e := by
  simp only [State.encodeStore, requireCodes_ok hv, checkRange_ok hsrc, h]

variable {bits : List Bool}
  (hscan : encodeScan s.codes (fun i => s.memRead (s.srcOperand + i)) s.lengthOperand 0 0 = .ok bits)

include hscan

theorem encodeStore_bad_dst (h : ¬s.RangeOk s.dstOperand (bytesForBits bits.length)) :
    s.encodeStore = .error ⟨.badAddr, s.larg[2], BitVec.ofNat 32 (bytesForBits bits.length)⟩ := by
  simp only [State.encodeStore, requireCodes_ok hv, checkRange_ok hsrc, hscan, length_packBits, checkRange_error h]
  simp [State.dstOperand]

theorem encodeStore_overlap (hdst : s.RangeOk s.dstOperand (bytesForBits bits.length))
    (h : ¬RangesApart s.srcOperand s.lengthOperand s.dstOperand (bytesForBits bits.length)) :
    s.encodeStore = .error ⟨.rangeOverlap, s.larg[0], s.larg[2]⟩ := by
  simp only [State.encodeStore, requireCodes_ok hv, checkRange_ok hsrc, hscan, length_packBits, checkRange_ok hdst,
    checkOverlap_error h]
  simp [State.srcOperand, State.dstOperand]

end

theorem eq_code_of_has {c : CodeTable} {code : Byte → List Bool} (h : ∀ sym, c.Has sym (code sym)) : code = c.code :=
  funext fun sym => (h sym).eq_code

/-- Settles O54: every check passes, and the packed codes are stored. -/
theorem encodeStoresCodes : Obligations.EncodeStoresCodes := by
  intro s code hv hcode
  obtain rfl := eq_code_of_has hcode
  intro src n dst bits nb hsrc hcoded hfit hdst hap
  have hstore := encodeStore_ok hv hsrc (encodeScan_inputBits hcoded hfit) hdst hap
  have hlen : (packBits bits).length = nb := length_packBits bits
  refine ⟨_, exec_encode_of_store hstore, encoded_changesOnly _ _ _, holdsBits_of_packed (encoded_holdsBytes s _ _),
    fun k hk hk' => ?_, ?_, ?_, ?_⟩
  · exact (bit_of_packed (bits := bits) (encoded_holdsBytes s bits.length ⟨dst, packBits bits⟩) hk').trans
      (List.getD_eq_default _ _ hk)
  · exact hlen ▸ encoded_sameBytesOutside s bits.length ⟨dst, packBits bits⟩
  · rw [encoded, shownPair_res0, BitVec.toNat_ofNat]
    exact Nat.mod_eq_of_lt (Nat.lt_of_le_pred (by decide) hfit)
  · rw [encoded, shownPair_res1, BitVec.toNat_ofNat]
    refine (Nat.mod_eq_of_lt ?_).trans hlen
    show (packBits bits).length < 2 ^ 32
    omega

/-- Settles O55: the checks of `encodeStore` in order; the scan stops at the first byte without a code or without room. -/
theorem encodeErrors : Obligations.EncodeErrors := by
  intro s code hcode
  obtain rfl := eq_code_of_has hcode
  intro src n dst bits nb
  have fails {c : ErrCode} {a b : Word} (h : s.encodeStore = .error ⟨c, a, b⟩) : FailsWith .encode s c a b :=
    failsWith_of_finish (exec_encode_of_error h)
  refine ⟨fun hv => fails (encodeStore_no_codes hv), fun hv => ⟨fun hn => fails (encodeStore_bad_src hv hn), fun hsrc =>
    ⟨fun i hi hc ht h0 => ?_, fun i hi hc ht ho => ?_, fun hc ht => ?_⟩⟩⟩
  · have hscan := encodeScan_unknown (c := s.codes) (input := fun i => s.memRead (s.srcOperand + i)) (i := 0) (total := 0) hi
      (by rwa [← bytesAt_eq_inputFrom]) (by rwa [← bytesAt_eq_inputFrom, Nat.zero_add]) (by rwa [Nat.zero_add])
    rw [Nat.zero_add] at hscan
    exact fails (encodeStore_scan_error hv hsrc hscan)
  · have hscan := encodeScan_overflow (c := s.codes) (input := fun i => s.memRead (s.srcOperand + i)) (i := 0) (total := 0) hi
      (by rwa [← bytesAt_eq_inputFrom]) (by rwa [← bytesAt_eq_inputFrom, Nat.zero_add])
      (by rwa [← bytesAt_eq_inputFrom, Nat.zero_add])
    rw [Nat.zero_add] at hscan
    exact fails (encodeStore_scan_error hv hsrc hscan)
  · have hscan := encodeScan_inputBits hc ht
    exact ⟨fun hn => fails (encodeStore_bad_dst hv hsrc hscan hn),
      fun hdst hn => fails (encodeStore_overlap hv hsrc hscan hdst hn)⟩

end Sys2Proof.Proofs
end

-- DECODE (45_bitstream.md R192)
section

namespace Sys2Proof.Proofs

open Sys2Proof.Machine

/-! ### What DECODE leaves -/

theorem decoded_changesOnly (s : State) (st : Store) : ChangesOnly s (decoded s st) [.dmem, .res 0] := by
  refine changesOnly_of (SameRest.completed (by constructor <;> rfl)) (fun n hp => ?_) (fun _ => rfl) (fun _ => rfl)
    (fun _ => rfl) (fun _ => rfl) fun hp => absurd List.mem_cons_self hp
  exact (setRes_changesOnly (s.memWrite st) 0 _).others (.res n) fun hn => hp (List.mem_cons_of_mem _ hn)

theorem decoded_res0 (s : State) (st : Store) : (decoded s st).res[0] = BitVec.ofNat 32 st.bytes.length :=
  Vector.getElem_set_self (by decide)

theorem decoded_holdsBytes (s : State) (st : Store) : HoldsBytes (decoded s st) st.base st.bytes :=
  s.holdsBytes_memWrite st

theorem decoded_sameBytesOutside (s : State) (st : Store) :
    SameBytesOutside s (decoded s st) st.base st.bytes.length :=
  s.sameBytesOutside_memWrite st

/-! ### The checks, in order -/

section

variable {s : State}

theorem decodeStore_no_tree (h : s.tree.state = .invalid) : s.decodeStore = .error ⟨.noTree, 0#32, 0#32⟩ := by
  simp only [State.decodeStore, requireTree_error h]

variable (hi : s.tree.state ≠ .invalid)

include hi

theorem decodeStore_bad_src (h : ¬s.RangeOk s.srcOperand (bytesForBits s.lengthOperand)) :
    s.decodeStore = .error ⟨.badAddr, s.larg[0], BitVec.ofNat 32 (bytesForBits s.lengthOperand)⟩ := by
  simp only [State.decodeStore, requireTree_ok hi, checkRange_error h]
  simp [State.srcOperand]

variable (hsrc : s.RangeOk s.srcOperand (bytesForBits s.lengthOperand))

include hsrc

theorem decodeStore_symbols_error {e : Raise}
    (h : decodeSymbols s.tree (s.streamBit s.srcOperand) s.lengthOperand = .error e) : s.decodeStore = .error e := by
  simp only [State.decodeStore, requireTree_ok hi, checkRange_ok hsrc, h]

variable {out : List Byte} (hdec : decodeSymbols s.tree (s.streamBit s.srcOperand) s.lengthOperand = .ok out)

include hdec

theorem decodeStore_bad_dst (h : ¬s.RangeOk s.dstOperand out.length) :
    s.decodeStore = .error ⟨.badAddr, s.larg[2], BitVec.ofNat 32 out.length⟩ := by
  simp only [State.decodeStore, requireTree_ok hi, checkRange_ok hsrc, hdec, checkRange_error h]
  simp [State.dstOperand]

theorem decodeStore_overlap (hdst : s.RangeOk s.dstOperand out.length)
    (h : ¬RangesApart s.srcOperand (bytesForBits s.lengthOperand) s.dstOperand out.length) :
    s.decodeStore = .error ⟨.rangeOverlap, s.larg[0], s.larg[2]⟩ := by
  simp only [State.decodeStore, requireTree_ok hi, checkRange_ok hsrc, hdec, checkRange_ok hdst, checkOverlap_error h]
  simp [State.srcOperand, State.dstOperand]

end

theorem decodeSymbols_of_no_bits (t : Tree) (stream : Nat → Bool) : decodeSymbols t stream 0 = .ok [] := by
  simp [decodeSymbols, decodeScan]

/-- No code is empty, so a stream has at least as many bits as symbols. -/
theorem length_le_of_codes {sh : Shape} {code : Byte → List Bool} {out : List Byte}
    (h : ∀ sym ∈ out, (sym, code sym) ∈ sh.codes) : out.length ≤ (out.flatMap code).length := by
  have hpos : ∀ p ∈ sh.codes, 1 ≤ p.2.length := by
    cases sh with
    | leaf sym => simp [Shape.codes]
    | node l r =>
      intro p hp
      obtain hp | hp := List.mem_append.mp hp <;> obtain ⟨q, -, rfl⟩ := List.mem_map.mp hp <;> simp
  rw [List.length_flatMap, ← List.length_map (f := fun sym => (code sym).length)]
  refine (List.length_le_sum_of_one_le _ (List.forall_mem_map.mpr fun sym hs => hpos _ (h sym hs)))

/-- Settles O56: every check passes; no bits leave DMEM as it is. -/
theorem decodeStoresSymbols : Obligations.DecodeStoresSymbols := by
  intro s hk hi src bc dst nb hsrc
  refine ⟨fun hbc => ?_, fun sh code out hs hcode hbits hlen hdst hap => ?_⟩
  · have hdec : decodeSymbols s.tree (s.streamBit s.srcOperand) s.lengthOperand = .ok [] :=
      (congrArg _ hbc).trans (decodeSymbols_of_no_bits _ _)
    have hstore := decodeStore_ok hi hsrc hdec (.inl rfl) (.inr (.inl rfl))
    exact ⟨_, exec_decode_of_store hstore, setRes_changesOnly s 0 0#32, decoded_res0 _ _⟩
  · have hdec : decodeSymbols s.tree (s.streamBit s.srcOperand) s.lengthOperand = .ok out := by
      rw [show s.lengthOperand = (out.flatMap code).length from hlen.symm]
      exact decodeSymbols_codes hk hs code out hcode (streamHas_of_holdsBits hbits)
    have hout : out.length ≤ s.larg[1].toNat := (length_le_of_codes hcode).trans_eq hlen
    refine ⟨_, exec_decode_of_store (decodeStore_ok hi hsrc hdec hdst hap), decoded_changesOnly _ _,
      decoded_holdsBytes s _, decoded_sameBytesOutside s _, ?_⟩
    rw [decoded_res0, BitVec.toNat_ofNat, Nat.mod_eq_of_lt (hout.trans_lt s.larg[1].isLt)]

/-! ### Where the stream is at fault -/

theorem decodeSymbols_of_scan_error {t : Tree} {stream : Nat → Bool} {bc : Nat} {e : Raise}
    (h : decodeScan t stream bc 0 { at_ := t.root, start := 0, out := [] } = .error e) :
    decodeSymbols t stream bc = .error e := by
  rw [decodeSymbols, h]

/-- A bit of an EMPTY tree's stream (R192). -/
theorem decodeSymbols_of_empty {t : Tree} (he : t.state = .empty) (stream : Nat → Bool) {bc : Nat} (hbc : 0 < bc) :
    decodeSymbols t stream bc = .error ⟨.corruptTree, 0#32, 0#32⟩ := by
  obtain ⟨n, rfl⟩ := Nat.exists_eq_succ_of_ne_zero hbc.ne'
  refine decodeSymbols_of_scan_error ?_
  simp [decodeScan, decodeBit, he, corruptTree]

/-- The first 1 bit of a lone leaf's stream (R192): the symbols before it are as many as the bits. -/
theorem decodeSymbols_of_single {t : Tree} (hs : t.state = .single) {n : Node} (hn : t.node? t.root = some n)
    {stream : Nat → Bool} {bc k : Nat} (hk : k < bc) (hz : ∀ j, j < k → stream j = false) (h1 : stream k = true) :
    decodeSymbols t stream bc = .error ⟨.corruptTree, BitVec.ofNat 32 k, BitVec.ofNat 32 k⟩ := by
  obtain ⟨rest, rfl⟩ : ∃ rest, bc = k + (rest + 1) := ⟨bc - (k + 1), by omega⟩
  obtain ⟨start, e⟩ := decodeScan_single hs hn (count := k) (rest := rest + 1) (k := 0) (stream := stream) (h := t.root)
    (start := 0) (out := []) fun j hj => (congrArg stream (Nat.zero_add j)).trans (hz j hj)
  refine decodeSymbols_of_scan_error (e.trans ?_)
  simp [decodeScan, decodeBit, hs, h1, corruptTree]

/-- In a MULTI tree every bit has a node to lead to, so bits that end inside a code are all that can go wrong (R192). -/
theorem decodeSymbols_multi_error {t : Tree} (hk : t.Ok) (hm : t.state = .multi) {stream : Nat → Bool} {bc : Nat} {e : Raise}
    (h : decodeSymbols t stream bc = .error e) : e.code = .truncatedStream := by
  obtain ⟨sh, hs, -⟩ := hk.exists_shape (by rw [hm]; decide)
  obtain ⟨l, r, hs', sp⟩ : ∃ l r hs, Spans t.nodes (.node l r) t.root hs := by
    match sh, hs with
    | none, hs => exact nomatch hm.symm.trans hs
    | some (.leaf _), hs => exact nomatch hm.symm.trans hs.1
    | some (.node l r), hs => exact ⟨l, r, hs.2⟩
  obtain ⟨w, hw⟩ := decodeScan_multi_ok hk.1 hm sp stream bc 0 { at_ := t.root, start := 0, out := [] } ⟨l, r, hs', sp⟩
  rw [decodeSymbols, hw] at h
  simp only at h
  split at h <;> cases h
  rfl

theorem decodeStore_multi_error {s : State} (hk : s.tree.Ok) (hm : s.tree.state = .multi) {e : Raise}
    (h : s.decodeStore = .error e) : e.code ≠ .corruptTree := by
  have hi : s.tree.state ≠ .invalid := by rw [hm]; decide
  by_cases hsrc : s.RangeOk s.srcOperand (bytesForBits s.lengthOperand)
  · cases hdec : decodeSymbols s.tree (s.streamBit s.srcOperand) s.lengthOperand with
    | error e' =>
      cases (decodeStore_symbols_error hi hsrc hdec).symm.trans h
      rw [decodeSymbols_multi_error hk hm hdec]
      decide
    | ok out =>
      by_cases hdst : s.RangeOk s.dstOperand out.length
      · by_cases hap : RangesApart s.srcOperand (bytesForBits s.lengthOperand) s.dstOperand out.length
        · cases (decodeStore_ok hi hsrc hdec hdst hap).symm.trans h
        · cases (decodeStore_overlap hi hsrc hdec hdst hap).symm.trans h
          exact nofun
      · cases (decodeStore_bad_dst hi hsrc hdec hdst).symm.trans h
        exact nofun
  · cases (decodeStore_bad_src hi hsrc).symm.trans h
    exact nofun

/-- No handle of a strict tree's span comes twice, so the root is not below itself. -/
theorem root_not_mem_tail {t : Tree} (hk : t.Ok) {l r : Shape} {hs : List Nat} (hm : t.state = .multi)
    (sp : Spans t.nodes (.node l r) t.root hs) : t.root.toNat ∉ hs.tail := by
  obtain ⟨-, -, h⟩ := hk
  rw [hm] at h
  obtain ⟨⟨sh', hs', sp', hp, -⟩, -⟩ := h
  obtain ⟨-, rfl⟩ := sp.unique sp'
  have hnodup := hp.nodup_iff.mpr List.nodup_range
  obtain ⟨n, ls, rs, -, -, rfl, -, -⟩ := sp
  exact (List.nodup_cons.mp hnodup).1

/-- Bits that end inside a code leave the walk below the root (R192). -/
theorem decodeSymbols_of_part {t : Tree} (hk : t.Ok) {sh : Shape} (hs : t.HasShape (some sh)) {stream : Nat → Bool}
    {code : Byte → List Bool} {out : List Byte} (hcode : ∀ sym ∈ out, (sym, code sym) ∈ sh.codes) {part : List Bool}
    (hne : part ≠ []) (hst : StreamHas stream 0 (out.flatMap code ++ part)) {sym : Byte} {c : List Bool}
    (hc : (sym, c) ∈ sh.codes) (hpre : part <+: c) (hpc : part ≠ c) :
    decodeSymbols t stream (out.flatMap code ++ part).length =
      .error ⟨.truncatedStream, BitVec.ofNat 32 (out.flatMap code).length, BitVec.ofNat 32 out.length⟩ := by
  match sh, hs with
  | .leaf _, _ =>
    obtain ⟨-, rfl⟩ := Prod.mk.inj (List.mem_singleton.mp hc)
    obtain ⟨b, tail, rfl⟩ := List.exists_cons_of_ne_nil hne
    obtain ⟨rfl, htail⟩ := List.cons_prefix_cons.mp hpre
    exact absurd (congrArg _ (List.prefix_nil.mp htail)) hpc
  | .node l r, ⟨hm, hs, sp⟩ =>
    obtain ⟨hst₁, hst₂⟩ := streamHas_append.mp hst
    rw [Nat.zero_add] at hst₂
    have hcodes := decodeScan_codes (rest := part.length) (out := []) hk.1 hm sp code out hcode hst₁
    obtain ⟨h, hpart, htail, -⟩ := decodeScan_part (start := (out.flatMap code).length) (out := out) hk.1 hm sp hc hpre hpc hst₂
    have hroot : h ≠ t.root := fun e => root_not_mem_tail hk hm sp (e ▸ htail hne)
    rw [Nat.zero_add, List.nil_append, hpart] at hcodes
    rw [decodeSymbols, List.length_append, hcodes]
    exact if_pos ⟨hm, hroot⟩

/-- Settles O57: the checks of `decodeStore` in order, with what the scan raises for each kind of tree. -/
theorem decodeErrors : Obligations.DecodeErrors := by
  intro s hk src bc dst nb
  have fails {c : ErrCode} {a b : Word} (h : s.decodeStore = .error ⟨c, a, b⟩) : FailsWith .decode s c a b :=
    failsWith_of_finish (exec_decode_of_error h)
  refine ⟨fun hi => fails (decodeStore_no_tree hi), fun hm t he => ?_, fun hi =>
    ⟨fun hn => fails (decodeStore_bad_src hi hn), fun hsrc => ?_⟩⟩
  · cases hstore : s.decodeStore with
    | ok st =>
      cases (exec_decode_of_store hstore).symm.trans he
      exact nofun
    | error e =>
      cases (exec_decode_of_error hstore).symm.trans he
      exact decodeStore_multi_error hk hm hstore
  · have scanFails {e : Raise} (h : decodeSymbols s.tree (s.streamBit s.srcOperand) s.lengthOperand = .error e) :=
      fails (decodeStore_symbols_error hi hsrc h)
    refine ⟨fun he hbc => scanFails (decodeSymbols_of_empty he _ hbc), fun hs k hbk hz h1 => ?_,
      fun sh code out hs hcode hbits => ⟨fun part hne hpart hlen ⟨sym, c, hc, hpre, hpc⟩ => ?_, fun hlen => ?_⟩⟩
    · obtain ⟨-, -, h⟩ := hk
      rw [hs] at h
      obtain ⟨-, hroot, n, hnodes, -⟩ := h
      have hn : s.tree.node? s.tree.root = some n := by rw [Tree.node?, hroot, hnodes]; rfl
      exact scanFails (decodeSymbols_of_single hs hn hbk hz h1)
    · have hdec := decodeSymbols_of_part hk hs hcode hne (streamHas_of_holdsBits hpart) hc hpre hpc
      rw [hlen] at hdec
      exact scanFails hdec
    · have hdec := decodeSymbols_codes hk hs code out hcode (streamHas_of_holdsBits hbits)
      rw [hlen] at hdec
      exact ⟨fun hn => fails (decodeStore_bad_dst hi hsrc hdec hn),
        fun hdst hn => fails (decodeStore_overlap hi hsrc hdec hdst hn)⟩

end Sys2Proof.Proofs
end

-- Encoding and decoding back (45_bitstream.md R193)
section

namespace Sys2Proof.Proofs

open Sys2Proof.Machine

/-! ### ENCODE and DECODE -/

/-- What an ENCODE that completed has found and stored (R191). -/
structure EncodedFrom (s t : State) : Prop where
  valid : s.codes.valid = true
  coded : ∀ b ∈ s.bytesAt s.srcOperand s.lengthOperand, s.codes.code b ≠ []
  fits : (inputBits s s.lengthOperand).length ≤ Config.maxBitCount
  range : s.RangeOk s.dstOperand (bytesForBits (inputBits s s.lengthOperand).length)
  result : t = encoded s (inputBits s s.lengthOperand).length
    { base := s.dstOperand, bytes := packBits (inputBits s s.lengthOperand) }

theorem encodedFrom_of_exec {s t : State} (he : exec .encode s = .next t) (hok : t.status.errCode = .ok) :
    EncodedFrom s t := by
  cases hstore : s.encodeStore with
  | error e =>
    cases (exec_encode_of_error hstore).symm.trans he
    exact absurd hok (encodeStore_raisesCode s e hstore)
  | ok r =>
    obtain ⟨total, st⟩ := r
    obtain ⟨hv, -, bits, hscan, rfl, rfl, hdst, -⟩ := encodeStore_sound hstore
    obtain ⟨hbits, hcoded, hfit⟩ := encodeScan_sound hscan (Nat.zero_le _)
    rw [← bytesAt_eq_inputFrom] at hbits hcoded
    obtain rfl : bits = inputBits s s.lengthOperand := hbits
    cases (exec_encode_of_store hstore).symm.trans he
    exact ⟨hv, hcoded, (Nat.zero_add _).symm.trans_le hfit, hdst, rfl⟩

theorem EncodedFrom.toNat_res0 {s t : State} (h : EncodedFrom s t) :
    t.res[0].toNat = (inputBits s s.lengthOperand).length := by
  rw [h.result, encoded, shownPair_res0, BitVec.toNat_ofNat]
  exact Nat.mod_eq_of_lt (Nat.lt_of_le_pred (by decide) h.fits)

theorem EncodedFrom.holdsBits {s t u : State} (h : EncodedFrom s t) (hmem : ∀ a, u.memRead a = t.memRead a) :
    HoldsBits u s.dstOperand (inputBits s s.lengthOperand) := by
  refine holdsBits_of_packed fun i hi => ?_
  rw [hmem, h.result]
  exact encoded_holdsBytes s _ _ i hi

/-- The codes of a byte string decode to it, in every tree of the shape that the codes were derived from. -/
theorem decodeSymbols_of_derived {t t' : Tree} (hk : t.Ok) (hi : t.state ≠ .invalid) (hk' : t'.Ok)
    (hshape : ∀ sh, t.HasShape sh → t'.HasShape sh) {stream : Nat → Bool} {input : List Byte}
    (hcoded : ∀ b ∈ input, (deriveCodes t).code b ≠ [])
    (hst : StreamHas stream 0 (input.flatMap (deriveCodes t).code)) :
    decodeSymbols t' stream (input.flatMap (deriveCodes t).code).length = .ok input := by
  obtain ⟨sh, hs, -⟩ := hk.exists_shape hi
  obtain ⟨d, hn⟩ := derives_of_hasShape hk hs
  have hcodes : ∀ b ∈ input, (b, (deriveCodes t).code b) ∈ codesOf sh := fun b hb =>
    mem_codesOf_of_has d hn (CodeTable.has_code _ b) (hcoded b hb)
  cases sh with
  | none =>
    obtain rfl : input = [] := List.eq_nil_iff_forall_not_mem.mpr fun b hb => List.not_mem_nil (hcodes b hb)
    exact decodeSymbols_of_no_bits _ _
  | some x => exact decodeSymbols_codes hk' (hshape _ hs) _ input hcodes hst

/-- Settles O58: the stream that DECODE reads is the codes of the input, and the ranges are those asked for. -/
theorem encodeDecodeRoundTrip : Obligations.EncodeDecodeRoundTrip := by
  intro s t u hk hc he hcompleted hku hshape hmem hlast hsrc hlen n dst hdst hap
  have h := encodedFrom_of_exec he (by rw [hcompleted.status])
  obtain ⟨hi, hcodes⟩ := hc h.valid
  have hbc : u.lengthOperand = (inputBits s s.lengthOperand).length := by rw [State.lengthOperand, hlen, h.toNat_res0]
  have hbase : u.srcOperand = s.dstOperand := congrArg BitVec.toNat hsrc
  have hdec : decodeSymbols u.tree (u.streamBit u.srcOperand) u.lengthOperand = .ok (s.bytesAt s.srcOperand s.lengthOperand) := by
    have hst := streamHas_of_holdsBits (h.holdsBits hmem)
    have hcoded := h.coded
    rw [hbc, hbase]
    rw [inputBits, hcodes] at hst ⊢
    rw [hcodes] at hcoded
    exact decodeSymbols_of_derived hk hi hku hshape hcoded hst
  have hn : (s.bytesAt s.srcOperand s.lengthOperand).length = n := length_bytesAt _ _ _
  have hstore := decodeStore_ok (state_ne_invalid_of_hasShape (hshape _ (hk.exists_shape hi).choose_spec.1))
    (by
      rw [hbase, hbc, rangeOk_congr hlast, h.result]
      exact (rangeOk_congr (s := s) rfl).mpr h.range)
    hdec (hn ▸ hdst)
    (by
      rw [hbase, hbc, ← h.toNat_res0, hn]
      exact hap)
  refine ⟨_, exec_decode_of_store hstore, decoded_changesOnly _ _, ?_, ?_, ?_⟩
  · have := bytesAt_of_holdsBytes (decoded_holdsBytes u ⟨u.dstOperand, s.bytesAt s.srcOperand s.lengthOperand⟩)
    rwa [hn] at this
  · exact hn ▸ decoded_sameBytesOutside u ⟨u.dstOperand, s.bytesAt s.srcOperand s.lengthOperand⟩
  · rw [decoded_res0, BitVec.toNat_ofNat, Nat.mod_eq_of_lt] <;> rw [hn]
    exact s.larg[1].isLt

/-! ### The whole run -/

/-- A write to a range leaves the bytes of a range apart from it (R63). -/
theorem memRead_of_apart {s t : State} {base k a n : Nat} (h : SameBytesOutside s t base k) (hap : RangesApart a n base k) :
    ∀ x, a ≤ x → x < a + n → t.memRead x = s.memRead x := by
  intro x hx hx'
  unfold RangesApart at hap
  exact h x (by omega)

/-- The shape of a built tree has the symbols present as its leaves (R151, R152). -/
theorem buildTree_hasShape (freq : Vector Word 256) :
    ∃ sh, (buildTree freq).1.HasShape sh ∧ ∀ sym ∈ presentSymbols freq, ∃ x ∈ sh, sym ∈ x.symbols := by
  obtain h | ⟨sym, h⟩ | h := presentSymbols_cases freq
  · rw [buildTree_of_nil h, h]
    exact ⟨none, rfl, nofun⟩
  · rw [buildTree_of_singleton h, h]
    exact ⟨_, singleTree_hasShape _ _, fun sym hs => ⟨_, rfl, hs⟩⟩
  · obtain ⟨-, x, b⟩ := buildTree_multi h
    exact ⟨some x, b.shape, fun sym hs => ⟨x, rfl, b.symbols.mem_iff.mpr hs⟩⟩

theorem buildTree_ne_invalid (freq : Vector Word 256) : (buildTree freq).1.state ≠ .invalid :=
  state_ne_invalid_of_hasShape (buildTree_hasShape freq).choose_spec.1

/-- Every symbol with a count gets a code (R151, R181). -/
theorem code_ne_nil_of_present {freq : Vector Word 256} {sym : Byte} (h : sym ∈ presentSymbols freq) :
    (deriveCodes (buildTree freq).1).code sym ≠ [] := by
  obtain ⟨sh, hs, hmem⟩ := buildTree_hasShape freq
  obtain ⟨d, hn⟩ := derives_of_hasShape (buildTree_ok freq) hs
  obtain ⟨x, hx, hsym⟩ := hmem sym h
  obtain ⟨p, hp, rfl⟩ := mem_symbols_iff_exists_code.mp hsym
  have hp : p ∈ codesOf sh := mem_codesOf.mpr ⟨x, hx, hp⟩
  rw [← (has_of_mem_codesOf d hn hp).eq_code]
  exact List.ne_nil_of_length_pos (length_of_mem_codesOf hn p hp).1

/-- A byte that was counted has a code. -/
theorem code_ne_nil_of_counted {s : State} {src n : Nat} (hn : n < 2 ^ 32) :
    ∀ b ∈ s.bytesAt src n, (deriveCodes (buildTree (s.countBytes src n)).1).code b ≠ [] := fun _ hb =>
  code_ne_nil_of_present ((presentSymbols_countBytes_perm s src hn).mem_iff.mpr (List.mem_dedup.mpr hb))

/-- A scan whose bytes all have codes ends in no UNKNOWN_SYMBOL (R191). -/
theorem encodeScan_ne_unknownSymbol {c : CodeTable} {input : Nat → Byte} {count i total : Nat} {e : Raise}
    (hc : ∀ b ∈ inputFrom input i count, c.code b ≠ []) (h : encodeScan c input count i total = .error e) :
    e.code ≠ .unknownSymbol := by
  induction count generalizing i total with
  | zero => cases h
  | succ count ih =>
    rw [inputFrom_succ] at hc
    have h0 : c.len[(input i).toNat].toNat ≠ 0 := by
      rw [← length_code]
      exact fun h0 => hc _ List.mem_cons_self (List.length_eq_zero_iff.mp h0)
    simp only [encodeScan, if_neg h0] at h
    split at h
    · cases h
      exact nofun
    · split at h
      · next he =>
        cases h
        exact ih (fun b hb => hc b (List.mem_cons_of_mem _ hb)) he
      · cases h

theorem exec_encode_ne_unknownSymbol {s t : State} (hv : s.codes.valid = true)
    (hc : ∀ b ∈ s.bytesAt s.srcOperand s.lengthOperand, s.codes.code b ≠ []) (he : exec .encode s = .next t) :
    t.status.errCode ≠ .unknownSymbol := by
  cases hstore : s.encodeStore with
  | ok r =>
    cases (exec_encode_of_store (total := r.1) (st := r.2) hstore).symm.trans he
    exact nofun
  | error e =>
    cases (exec_encode_of_error hstore).symm.trans he
    show e.code ≠ .unknownSymbol
    by_cases hsrc : s.RangeOk s.srcOperand s.lengthOperand
    · cases hscan : encodeScan s.codes (fun i => s.memRead (s.srcOperand + i)) s.lengthOperand 0 0 with
      | error e' =>
        cases (encodeStore_scan_error hv hsrc hscan).symm.trans hstore
        rw [bytesAt_eq_inputFrom] at hc
        exact encodeScan_ne_unknownSymbol hc hscan
      | ok bits =>
        by_cases hdst : s.RangeOk s.dstOperand (bytesForBits bits.length)
        · by_cases hap : RangesApart s.srcOperand s.lengthOperand s.dstOperand (bytesForBits bits.length)
          · cases (encodeStore_ok hv hsrc hscan hdst hap).symm.trans hstore
          · cases (encodeStore_overlap hv hsrc hscan hdst hap).symm.trans hstore
            exact nofun
        · cases (encodeStore_bad_dst hv hsrc hscan hdst).symm.trans hstore
          exact nofun
    · cases (encodeStore_bad_src hv hsrc).symm.trans hstore
      exact nofun

/-- What FREQ_BUILD of the n bytes at src, TREE_BUILD and CODE_DERIVE leave: the tree of the counts and its codes. -/
structure TabledFrom (s t : State) (src n : Nat) : Prop where
  ok : t.status.errCode = .ok
  tree : t.tree = (buildTree (s.countBytes src n)).1
  codes : t.codes = deriveCodes t.tree
  sameBytes : SameBytes s t
  dmemLast : t.dmemLast = s.dmemLast

/-- FREQ_BUILD, TREE_BUILD and CODE_DERIVE in a row succeed on a valid range. -/
theorem exec_freqBuild_treeBuild_codeDerive {s : State} (h : s.RangeOk s.srcOperand s.lengthOperand) :
    ∃ s₁ s₂ s₃ : State, exec .freqBuild s = .next s₁ ∧ exec .treeBuild s₁ = .next s₂ ∧ exec .codeDerive s₂ = .next s₃ ∧
      TabledFrom s s₃ s.srcOperand s.lengthOperand := by
  have h₁ := exec_freqBuild_of_rangeOk h
  generalize hf : s.countBytes s.srcOperand s.lengthOperand = f at h₁
  have c₁ := tabulated_changesOnly s f
  have c₂ := treeBuilt_changesOnly (tabulated s f)
  have c₃ := derived_changesOnly (treeBuilt (tabulated s f)) (deriveCodes (treeBuilt (tabulated s f)).tree)
  refine ⟨_, _, _, h₁, exec_treeBuild _, exec_codeDerive_of_ne_invalid (buildTree_ne_invalid f), rfl, hf ▸ rfl, rfl,
    fun a => ?_, ?_⟩
  · exact (c₃.others .dmem (by decide) a).trans ((c₂.others .dmem (by decide) a).trans (c₁.others .dmem (by decide) a))
  · exact c₃.completed.dmemLast.trans (c₂.completed.dmemLast.trans c₁.completed.dmemLast)

theorem TabledFrom.ne_invalid {s t : State} {src n : Nat} (h : TabledFrom s t src n) : t.tree.state ≠ .invalid := by
  rw [h.tree]
  exact buildTree_ne_invalid _

theorem TabledFrom.treeOk {s t : State} {src n : Nat} (h : TabledFrom s t src n) : t.tree.Ok := by
  rw [h.tree]
  exact buildTree_ok _

theorem TabledFrom.valid {s t : State} {src n : Nat} (h : TabledFrom s t src n) : t.codes.valid = true := by
  obtain ⟨sh, hs, -⟩ := h.treeOk.exists_shape h.ne_invalid
  rw [h.codes]
  exact (derives_of_hasShape h.treeOk hs).1.valid

/-- The codes of the bytes counted. -/
theorem TabledFrom.coded {s t : State} {src n : Nat} (h : TabledFrom s t src n) (hn : n < 2 ^ 32) :
    ∀ b ∈ s.bytesAt src n, t.codes.code b ≠ [] := by
  rw [h.codes, h.tree]
  exact code_ne_nil_of_counted hn

/-- What TREE_SERIALIZE at d then leaves: the descriptor stored, and the bytes of the input as they were. -/
structure SerializedFrom (s t : State) (src n d : Nat) : Prop where
  ok : t.status.errCode = .ok
  treeOk : t.tree.Ok
  valid : t.codes.valid = true
  codesOk : t.CodesOk
  input : t.bytesAt src n = s.bytesAt src n
  coded : ∀ b ∈ s.bytesAt src n, t.codes.code b ≠ []
  descriptor : HoldsBytes t d t.tree.descriptor
  dmemLast : t.dmemLast = s.dmemLast

theorem exec_treeSerialize_of_tabledFrom {s t : State} {src n : Nat} {d : Word} (h : TabledFrom s t src n) (hn : n < 2 ^ 32)
    (hd : s.RangeOk d.toNat t.tree.descriptor.length) (hap : RangesApart src n d.toNat t.tree.descriptor.length) :
    ∃ u, exec .treeSerialize (t.withArgs d 0#32 0#32) = .next u ∧ SerializedFrom s u src n d.toNat ∧
      u.tree = t.tree ∧ u.res[0] = BitVec.ofNat 32 t.tree.descriptor.length := by
  refine ⟨_, exec_treeSerialize_of_rangeOk (s := t.withArgs d 0#32 0#32) h.ne_invalid ((rangeOk_congr h.dmemLast).mpr hd),
    ⟨rfl, h.treeOk, h.valid, fun _ => ⟨h.ne_invalid, h.codes⟩, ?_, h.coded hn, serialized_holdsBytes _ _, h.dmemLast⟩, rfl,
    serialized_res0 _ _⟩
  calc State.bytesAt (serialized (t.withArgs d 0#32 0#32) t.tree.descriptor) src n
    _ = t.bytesAt src n := bytesAt_congr (memRead_of_apart (serialized_sameBytesOutside (t.withArgs d 0#32 0#32) _) hap)
    _ = s.bytesAt src n := bytesAt_congr fun a _ _ => h.sameBytes a

/-- TREE_LOAD of a tree's descriptor, kept by ENCODE, then DECODE of what ENCODE stored (R157, R193). -/
theorem exec_treeLoad_decode_of_encoded {s t : State} {d m r : Word} (hk : s.tree.Ok) (hc : s.CodesOk)
    (he : exec .encode s = .next t) (hok : t.status.errCode = .ok) (hm : m.toNat = s.tree.descriptor.length)
    (hd : s.RangeOk d.toNat m.toNat) (hdesc : HoldsBytes s d.toNat s.tree.descriptor)
    (hape : RangesApart d.toNat m.toNat s.larg[2].toNat ((t.res[0].toNat + 7) / 8))
    (hr : s.RangeOk r.toNat s.larg[1].toNat)
    (hapr : RangesApart s.larg[2].toNat ((t.res[0].toNat + 7) / 8) r.toNat s.larg[1].toNat) :
    ∃ u v : State, exec .treeLoad (t.withArgs d m 0#32) = .next u ∧ u.status.errCode = .ok ∧
      exec .decode (u.withArgs s.larg[2] t.res[0] r) = .next v ∧ v.status.errCode = .ok ∧
      v.bytesAt r.toNat s.larg[1].toNat = s.bytesAt s.larg[0].toNat s.larg[1].toNat ∧ v.res[0] = s.larg[1] := by
  have h := encodedFrom_of_exec he hok
  have hcompleted : Completed s t := h.result ▸ (encoded_changesOnly _ _ _).completed
  have hlast : t.dmemLast = s.dmemLast := by rw [h.result]; rfl
  have hkeep : ∀ x, d.toNat ≤ x → x < d.toNat + m.toNat → t.memRead x = s.memRead x := by
    have hout := encoded_sameBytesOutside s (inputBits s s.lengthOperand).length
      { base := s.dstOperand, bytes := packBits (inputBits s s.lengthOperand) }
    rw [← h.result, length_packBits, ← h.toNat_res0] at hout
    exact memRead_of_apart hout hape
  have hbytes : BytesAt (fun i => t.memRead (d.toNat + i)) 0 s.tree.descriptor := by
    intro i hi
    simp only [Nat.zero_add]
    rw [hkeep _ (by omega) (by omega)]
    exact hdesc i hi
  obtain ⟨t', leaves, hl, reload⟩ := loadTree_of_descriptor hk (hc h.valid).1 hbytes
  rw [← hm] at hl
  have hload := exec_treeLoad_of_loadTree (s := t.withArgs d m 0#32) ((rangeOk_congr hlast).mpr hd) hl
  obtain ⟨v, hdec, hv, hout, -, hres⟩ := encodeDecodeRoundTrip s t
    ((treeLoaded (t.withArgs d m 0#32) t' leaves).withArgs s.larg[2] t.res[0] r) hk hc he hcompleted (loadTree_ok hl)
    reload.shape (fun _ => rfl) rfl rfl rfl ((rangeOk_congr hlast).mpr hr) hapr
  exact ⟨_, v, hload, rfl, hdec, by rw [hv.completed.status], hout, BitVec.eq_of_toNat_eq hres⟩

/-- Settles O59: the input's bytes are counted, so they have codes; the descriptor loads as a tree of the same shape; so the
stream decodes to the input. -/
theorem compressThenDecompress : Obligations.CompressThenDecompress := by
  intro s₀ src n d e r hsrc
  obtain ⟨s₁, s₂, s₃, he₁, he₂, he₃, h₃⟩ := exec_freqBuild_treeBuild_codeDerive (s := s₀.withArgs src n 0#32) hsrc
  refine ⟨s₁, s₂, s₃, he₁, he₂, he₃, h₃.ok, fun m hm hd hapd => ?_⟩
  obtain ⟨s₄, he₄, h₄, htree, hres⟩ := exec_treeSerialize_of_tabledFrom (d := d) h₃ n.isLt (hm ▸ hd) (hm ▸ hapd)
  rw [← hm, BitVec.ofNat_toNat, BitVec.setWidth_eq] at hres
  rw [← htree] at hm
  refine ⟨s₄, he₄, h₄.ok, hres, fun s₅ he₅ => ⟨?_, fun hok hape hr hapr => ?_⟩⟩
  · exact exec_encode_ne_unknownSymbol (s := s₄.withArgs src n e) h₄.valid (h₄.input ▸ h₄.coded) he₅
  · obtain ⟨s₆, s₇, he₆, hok₆, he₇, hok₇, hout, hcount⟩ := exec_treeLoad_decode_of_encoded (s := s₄.withArgs src n e)
      (d := d) (r := r) h₄.treeOk h₄.codesOk he₅ hok hm ((rangeOk_congr h₄.dmemLast).mpr hd) h₄.descriptor hape
      ((rangeOk_congr h₄.dmemLast).mpr hr) hapr
    exact ⟨s₆, s₇, he₆, hok₆, he₇, hok₇, hout.trans h₄.input, hcount⟩

end Sys2Proof.Proofs
end
